-- ==== Sys2Proof/Word.lean ====
section
/-! DEFINITION. The word types of the block: 32-bit registers and addresses, 16-bit samples, bytes. -/

namespace Sys2Proof

/-- A register of the host register block, or an address of BS or PM (R28, R61, R62). -/
abbrev Word := BitVec 32

/-- One cell of the plane memory PM, a signed 16-bit sample (R62). -/
abbrev Sample := BitVec 16

/-- One cell of the bitstream memory BS (R61). -/
abbrev Byte := BitVec 8

end Sys2Proof
end

