-- ==== Sys2Proof/Config.lean ====
section
/-! DEFINITION. What the spec fixes for this hardware (R5, R6, R293), what it leaves to the implementation (R6), and the
free values of a run that breaks R75 (U14). -/

namespace Sys2Proof

/-- The order of a sample's two bytes in a byte-wise view of PM (R68). -/
inductive ByteOrder where
  | little
  | big
  deriving DecidableEq, Repr

/-- The parameters that R6 leaves `OPEN`. A machine carries them in `State.cfg` and no step changes them
(DESIGN CHOICE, log entry 1). -/
structure Config where
  /-- `MAXDIM`: the largest aligned frame dimension, filter length and predictor width. -/
  maxDim : Nat
  /-- `BS_SIZE`: the size of BS in bytes. -/
  bsSize : Nat
  /-- `PM_SIZE`: the size of PM in samples. -/
  pmSize : Nat
  /-- `PM_BYTE_ORDER`: read by no rule of the block, only by the byte-wise view of PM. -/
  pmByteOrder : ByteOrder
  /-- The platform's base address of the register block. That it has 32 bits is a DESIGN CHOICE (log entry 21). -/
  regBase : Word
  deriving DecidableEq, Repr

/-- The limits R6 sets on the open parameters: `MAXDIM` is a positive multiple of 32 with `MAXDIM * MAXDIM < 2^31`,
and both memory sizes are at most `2^32 - 1`. -/
def Config.wf (c : Config) : Bool :=
  0 < c.maxDim && c.maxDim % 32 == 0 && c.maxDim * c.maxDim < 2 ^ 31 && c.bsSize ≤ 2 ^ 32 - 1 && c.pmSize ≤ 2 ^ 32 - 1

/-- The parameters of the machine after reset: the largest values R6 allows, base address 0, little-endian view.
DESIGN CHOICE, unsafe (log entry 1): a statement about every state does not rest on them. -/
def Config.reference : Config where
  maxDim := 46336
  bsSize := 2 ^ 32 - 1
  pmSize := 2 ^ 32 - 1
  pmByteOrder := .little
  regBase := 0#32

/-! ### Free values: what a host that breaks R75 leaves open (U14; log entry 10) -/

/-- Which of the values a raced BS byte held a block access sees: by the draw, the coefficient number, whether a run
codeword is being read, and the bit read. -/
opaque Config.raceByte : (draw i : Nat) → (run : Bool) → (bit : Nat) → Nat

/-- A sample that a racing host access left unspecified, by the draw and an index. -/
opaque Config.raceSample : (draw index : Nat) → Sample

/-- The byte count of a command whose result a racing host access left unspecified. -/
opaque Config.raceRet : (draw : Nat) → Word

/-! ### Fixed values -/

/-- `STATE_MAX`, the largest value of the register `state` (R6, R21). -/
def Config.stateMax : Int := 2 ^ 31 - 1

/-- The adaptation gain of the low variant (R5, R166). -/
def Config.lowGain : Int := 120

/-- The initial value of `state` in every coder command (R5, R162, R204). -/
def Config.stateInit : Word := 3#32

/-- The unary cap of low values and of both kinds of run (R5, R106). -/
def Config.shortCap : Nat := 8

/-- `nbits + length` of the high variant (R5, R203). -/
def Config.highTotal : Nat := 25

/-- The run-length ceiling `0xFFFF` (R5, R177, R218). -/
def Config.runMax : Nat := 0xFFFF

/-- The largest suffix width of a value codeword (R165, R206). -/
def Config.widthMax : Nat := 14

/-- The filter constants of R293 have this common denominator `2^28` (the largest of the column "as a fraction"). -/
def Config.filterDenomBits : Nat := 28

/-- `KE1 = 635533 / 2^23` (R293), over `2^28`. -/
def Config.ke1 : Int := 635533 * 2 ^ 5

/-- `KE0 = 14405415 / 2^24` (R293), over `2^28`. -/
def Config.ke0 : Int := 14405415 * 2 ^ 4

/-- `KEH = 11863283 / 2^25` (R293), over `2^28`. -/
def Config.keh : Int := 11863283 * 2 ^ 3

/-- `KO2 = 4067411 / 2^28` (R293), over `2^28`. -/
def Config.ko2 : Int := 4067411

/-- `KO1 = 6185855 / 2^24` (R293), over `2^28`. -/
def Config.ko1 : Int := 6185855 * 2 ^ 4

/-- `KOH1 = 9490627 / 2^27` (R293), over `2^28`. -/
def Config.koh1 : Int := 9490627 * 2

/-- `KOH0 = 3558985 / 2^22` (R293), over `2^28`. -/
def Config.koh0 : Int := 3558985 * 2 ^ 6

end Sys2Proof
end

