-- ==== Sys2Proof/Syntax.lean ====
section
/-! DEFINITION. The instructions of the block: the six commands (R92) and the thirteen codewords (R103), and the
context that sets a codeword's widths (R106). -/

namespace Sys2Proof

/-- One of the three planes of a frame (R2): 0 = Y, 1 = U, 2 = V. -/
inductive Plane where
  | y
  | u
  | v
  deriving DecidableEq, Repr

/-- One constructor per row of the opcode table. A command carries no operand but the plane of `IDWT` (R90). A
codeword carries the fields of R103; the widths `n`, `nbits` are register state and are not carried (R102). -/
inductive Instr where
  /-- `LAYOUT` (R147). -/
  | layout
  /-- `DECLOW` (R179). -/
  | declow
  /-- `DECHIGH` (R220). -/
  | dechigh
  /-- `PREDICT` (R272). -/
  | predict
  /-- `FILT1D` (R298). -/
  | filt1d
  /-- `IDWT p` (R301). -/
  | idwt (p : Plane)
  /-- `LV.S`: low value, short form, unary count `k` (R171). -/
  | lvS (k : Nat)
  /-- `LV.L`: low value, long form, unary count `k`, suffix `v` (R172). -/
  | lvL (k v : Nat)
  /-- `LV.X`: low value, escape form, payload `e` (R173). -/
  | lvX (e : BitVec 16)
  /-- `LR.S`: low run, short form (R174). -/
  | lrS (k : Nat)
  /-- `LR.L`: low run, long form (R175). -/
  | lrL (k v : Nat)
  /-- `LR.X`: low run, escape form, payload `r` (R176). -/
  | lrX (r : BitVec 16)
  /-- `HV.S`: high value, short form (R211). -/
  | hvS (k : Nat)
  /-- `HV.L`: high value, long form, suffix `v` (the source's `s`) (R212). -/
  | hvL (k v : Nat)
  /-- `HV.X`: high value, escape form, payload `e` of `nbits` bits (R213). -/
  | hvX (e : Nat)
  /-- `HR.S`: high run, short form (R214). -/
  | hrS (k : Nat)
  /-- `HR.L`: high run, long form (R215). -/
  | hrL (k v : Nat)
  /-- `HR.X8`: high run, escape form with 8-bit payload (R216). -/
  | hrX8 (u : BitVec 8)
  /-- `HR.X16`: high run, escape form with 16-bit payload (R217). -/
  | hrX16 (u : BitVec 16)
  deriving DecidableEq, Repr

/-- The kind of a codeword (R102, R106). -/
inductive Kind where
  | lowValue
  | lowRun
  | highValue
  | highRun
  deriving DecidableEq, Repr

/-- The register context that sets a codeword's widths (R106): its kind, the suffix width `n`, and for high values the
constant `nbits` of the command (other kinds do not read it). -/
structure Ctx where
  kind : Kind
  n : Nat
  nbits : Nat
  deriving DecidableEq, Repr

end Sys2Proof
end

