-- ==== Sys2Proof/WellFormed.lean ====
section
/-! DEFINITION. Which contexts arise (R106) and which codewords a context admits (R103). -/

namespace Sys2Proof

/-- The unary cap of a codeword kind (R106): 8, but `length = 25 - nbits` for high values (R203). -/
def Ctx.cap (c : Ctx) : Nat :=
  match c.kind with
  | .highValue => Config.highTotal - c.nbits
  | .lowValue | .lowRun | .highRun => Config.shortCap

/-- `M = 2^n - 1` (R103). -/
def Ctx.mask (c : Ctx) : Nat := 2 ^ c.n - 1

/-- The contexts of R106: `1 <= n <= 14` for values, `3 <= n <= 8` for runs, `1 <= nbits <= 16` for high values. -/
def Ctx.wf (c : Ctx) : Bool :=
  match c.kind with
  | .lowValue => 1 ≤ c.n && c.n ≤ 14
  | .highValue => 1 ≤ c.n && c.n ≤ 14 && 1 ≤ c.nbits && c.nbits ≤ 16
  | .lowRun | .highRun => 3 ≤ c.n && c.n ≤ 8

/-- The constraint on a short form of kind `kind` (R103): the count is below the cap. -/
def Ctx.admitsShort (c : Ctx) (kind : Kind) (k : Nat) : Bool := c.kind == kind && k < c.cap

/-- The constraint on a long form of kind `kind` (R103): the count is below the cap and `2 <= v <= M`. -/
def Ctx.admitsLong (c : Ctx) (kind : Kind) (k v : Nat) : Bool := c.kind == kind && k < c.cap && 2 ≤ v && v ≤ c.mask

/-- The instructions a context admits: every command, and the codewords of the context's kind within the constraints
of R103. -/
def Instr.wf (c : Ctx) : Instr → Bool
  | .layout | .declow | .dechigh | .predict | .filt1d | .idwt _ => true
  | .lvS k => c.admitsShort .lowValue k
  | .lvL k v => c.admitsLong .lowValue k v
  | .lvX _ => c.kind == .lowValue
  | .lrS k => c.admitsShort .lowRun k
  | .lrL k v => c.admitsLong .lowRun k v
  | .lrX _ => c.kind == .lowRun
  | .hvS k => c.admitsShort .highValue k
  | .hvL k v => c.admitsLong .highValue k v
  | .hvX e => c.kind == .highValue && e < 2 ^ c.nbits
  | .hrS k => c.admitsShort .highRun k
  | .hrL k v => c.admitsLong .highRun k v
  | .hrX8 _ | .hrX16 _ => c.kind == .highRun

/-- Is this a codeword (and not a command)? -/
def Instr.isCodeword : Instr → Bool
  | .layout | .declow | .dechigh | .predict | .filt1d | .idwt _ => false
  | .lvS _ | .lvL _ _ | .lvX _ | .lrS _ | .lrL _ _ | .lrX _ | .hvS _ | .hvL _ _ | .hvX _ | .hrS _ | .hrL _ _
  | .hrX8 _ | .hrX16 _ => true

end Sys2Proof
end

