-- ==== Sys2Proof/Decode.lean ====
section
/-! DEFINITION. The decoder and the encoder: command words (R91, R92, R94) and codewords (R102 to R107). -/

namespace Sys2Proof

/-! ### Bit strings, first bit left (R8, R112) -/

/-- The `n` low bits of `v`, most significant first. -/
def bitsMSB : (n v : Nat) → List Bool
  | 0, _ => []
  | n + 1, v => v.testBit n :: bitsMSB n v

/-- The first `n` bits as an unsigned number, first bit most significant; missing bits read as 0 (R97). -/
def peekBits : (n : Nat) → List Bool → Nat
  | 0, _ => 0
  | _ + 1, [] => 0
  | n + 1, b :: bs => b.toNat * 2 ^ n + peekBits n bs

/-- The number of leading 1 bits, at most `cap`; missing bits read as 0 (R97, R100). -/
def unaryBits : (cap : Nat) → List Bool → Nat
  | cap + 1, true :: bs => unaryBits cap bs + 1
  | _, _ => 0

/-! ### The words of an instruction -/

/-- What an instruction is stored as: a command word written to `CMD` (R91), or bits of the stream (R103). -/
inductive Words where
  | command (w : BitVec 32)
  | stream (bits : List Bool)
  deriving DecidableEq, Repr

/-- Why a word is rejected: it selects no command (R94). Every bit string decodes as a codeword (R108). -/
inductive DecodeError where
  | illegalCommand (w : BitVec 32)
  deriving DecidableEq, Repr

/-- R92: the command a 32-bit word selects. `OP` is bits 3:0, `PLANE` is bits 5:4, and bits 31:6 must be 0 (R91, R94). -/
def decodeCommand (w : BitVec 32) : Except DecodeError Instr :=
  if w.extractLsb' 6 26 = 0#26 then
    match (w.extractLsb' 0 4).toNat, (w.extractLsb' 4 2).toNat with
    | 1, 0 => .ok .layout
    | 2, 0 => .ok .declow
    | 3, 0 => .ok .dechigh
    | 4, 0 => .ok .predict
    | 5, 0 => .ok .filt1d
    | 6, 0 => .ok (.idwt .y)
    | 6, 1 => .ok (.idwt .u)
    | 6, 2 => .ok (.idwt .v)
    | _, _ => .error (.illegalCommand w)
  else .error (.illegalCommand w)

/-- The short form of a kind (R103). -/
def shortForm (kind : Kind) (k : Nat) : Instr :=
  match kind with
  | .lowValue => .lvS k
  | .lowRun => .lrS k
  | .highValue => .hvS k
  | .highRun => .hrS k

/-- The long form of a kind (R103). -/
def longForm (kind : Kind) (k v : Nat) : Instr :=
  match kind with
  | .lowValue => .lvL k v
  | .lowRun => .lrL k v
  | .highValue => .hvL k v
  | .highRun => .hrL k v

/-- The escape form, read from the bits after the capped prefix (R103): 16 bits, `nbits` bits, or a selector bit and
then 8 or 16 bits. -/
def escapeForm (c : Ctx) (rest : List Bool) : Instr :=
  match c.kind with
  | .lowValue => .lvX (BitVec.ofNat 16 (peekBits 16 rest))
  | .lowRun => .lrX (BitVec.ofNat 16 (peekBits 16 rest))
  | .highValue => .hvX (peekBits c.nbits rest)
  | .highRun =>
    if peekBits 1 rest = 1 then .hrX16 (BitVec.ofNat 16 (peekBits 16 (rest.drop 1)))
    else .hrX8 (BitVec.ofNat 8 (peekBits 8 (rest.drop 1)))

/-- R107: the codeword a bit string begins with. Below the cap the terminating 0 is consumed and `n` bits are peeked
(R104); at the cap the payload follows with no terminator (R100). Bits beyond the string read as 0 (R97). -/
def decodeCodeword (c : Ctx) (bits : List Bool) : Instr :=
  let k := unaryBits c.cap bits
  if k < c.cap then
    let v := peekBits c.n (bits.drop (k + 1))
    if v ≤ 1 then shortForm c.kind k else longForm c.kind k v
  else escapeForm c (bits.drop c.cap)

/-- The decoder: a command word, or stream bits in a context. -/
def decode (c : Ctx) : Words → Except DecodeError Instr
  | .command w => decodeCommand w
  | .stream bits => .ok (decodeCodeword c bits)

/-! ### The encoder -/

/-- The value of the `PLANE` field (R91). -/
def Plane.code : Plane → BitVec 2
  | .y => 0#2
  | .u => 1#2
  | .v => 2#2

/-- A command word from its opcode and plane (R91). -/
def commandWord (op : BitVec 4) (plane : BitVec 2) : BitVec 32 := 0#26 ++ plane ++ op

/-- `1^k 0 0^(n-1)` (R103). -/
def shortBits (n k : Nat) : List Bool := List.replicate k true ++ false :: List.replicate (n - 1) false

/-- `1^k 0 v` with `v` in `n` bits (R103). -/
def longBits (n k v : Nat) : List Bool := List.replicate k true ++ false :: bitsMSB n v

/-- `1^cap` and then the payload, with no 0 between them (R102). -/
def escapeBits (cap : Nat) (payload : List Bool) : List Bool := List.replicate cap true ++ payload

/-- The words of an instruction in a context (R92, R103). -/
def encode (c : Ctx) : Instr → Words
  | .layout => .command (commandWord 1#4 0#2)
  | .declow => .command (commandWord 2#4 0#2)
  | .dechigh => .command (commandWord 3#4 0#2)
  | .predict => .command (commandWord 4#4 0#2)
  | .filt1d => .command (commandWord 5#4 0#2)
  | .idwt p => .command (commandWord 6#4 p.code)
  | .lvS k | .lrS k | .hvS k | .hrS k => .stream (shortBits c.n k)
  | .lvL k v | .lrL k v | .hvL k v | .hrL k v => .stream (longBits c.n k v)
  | .lvX e => .stream (escapeBits Config.shortCap (bitsMSB 16 e.toNat))
  | .lrX r => .stream (escapeBits Config.shortCap (bitsMSB 16 r.toNat))
  | .hvX e => .stream (escapeBits (Config.highTotal - c.nbits) (bitsMSB c.nbits e))
  | .hrX8 u => .stream (escapeBits Config.shortCap (false :: bitsMSB 8 u.toNat))
  | .hrX16 u => .stream (escapeBits Config.shortCap (true :: bitsMSB 16 u.toNat))

/-- The number of bits an instruction consumes (R103, column "length in bits"); a command word has 32. -/
def Instr.bitLength (c : Ctx) : Instr → Nat
  | .layout | .declow | .dechigh | .predict | .filt1d | .idwt _ => 32
  | .lvS k | .lrS k | .hvS k | .hrS k => k + c.n
  | .lvL k _ | .lrL k _ | .hvL k _ | .hrL k _ => k + 1 + c.n
  | .lvX _ | .lrX _ => 24
  | .hvX _ => Config.highTotal
  | .hrX8 _ => 17
  | .hrX16 _ => 25

/-- The first codeword of every `DECLOW`: a low value with `state = 3`, hence `n = 1` (R180). -/
def Ctx.first : Ctx where
  kind := .lowValue
  n := 1
  nbits := 0

/-- The instruction the decoder reads from a table word. A 32-bit row is a command word. Any other width is a bit string
of that many bits, most significant first as the table's patterns number it, decoded as the first codeword of a
`DECLOW` (log entry 8: `LR.X` has the same word as `LV.X` and needs another context). -/
def decodeTableWord (nbits w : Nat) : Option Instr :=
  if nbits = 32 then
    match decodeCommand (BitVec.ofNat 32 w) with
    | .ok i => some i
    | .error _ => none
  else if nbits = 0 then none
  else some (decodeCodeword Ctx.first (bitsMSB nbits w))

end Sys2Proof
end

