-- ==== Sys2Proof/Machine/State.lean ====
section
/-! DEFINITION. Everything the spec gives the machine, as plain data (R20), its stops, and the state after reset
(R52, R53). -/

namespace Sys2Proof.Machine

/-- A memory of `w`-bit cells: (address, cell) pairs, addresses strictly rising, no cell equal to what an unlisted
address reads as. BS is a list of `Host.Cell`; PM is addressed by sample, so its cells are 16-bit samples (R61, R62;
log entry 5). -/
abbrev Memory (w : Nat) := List (Nat × BitVec w)

/-- One value per plane (R2). -/
structure Tri (α : Type) where
  p0 : α
  p1 : α
  p2 : α
  deriving DecidableEq, Repr

/-- One value per wavelet level `k = 0..3` (R5). -/
structure Quad (α : Type) where
  k0 : α
  k1 : α
  k2 : α
  k3 : α
  deriving DecidableEq, Repr

/-- The fault codes of `STATUS.ERR` (R331). Taking one is a next state (R340), not a stop. -/
inductive ErrCode where
  | none
  | idBitsExhausted
  | idRunOverrun
  | idRunTooLong
  | idNbitsRange
  | idScaleZero
  | idStateRange
  | outOfMemory
  | badConfig
  | memBounds
  | illegalCmd
  deriving DecidableEq, Repr

/-- The fields of `STATUS` (R30); every other bit reads 0. -/
structure Status where
  busy : Bool
  done : Bool
  fault : Bool
  sticky : Bool
  lvalid : Bool
  err : ErrCode
  deriving DecidableEq, Repr

/-- The registers the host reads and writes and no command modifies (R29, R32 to R38, R43). -/
structure Regs where
  bsptr : Word
  bsend : Word
  dst : Word
  size : Word
  width : Word
  height : Word
  stride : Word
  hc : Word
  hscale : Word
  hd : Word
  fscaleLo : Word
  fscaleHi : Word
  w : Word
  h : Word
  pbase : Tri Word
  pstride : Tri Word
  deriving DecidableEq, Repr

/-- `SCALE[p][dir][k]` of one plane: the binary64 patterns of the two directions (R45). -/
structure ScaleSet where
  hor : Quad (BitVec 64)
  ver : Quad (BitVec 64)
  deriving DecidableEq, Repr

/-- One entry of the BAND table (R47). -/
structure Band where
  width : Word
  height : Word
  size : Word
  x : Word
  y : Word
  deriving DecidableEq, Repr

/-- The three detail bands of one level (R144, R145): bands `3k+1`, `3k+2`, `3k+3`. -/
structure Details where
  hl : Band
  lh : Band
  hh : Band
  deriving DecidableEq, Repr

/-- `BAND[p]`: the lowpass band 0 and the details of the four groups `k = 0..3` (R143, R144). -/
structure BandTable where
  low : Band
  detail : Quad Details
  deriving DecidableEq, Repr

/-- The working registers of the entropy decoder (R21 to R26). -/
structure Work where
  state : Word
  flag : Bool
  i : Word
  j : Word
  row : Word
  pos : Nat
  nbits : Nat
  length : Nat
  deriving DecidableEq, Repr

/-- The hidden scratch of units LP and IW (R49, R50). `low` and `high` hold the padded arrays from index -1 on, the
cells that are ever read (R292; log entry 14). -/
structure Scratch where
  pred : List Sample
  low : List Sample
  high : List Sample
  deriving DecidableEq, Repr

/-- The two variants of the entropy decoder (R160, R200). -/
inductive Variant where
  | low
  | high
  deriving DecidableEq, Repr

/-- Where the block stands between two steps: idle (R372), or inside a coder command with a value codeword or a run
codeword to decode next (R164, R168, R205, R209). -/
inductive Engine where
  | idle
  | value (v : Variant)
  | run (v : Variant)
  deriving DecidableEq, Repr

/-- An action of the host (R14, section 8 of `95_test_vectors.md`; log entry 6). Register addresses are bus addresses:
the base plus the byte offset of R29, 32 bits wide (DESIGN CHOICE, log entry 21). That the host can read BS is the model's choice (log entry 19). -/
inductive HostOp where
  /-- A 32-bit write of a register (R28). -/
  | wr (addr value : Word)
  /-- A 32-bit read of a register (R28). -/
  | rd (addr : Word)
  /-- A write of one byte of BS (R61). -/
  | bsWrite (addr : Word) (value : Byte)
  /-- A read of one byte of BS, as the host's own readers make it (R241). DESIGN CHOICE (log entry 19): R61 states host
  writes only and R75 forbids no read. -/
  | bsRead (addr : Word)
  /-- A write of one sample of PM (R62). -/
  | pmWrite (addr : Word) (value : Sample)
  /-- A read of one sample of PM (R62). -/
  | pmRead (addr : Word)
  /-- Reset (R370) between two units of the block's work. -/
  | reset
  /-- A write of `word` to `CMD`, and reset while the block does the work it starts: after its first `writes` writes of
  PM, or at its end if it makes fewer (R370, R371; log entry 20). -/
  | cmdThenReset (word : Word) (writes : Nat)
  /-- Reset while the block is at work on its next codeword, after its first `writes` writes of PM, or at its end if it
  makes fewer (R370, R371; log entry 20). -/
  | tickThenReset (writes : Nat)
  /-- Poll `STATUS` until `BUSY` reads 0 (R76, R111). -/
  | wait
  /-- The host does nothing while the block does one unit of its work (R391). -/
  | tick
  deriving DecidableEq, Repr

/-- What the host did to the memory of the running coder command in breach of R75 (U14; log entry 10). -/
structure Race where
  /-- Has the host written memory that the command uses? Its final result is then unspecified. -/
  raced : Bool
  /-- The values that BS bytes held during the command before the host overwrote them. -/
  held : List (Nat × Byte)
  /-- The counter that the free values are drawn with. -/
  draws : Nat
  deriving DecidableEq, Repr

/-- The state of one block instance (R20) with the model's own fields `cfg`, `engine`, `host`, `rdata`, `race`,
`pmLog`. -/
structure State where
  /-- The open parameters of R6; never written (log entry 1). -/
  cfg : Config
  /-- `STATUS` (R30). -/
  status : Status
  /-- `RET` (R31). -/
  ret : Word
  /-- The operand registers (R29). -/
  regs : Regs
  /-- `SCALE` (R45). -/
  scale : Tri ScaleSet
  /-- `PW` (R40). -/
  pw : Tri Word
  /-- `PH` (R40). -/
  ph : Tri Word
  /-- `BAND` (R47). -/
  band : Tri BandTable
  /-- The working registers (R21 to R27). -/
  work : Work
  /-- The command in progress. -/
  engine : Engine
  /-- The hidden scratch (R49 to R51). -/
  scratch : Scratch
  /-- The bitstream memory (R61). -/
  bs : Memory 8
  /-- The plane memory (R62). -/
  pm : Memory 16
  /-- The host's pending actions, the next one first (log entry 6). -/
  host : List HostOp
  /-- What the host's last read returned (log entry 6). -/
  rdata : Word
  /-- Racing host accesses to the running command's memory (log entry 10). -/
  race : Race
  /-- The PM writes of the present unit of work, last one first, kept only while a reset is to cut it (log entry 20). -/
  pmLog : Option (List (Nat × Sample))
  deriving DecidableEq, Repr

/-- How the model stops with a fault. The block's own faults are not here: they are next states (R340). -/
inductive Fault where
  /-- Raised by the meaning of a codeword when no coder command of its variant waits for a codeword of its kind. The
  spec gives a codeword a meaning only inside its command (R90, R102). No step raises it, since the step decodes in the
  context of the running command. Safe (log entry 9). -/
  | codewordOutOfContext
  /-- Raised by a host access to BS at or beyond `BS_SIZE` or to PM at or beyond `PM_SIZE`: the cell does not exist
  (R61, R62). Safe (log entry 12). -/
  | hostOutsideMemory
  deriving DecidableEq, Repr

/-- What the model refuses. -/
inductive Refusal where
  /-- Raised by the dispatch for an instruction that has no meaning yet. Safe. -/
  | notModelled (mnemonic : String)
  /-- Raised by a host access to the register block that is not naturally aligned: only aligned 32-bit accesses are
  defined, and `93_implementation_defined.md` U8 says to refuse (R28). Safe (log entry 11). -/
  | unalignedRegisterAccess
  deriving DecidableEq, Repr

/-- All three planes alike. -/
def Tri.all {α : Type} (a : α) : Tri α where
  p0 := a
  p1 := a
  p2 := a

/-- All four levels alike. -/
def Quad.all {α : Type} (a : α) : Quad α where
  k0 := a
  k1 := a
  k2 := a
  k3 := a

/-- A BAND entry of zeros (R53). -/
def Band.zero : Band where
  width := 0#32
  height := 0#32
  size := 0#32
  x := 0#32
  y := 0#32

/-- `STATUS = 0` (R52). -/
def Status.reset : Status where
  busy := false
  done := false
  fault := false
  sticky := false
  lvalid := false
  err := .none

/-- Every operand register at 0 (R53). -/
def Regs.reset : Regs where
  bsptr := 0#32
  bsend := 0#32
  dst := 0#32
  size := 0#32
  width := 0#32
  height := 0#32
  stride := 0#32
  hc := 0#32
  hscale := 0#32
  hd := 0#32
  fscaleLo := 0#32
  fscaleHi := 0#32
  w := 0#32
  h := 0#32
  pbase := .all 0#32
  pstride := .all 0#32

/-- The working registers after reset: the spec gives no value (R27, R53), the model takes 0 (DESIGN CHOICE, unsafe, log
entry 2). No rule reads one before its command has written it. -/
def Work.reset : Work where
  state := 0#32
  flag := false
  i := 0#32
  j := 0#32
  row := 0#32
  pos := 0
  nbits := 0
  length := 0

/-- No race; the counter of free values starts at 0 (DESIGN CHOICE, log entry 10). -/
def Race.reset : Race where
  raced := false
  held := []
  draws := 0

/-- The hidden scratch after reset: empty (R52). -/
def Scratch.reset : Scratch where
  pred := []
  low := []
  high := []

/-- The machine right after reset (R52, R53, R372): idle, every register and table 0, nothing in either memory (log
entry 4), no host action pending. -/
def State.reset : State where
  cfg := Config.reference
  status := Status.reset
  ret := 0#32
  regs := Regs.reset
  scale := .all { hor := .all 0#64, ver := .all 0#64 }
  pw := .all 0#32
  ph := .all 0#32
  band := .all { low := Band.zero, detail := .all { hl := Band.zero, lh := Band.zero, hh := Band.zero } }
  work := Work.reset
  engine := .idle
  scratch := Scratch.reset
  bs := []
  pm := []
  host := []
  rdata := 0#32
  race := Race.reset
  pmLog := none

end Sys2Proof.Machine
end

