-- ==== Sys2Proof/Machine/Ops.lean ====
section
/-! DEFINITION. The named operations the meanings share: memories (R61 to R68), runs that may raise a fault, completion
(R340, R341), the bit reader (R96 to R101), the coefficient store (R163), and the tables by plane and level. -/

namespace Sys2Proof.Machine

/-! ### Memories -/

/-- What one cell reads as; an unlisted cell reads as 0 (DESIGN CHOICE, log entry 4). -/
def Memory.read {w : Nat} : Memory w → Nat → BitVec w
  | [], _ => 0#w
  | (b, v) :: m, a => if a = b then v else Memory.read m a

/-- Writes one cell and keeps the canonical form: writing 0 removes the entry. -/
def Memory.write {w : Nat} : Memory w → Nat → BitVec w → Memory w
  | [], a, v => if v = 0#w then [] else [(a, v)]
  | (b, u) :: m, a, v =>
    if a < b then (if v = 0#w then (b, u) :: m else (a, v) :: (b, u) :: m)
    else if a = b then (if v = 0#w then m else (a, v) :: m)
    else (b, u) :: Memory.write m a v

/-- The canonical form: addresses strictly rising, no listed cell 0. -/
def Memory.wf {w : Nat} : Memory w → Bool
  | [] => true
  | (a, v) :: m => v != 0#w && m.all (fun c => a < c.1) && Memory.wf m

/-- Every listed address is below `size`. -/
def Memory.within {w : Nat} (m : Memory w) (size : Nat) : Bool := m.all (fun c => c.1 < size)

/-- Several writes, in order. -/
def Memory.replay {w : Nat} (m : Memory w) (writes : List (Nat × BitVec w)) : Memory w :=
  writes.foldl (fun m c => m.write c.1 c.2) m

/-! ### Planes and levels -/

/-- The value of plane `p`. -/
def Tri.get {α : Type} (t : Tri α) : Plane → α
  | .y => t.p0
  | .u => t.p1
  | .v => t.p2

/-- Replaces the value of plane `p`. -/
def Tri.set {α : Type} (t : Tri α) (p : Plane) (a : α) : Tri α :=
  match p with
  | .y => { t with p0 := a }
  | .u => { t with p1 := a }
  | .v => { t with p2 := a }

/-- The value of level `k`, `k = 0..3`; any larger `k` reads level 3. -/
def Quad.get {α : Type} (q : Quad α) : Nat → α
  | 0 => q.k0
  | 1 => q.k1
  | 2 => q.k2
  | _ => q.k3

/-- Replaces the value of level `k`, `k = 0..3`; any larger `k` replaces level 3. -/
def Quad.set {α : Type} (q : Quad α) (k : Nat) (a : α) : Quad α :=
  match k with
  | 0 => { q with k0 := a }
  | 1 => { q with k1 := a }
  | 2 => { q with k2 := a }
  | _ => { q with k3 := a }

/-! ### Accepting a command, completion -/

/-- R95: an accepted `CMD` write sets `BUSY` and clears `DONE`, `FAULT`, `ERR`. -/
def State.accept (s : State) : State :=
  { s with status := { s.status with busy := true, done := false, fault := false, err := .none } }

/-- R340: fault completion, the block's whole taking of an exception. -/
def State.raise (s : State) (code : ErrCode) : State :=
  { s with
    status := { s.status with err := code, fault := true, sticky := true, done := false, busy := false }
    engine := .idle }

/-- R341: normal completion of a command that returns no byte count. -/
def State.complete (s : State) : State :=
  { s with
    status := { s.status with err := .none, done := true, fault := false, busy := false }
    engine := .idle }

/-- R101: the bit cursor rounded up to a whole byte. -/
def alignUp (pos : Nat) : Nat := (pos + 7) / 8 * 8

/-- R178, R219, R341: `RET <- align()` and normal completion of a coder command. When the host raced the command, `RET`
is part of its unspecified result (U14; log entry 10). -/
def State.retire (s : State) : State :=
  { s with
    work := { s.work with pos := alignUp s.work.pos }
    ret := if s.race.raced then Config.raceRet s.race.draws else BitVec.ofNat 32 (alignUp s.work.pos / 8) }.complete

/-! ### Runs: the pseudocode of a command, which may raise a fault at any point -/

/-- A piece of a command's pseudocode: it went on to its end, or it raised a fault in the state given with it, where
every write made before the fault stands (R330, R346). -/
inductive Run where
  | go (s : State)
  | stop (code : ErrCode) (s : State)

/-- One piece and then another; nothing after a raised fault runs (R10). -/
def Run.bind (r : Run) (f : State → Run) : Run :=
  match r with
  | .go s => f s
  | .stop code s => .stop code s

/-- `for t in 0 .. n-1: body t`. -/
def Run.forUpTo : (n : Nat) → (Nat → State → Run) → State → Run
  | 0, _, s => .go s
  | n + 1, body, s => (Run.forUpTo n body s).bind (body n)

/-- The state when the command's pseudocode has ended: normal completion or fault completion. -/
def Run.settle : Run → State
  | .go s => s.complete
  | .stop code s => s.raise code

/-- R95: a `CMD` write that selects a one-step command. While `BUSY = 1` it is ignored (R41). -/
def runCommand (body : State → Run) (s : State) : Host.Outcome State Fault Refusal :=
  if s.status.busy then .next s else .next (body s.accept).settle

/-! ### Samples -/

/-- `SampRead(a)` (R10, R66): the sample goes to `k`, or `MEM_BOUNDS` is raised. -/
def sampRead (a : Word) (k : Sample → State → Run) (s : State) : Run :=
  if a.toNat < s.cfg.pmSize then k (s.pm.read a.toNat) s else .stop .memBounds s

/-- PM and its log after one write. -/
def State.storeSample (s : State) (a : Word) (v : Sample) : State :=
  { s with pm := s.pm.write a.toNat v, pmLog := s.pmLog.map (fun log => (a.toNat, v) :: log) }

/-- `SampWrite(a, v)` (R10, R66). -/
def sampWrite (a : Word) (v : Sample) (s : State) : Run :=
  if a.toNat < s.cfg.pmSize then .go (s.storeSample a v) else .stop .memBounds s

/-- The address of element `t` of a vector with an element pitch (R290): modulo `2^32` (R66). -/
def elemAddr (base pitch : Word) (t : Nat) : Word := base + BitVec.ofNat 32 t * pitch

/-- Reads elements `0 .. n-1` in order; `none` when one of them lies beyond PM (R66). -/
def State.readVec (s : State) (base pitch : Word) : (n : Nat) → Option (List Sample)
  | 0 => some []
  | n + 1 =>
    match s.readVec base pitch n with
    | none => none
    | some xs =>
      if (elemAddr base pitch n).toNat < s.cfg.pmSize then some (xs ++ [s.pm.read (elemAddr base pitch n).toNat])
      else none

/-- `for t: SampWrite(u32(base + t * pitch), out[t])`, in order. -/
def writeVec (base pitch : Word) (out : List Sample) (s : State) : Run :=
  Run.forUpTo out.length (fun t => sampWrite (elemAddr base pitch t) (out.getD t 0#16)) s

/-- A byte of PM as a byte-wise view of the platform shows it: byte `b` belongs to sample `b / 2`, and
`PM_BYTE_ORDER` says which of its bytes comes first (R68). -/
def State.pmByteView (s : State) (b : Nat) : Byte :=
  let v := s.pm.read (b / 2)
  if (b % 2 == 0) == (s.cfg.pmByteOrder == .little) then v.extractLsb' 0 8 else v.extractLsb' 8 8

/-! ### The bit reader -/

/-- `LIMIT = 8 * (BSEND - BSPTR)` (R25, R96). -/
def State.limit (s : State) : Nat := 8 * (s.regs.bsend.toNat - s.regs.bsptr.toNat)

/-- The values BS byte `a` held during the running command before the host overwrote it. -/
def Race.heldAt (r : Race) (a : Nat) : List Byte := (r.held.filter (fun c => c.1 == a)).map (fun c => c.2)

/-- Is a run codeword due? -/
def Engine.inRun : Engine → Bool
  | .run _ => true
  | .idle | .value _ => false

/-- `MemRead(a, 1)` (R61) as bit `k` of the stream is read: the byte, or, when the host raced it, any of the values it
held during the command (U14; log entry 10). -/
def State.memRead (s : State) (a k : Nat) : Byte :=
  match s.race.heldAt a with
  | [] => s.bs.read a
  | b :: old =>
    let choice := Config.raceByte s.race.draws s.work.i.toNat s.engine.inRun k
    (b :: old).getD (choice % (old.length + 2)) (s.bs.read a)

/-- `bit(k)` (R96): bit `k` of the stream, most significant bit of a byte first; 0 at and beyond the limit, where no
memory is read. -/
def State.bit (s : State) (k : Nat) : Bool :=
  if k < s.limit then (s.memRead (s.regs.bsptr.toNat + k / 8) k).getLsbD (7 - k % 8) else false

/-- The `n` bits from `pos` on. -/
def State.bitsFrom (s : State) (pos n : Nat) : List Bool := (List.range n).map (fun t => s.bit (pos + t))

/-- `peek(n)` (R97). -/
def State.peek (s : State) (n : Nat) : Nat := peekBits n (s.bitsFrom s.work.pos n)

/-- `skip(n)` (R98). -/
def skip (n : Nat) (s : State) : Run :=
  if s.limit < s.work.pos + n then .stop .idBitsExhausted s
  else .go { s with work := { s.work with pos := s.work.pos + n } }

/-- `read(n)` (R99): the value goes to `k`. -/
def readBits (n : Nat) (k : Nat → State → Run) (s : State) : Run := (skip n s).bind (k (s.peek n))

/-- `unary(cap)` (R100): the count, added to `cnt`, goes to `k`. -/
def unary : (cap cnt : Nat) → (Nat → State → Run) → State → Run
  | 0, cnt, k, s => k cnt s
  | cap + 1, cnt, k, s => readBits 1 (fun b s => if b = 0 then k cnt s else unary cap (cnt + 1) k s) s

/-- More bits than any codeword has (R103: at most 23 + 1 + 14). -/
def fetchBits : Nat := 40

/-- The stream bits at the cursor, as many as any codeword needs. -/
def State.window (s : State) : List Bool := s.bitsFrom s.work.pos fetchBits

/-! ### The coefficient store -/

/-- The sample address of the next coefficient (R163). -/
def State.emitAddr (s : State) : Word := s.regs.dst + s.work.row + s.work.j

/-- The cursor registers after one coefficient: row wrap at `WIDTH` (R163). -/
def Work.advance (wk : Work) (width stride : Word) : Work :=
  if wk.j + 1#32 = width then { wk with i := wk.i + 1#32, j := 0#32, row := wk.row + stride }
  else { wk with i := wk.i + 1#32, j := wk.j + 1#32 }

/-- What a coefficient store leaves in its cell: `wrap16(v)`, or, when the host raced the command, an unspecified sample
(U14; log entry 10). -/
def State.coefSample (s : State) (v : Int) : Sample :=
  if s.race.raced then Config.raceSample s.race.draws s.work.i.toNat else BitVec.ofInt 16 v

/-- `emit(v)` (R163): stores `wrap16(v)` and advances the cursor, or raises `MEM_BOUNDS`. -/
def emit (v : Int) (s : State) : Run :=
  (sampWrite s.emitAddr (s.coefSample v) s).bind
    (fun s => .go { s with work := s.work.advance s.regs.width s.regs.stride })

/-- `repeat n times: emit(0)` (R177). -/
def emitZeros (n : Nat) (s : State) : Run := Run.forUpTo n (fun _ => emit 0) s

/-- The address of coefficient number `t` of the running command (R163). -/
def State.coeffAddr (s : State) (t : Nat) : Word :=
  s.regs.dst + BitVec.ofNat 32 (t / s.regs.width.toNat) * s.regs.stride + BitVec.ofNat 32 (t % s.regs.width.toNat)

/-! ### The value of an integer as bytes, for the fetch of a table word -/

/-- Byte `k` (first byte 0) of a bit string of `8 * count` bits, most significant first. -/
def byteOf (count w k : Nat) : Byte := BitVec.ofNat 8 (w / 2 ^ (8 * (count - 1 - k)))

/-- Stores the `count` bytes of `w`, most significant byte first, at `base` and up (R67). -/
def Memory.storeBytes (m : Memory 8) (base count w : Nat) : Memory 8 :=
  (List.range count).foldl (fun m k => m.write (base + k) (byteOf count w k)) m

end Sys2Proof.Machine
end

