-- ==== Sys2Proof/Machine/Operands.lean ====
section
/-! DEFINITION. The operand computations: codeword widths from the registers (R106, R165, R169, R203, R206, R210), the
value mappings (R167, R207), and the 64-bit operand of `FILT1D` (R36). -/

namespace Sys2Proof.Machine

/-- `clz32(x)` for `0 <= x < 2^32` (R9). -/
def clz32 (x : Nat) : Nat := if x = 0 then 32 else 31 - Nat.log2 x

/-- The suffix width of a value codeword: `min(ilog2((state >> 8) + 3), 14)` (R165, R206). -/
def valueWidth (state : Nat) : Nat := min (Nat.log2 (state / 256 + 3)) Config.widthMax

/-- The suffix width of a run codeword: `((state + 8) >> 5) + (state ? clz32(state) : 32) - 24` (R169, R210). -/
def runWidth (state : Nat) : Nat := (state + 8) / 32 + clz32 state - 24

/-- `M = 2^n - 1` (R103). -/
def widthMask (n : Nat) : Nat := 2 ^ n - 1

/-- The register context of the next codeword of the running command (R106); none while the block is idle. -/
def State.ctx (s : State) : Option Ctx :=
  match s.engine with
  | .idle => none
  | .value .low => some { kind := .lowValue, n := valueWidth s.work.state.toNat, nbits := 0 }
  | .run .low => some { kind := .lowRun, n := runWidth s.work.state.toNat, nbits := 0 }
  | .value .high => some { kind := .highValue, n := valueWidth s.work.state.toNat, nbits := s.work.nbits }
  | .run .high => some { kind := .highRun, n := runWidth s.work.state.toNat, nbits := 0 }

/-- The codeword the stream holds at the cursor, read in the context of the running command (R107). -/
def State.fetch (s : State) : Option Instr := s.ctx.map (fun c => decodeCodeword c s.window)

/-- The coefficient of the low variant (R167): odd `x` negative, even `x` non-negative. -/
def lowCoef (x : Nat) : Int := if x % 2 = 1 then -(((x + 1) / 2 : Nat) : Int) else (((x + 1) / 2 : Nat) : Int)

/-- The coefficient of the high variant (R207): `c * ((x + 1) >> 1) + (c >> 1)`, negated for odd `x`; 0 for `x = 0`.
Division by 2 is floor division, also for negative `c`. -/
def highCoef (c : Int) (x : Nat) : Int :=
  if x = 0 then 0
  else
    let tmp := c * (((x + 1) / 2 : Nat) : Int) + c / 2
    if x % 2 = 1 then -tmp else tmp

/-- `t` of R203: `scale` for `scale >= 0`, else `-scale - 1`. -/
def scaleBits (scale : Int) : Nat := (if 0 ≤ scale then scale else -scale - 1).toNat

/-- `nbits` of a `DECHIGH` command from `scale` (R203), with the two rejections in their order (R345). -/
def highWidth (scale : Int) : Except ErrCode Nat :=
  if scale = 0 then .error .idScaleZero
  else if scaleBits scale = 0 then .ok 1
  else if 16 < 33 - clz32 (scaleBits scale) then .error .idNbitsRange
  else .ok (33 - clz32 (scaleBits scale))

/-- The binary64 pattern `FSCALE_HI:FSCALE_LO` (R36). -/
def Regs.fscale (r : Regs) : BitVec 64 := r.fscaleHi ++ r.fscaleLo

end Sys2Proof.Machine
end

