-- ==== Sys2Proof/Machine/Flags.lean ====
section
/-! DEFINITION. The flag computations: the fault codes and the `STATUS` word (R30, R331), the adaptation of `state` and
`flag` (R166, R208), the flag of a run (R177, R218), the zero-run gate (R168, R209). -/

namespace Sys2Proof.Machine

/-- The value of `STATUS.ERR` (R331). -/
def ErrCode.code : ErrCode → BitVec 4
  | .none => 0x0#4
  | .idBitsExhausted => 0x1#4
  | .idRunOverrun => 0x2#4
  | .idRunTooLong => 0x3#4
  | .idNbitsRange => 0x4#4
  | .idScaleZero => 0x5#4
  | .idStateRange => 0x6#4
  | .outOfMemory => 0x8#4
  | .badConfig => 0x9#4
  | .memBounds => 0xA#4
  | .illegalCmd => 0xB#4

/-- The word a read of `STATUS` returns (R30). -/
def Status.word (st : Status) : Word :=
  0#20 ++ st.err.code ++ 0#3 ++ BitVec.ofBool st.lvalid ++ BitVec.ofBool st.sticky ++ BitVec.ofBool st.fault
    ++ BitVec.ofBool st.done ++ BitVec.ofBool st.busy

/-- The exact new value of `state` after a value `x` (R166, R208); `/ 256` is floor division. -/
def adapted (gain : Int) (state x : Nat) : Int := state + gain * x - gain * state / 256

/-- The update of `state` and `flag` after a value (R166, R208), or `ID_STATE_RANGE`. -/
def adapt (gain : Int) (x : Nat) (s : State) : Run :=
  let new := adapted gain s.work.state.toNat x
  if new < 0 ∨ Config.stateMax < new then .stop .idStateRange s
  else .go { s with work := { s.work with state := BitVec.ofInt 32 new, flag := false } }

/-- The update of `state` and `flag` after a run of `rlen` zeros (R177, R218). -/
def afterZeros (rlen : Nat) (s : State) : State :=
  { s with work := { s.work with state := 0#32, flag := decide (rlen < Config.runMax) } }

/-- The zero-run gate (R168, R209): `state * 4 <= 0xFF` and more coefficients remain. -/
def State.gate (s : State) : Bool := s.work.state.toNat * 4 ≤ 0xFF && s.work.i.toNat < s.regs.size.toNat

end Sys2Proof.Machine
end

