-- ==== Sys2Proof/Machine/Coder.lean ====
section
/-! DEFINITION. What the two entropy decoders share: starting a command (R161, R162, R201, R204), the loop between
codewords (R164, R168, R205, R209), executing a run (R177, R218). -/

namespace Sys2Proof.Machine

/-- The loop test before a value step: the next value codeword, or the end of the command (R164, R178, R205, R219). -/
def State.nextValue (v : Variant) (s : State) : State :=
  if s.work.i.toNat < s.regs.size.toNat then { s with engine := .value v } else s.retire

/-- After a value step: the zero-run gate (R168, R209). -/
def State.afterValue (v : Variant) (s : State) : State :=
  if s.gate then { s with engine := .run v } else s.nextValue v

/-- The start checks the two coders share, in order (R161, R201). -/
def coderChecks (s : State) : Run :=
  if s.regs.bsend.toNat < s.regs.bsptr.toNat ∨ s.cfg.bsSize < s.regs.bsend.toNat then .stop .badConfig s
  else if 0 < s.regs.size.toNat ∧ s.regs.width.toNat = 0 then .stop .badConfig s
  else .go s

/-- No racing access so far: a new command starts. -/
def Race.clear (r : Race) : Race := { r with raced := false, held := [] }

/-- The initial values of the working registers (R162, R204). -/
def State.coderInit (s : State) : State :=
  { s with
    race := s.race.clear
    work := { s.work with state := Config.stateInit, flag := false, i := 0#32, j := 0#32, row := 0#32, pos := 0 } }

/-- R95: a `CMD` write that selects a coder command. While `BUSY = 1` it is ignored (R41); otherwise the start checks
and the initialisation run, and the command ends at once or waits for its first codeword. -/
def startCoder (v : Variant) (start : State → Run) (s : State) : Host.Outcome State Fault Refusal :=
  if s.status.busy then .next s
  else
    match start s.accept with
    | .go s => .next (s.nextValue v)
    | .stop code s => .next (s.raise code)

/-- A codeword of `length` bits, executed where its command waits for it: the bits are consumed before any effect (R98,
R332), then `body` runs, then `after` decides what comes next. -/
def execCodeword (at_ : Engine) (length : Nat) (body : State → Run) (after : State → State) (s : State) :
    Host.Outcome State Fault Refusal :=
  if s.engine = at_ then
    match (skip length s).bind body with
    | .go s => .next (after s)
    | .stop code s => .next (s.raise code)
  else .fault .codewordOutOfContext

/-- Executing a run (R177): `ID_RUN_OVERRUN` before any zero is written, then the zeros, then `state` and `flag`. -/
def zeroRun (rlen : Nat) (s : State) : Run :=
  if s.regs.size.toNat < s.work.i.toNat + rlen then .stop .idRunOverrun s
  else (emitZeros rlen s).bind (fun s => .go (afterZeros rlen s))

/-- Executing a run of the high variant (R218): `ID_RUN_TOO_LONG` is tested first. -/
def zeroRunCapped (rlen : Nat) (s : State) : Run :=
  if Config.runMax < rlen then .stop .idRunTooLong s else zeroRun rlen s

/-- The rest of a low value step once its `escape` is known (R166, R167): `x = escape + flag`, store, update. -/
def lowValue (escape : Nat) (s : State) : Run :=
  let x := escape + s.work.flag.toNat
  (emit (lowCoef x) s).bind (adapt Config.lowGain x)

/-- The rest of a high value step once its `cnt1` is known (R207, R208): `x = flag + cnt1`, store, update. -/
def highValue (cnt1 : Nat) (s : State) : Run :=
  let x := s.work.flag.toNat + cnt1
  (emit (highCoef s.regs.hc.toInt x) s).bind (adapt s.regs.hd.toInt x)

end Sys2Proof.Machine
end

