-- ==== Sys2Proof/Machine/EntropyHigh.lean ====
section
/-! DEFINITION. Unit ED, high variant: `DECHIGH` (R200 to R205, R219, R220) and the codewords `HV.*`, `HR.*`. -/

namespace Sys2Proof.Machine

/-- The `scale` checks and the two constants of the command (R203). -/
def highConstants (s : State) : Run :=
  match highWidth s.regs.hscale.toInt with
  | .error code => .stop code s
  | .ok nbits => .go { s with work := { s.work with nbits := nbits, length := Config.highTotal - nbits } }

/-- `DECHIGH` (R200 to R205): start checks, `nbits` and `length`, initialisation, then the loop of codewords. -/
def execDechigh (s : State) : Host.Outcome State Fault Refusal :=
  startCoder .high (fun s => ((coderChecks s).bind highConstants).bind (fun s => .go s.coderInit)) s

/-- `HV.S` (R211): `k + n` bits, `cnt1 = M * k`. -/
def execHvS (k : Nat) (s : State) : Host.Outcome State Fault Refusal :=
  let n := valueWidth s.work.state.toNat
  execCodeword (.value .high) (k + n) (highValue (widthMask n * k)) (State.afterValue .high) s

/-- `HV.L` (R212): `k + 1 + n` bits, `cnt1 = M * k + v - 1`. -/
def execHvL (k v : Nat) (s : State) : Host.Outcome State Fault Refusal :=
  let n := valueWidth s.work.state.toNat
  execCodeword (.value .high) (k + 1 + n) (highValue (widthMask n * k + v - 1)) (State.afterValue .high) s

/-- `HV.X` (R213): `length + nbits` bits, `cnt1 = e`. -/
def execHvX (e : Nat) (s : State) : Host.Outcome State Fault Refusal :=
  execCodeword (.value .high) (s.work.length + s.work.nbits) (highValue e) (State.afterValue .high) s

/-- `HR.S` (R214): `k + n` bits, `rlen = M * k`. -/
def execHrS (k : Nat) (s : State) : Host.Outcome State Fault Refusal :=
  let n := runWidth s.work.state.toNat
  execCodeword (.run .high) (k + n) (zeroRunCapped (widthMask n * k)) (State.nextValue .high) s

/-- `HR.L` (R215): `k + 1 + n` bits, `rlen = v + M * k - 1`. -/
def execHrL (k v : Nat) (s : State) : Host.Outcome State Fault Refusal :=
  let n := runWidth s.work.state.toNat
  execCodeword (.run .high) (k + 1 + n) (zeroRunCapped (v + widthMask n * k - 1)) (State.nextValue .high) s

/-- `HR.X8` (R216): 17 bits, `rlen = u + 8 * M`. -/
def execHrX8 (u : BitVec 8) (s : State) : Host.Outcome State Fault Refusal :=
  let n := runWidth s.work.state.toNat
  execCodeword (.run .high) 17 (zeroRunCapped (u.toNat + 8 * widthMask n)) (State.nextValue .high) s

/-- `HR.X16` (R217): 25 bits, `rlen = u + 8 * M`. -/
def execHrX16 (u : BitVec 16) (s : State) : Host.Outcome State Fault Refusal :=
  let n := runWidth s.work.state.toNat
  execCodeword (.run .high) 25 (zeroRunCapped (u.toNat + 8 * widthMask n)) (State.nextValue .high) s

end Sys2Proof.Machine
end

