-- ==== Sys2Proof/Machine/EntropyLow.lean ====
section
/-! DEFINITION. Unit ED, low variant: `DECLOW` (R160 to R164, R178, R179) and the codewords `LV.*`, `LR.*`. -/

namespace Sys2Proof.Machine

/-- `DECLOW` (R160 to R164): start checks, initialisation, then the loop of codewords. -/
def execDeclow (s : State) : Host.Outcome State Fault Refusal :=
  startCoder .low (fun s => (coderChecks s).bind (fun s => .go s.coderInit)) s

/-- `LV.S` (R171): `k + n` bits, `escape = M * k`. -/
def execLvS (k : Nat) (s : State) : Host.Outcome State Fault Refusal :=
  let n := valueWidth s.work.state.toNat
  execCodeword (.value .low) (k + n) (lowValue (widthMask n * k)) (State.afterValue .low) s

/-- `LV.L` (R172): `k + 1 + n` bits, `escape = v + M * k - 1`. -/
def execLvL (k v : Nat) (s : State) : Host.Outcome State Fault Refusal :=
  let n := valueWidth s.work.state.toNat
  execCodeword (.value .low) (k + 1 + n) (lowValue (v + widthMask n * k - 1)) (State.afterValue .low) s

/-- `LV.X` (R173): 24 bits, `escape = e`. -/
def execLvX (e : BitVec 16) (s : State) : Host.Outcome State Fault Refusal :=
  execCodeword (.value .low) 24 (lowValue e.toNat) (State.afterValue .low) s

/-- `LR.S` (R174): `k + n` bits, `rlen = M * k`. -/
def execLrS (k : Nat) (s : State) : Host.Outcome State Fault Refusal :=
  let n := runWidth s.work.state.toNat
  execCodeword (.run .low) (k + n) (zeroRun (widthMask n * k)) (State.nextValue .low) s

/-- `LR.L` (R175): `k + 1 + n` bits, `rlen = v + M * k - 1`. -/
def execLrL (k v : Nat) (s : State) : Host.Outcome State Fault Refusal :=
  let n := runWidth s.work.state.toNat
  execCodeword (.run .low) (k + 1 + n) (zeroRun (v + widthMask n * k - 1)) (State.nextValue .low) s

/-- `LR.X` (R176): 24 bits, `rlen = r` with no offset. -/
def execLrX (r : BitVec 16) (s : State) : Host.Outcome State Fault Refusal :=
  execCodeword (.run .low) 24 (zeroRun r.toNat) (State.nextValue .low) s

end Sys2Proof.Machine
end

