-- ==== Sys2Proof/Machine/Layout.lean ====
section
/-! DEFINITION. Unit SL: the command `LAYOUT` (R140 to R147). -/

namespace Sys2Proof.Machine

/-- A band of `bw x bh` samples at `(x, y)`, with its size (R146). -/
def Band.ofRect (bw bh x y : Word) : Band where
  width := bw
  height := bh
  size := bw * bh
  x := x
  y := y

/-- The detail bands at shift `sh = 4 - k` of a `w x h` plane (R144, R145): HL to the right, LH below, HH diagonal. -/
def Details.ofPlane (w h : Word) (sh : Nat) : Details where
  hl := Band.ofRect (w >>> sh) (h >>> sh) (w >>> sh) 0#32
  lh := Band.ofRect (w >>> sh) (h >>> sh) 0#32 (h >>> sh)
  hh := Band.ofRect (w >>> sh) (h >>> sh) (w >>> sh) (h >>> sh)

/-- The thirteen bands of a `w x h` plane (R143 to R146). -/
def BandTable.ofPlane (w h : Word) : BandTable where
  low := Band.ofRect (w >>> 4) (h >>> 4) 0#32 0#32
  detail :=
    { k0 := Details.ofPlane w h 4, k1 := Details.ofPlane w h 3, k2 := Details.ofPlane w h 2, k3 := Details.ofPlane w h 1 }

/-- `BAND[p][b]` by its index `b = 0..12` (R47, R144): group `(b - 1) div 3`, position `((b - 1) mod 3) + 1`. -/
def BandTable.get (t : BandTable) (b : Nat) : Band :=
  if b = 0 then t.low
  else
    let d := t.detail.get ((b - 1) / 3)
    match (b - 1) % 3 with
    | 0 => d.hl
    | 1 => d.lh
    | _ => d.hh

/-- The dimension of a plane from that of the frame (R142): full for plane 0, half for planes 1 and 2. -/
def planeDims (d : Word) : Tri Word where
  p0 := d
  p1 := d >>> 1
  p2 := d >>> 1

/-- The BAND table of a `w x h` frame (R147). -/
def frameBands (w h : Word) : Tri BandTable where
  p0 := BandTable.ofPlane w h
  p1 := BandTable.ofPlane (w >>> 1) (h >>> 1)
  p2 := BandTable.ofPlane (w >>> 1) (h >>> 1)

/-- Sets `LVALID` (R39). -/
def State.setLvalid (s : State) (b : Bool) : State := { s with status := { s.status with lvalid := b } }

/-- The pseudocode of `LAYOUT` (R141, R147). -/
def layoutBody (s : State) : Run :=
  let w := s.regs.w
  let h := s.regs.h
  if w.toNat = 0 ∨ h.toNat = 0 ∨ w.toNat % 32 ≠ 0 ∨ h.toNat % 32 ≠ 0 then .stop .badConfig (s.setLvalid false)
  else if s.cfg.maxDim < w.toNat ∨ s.cfg.maxDim < h.toNat then .stop .outOfMemory (s.setLvalid false)
  else .go ({ s with pw := planeDims w, ph := planeDims h, band := frameBands w h }.setLvalid true)

/-- `LAYOUT` (R140 to R147). -/
def execLayout (s : State) : Host.Outcome State Fault Refusal := runCommand layoutBody s

end Sys2Proof.Machine
end

