-- ==== Sys2Proof/Machine/Predict.lean ====
section
/-! DEFINITION. Unit LP: the command `PREDICT` (R270 to R273). -/

namespace Sys2Proof.Machine

/-- `pred[j] <- v` (R49). -/
def State.setPred (s : State) (j : Nat) (v : Sample) : State :=
  { s with scratch := { s.scratch with pred := s.scratch.pred.set j v } }

/-- `pred[j]` (R49). -/
def State.predAt (s : State) (j : Nat) : Sample := s.scratch.pred.getD j 0#16

/-- Column 0 of a row at address `a` (R272): `pred[0]` holds the finished sample. Sums wrap at 16 bits (R273). -/
def predictFirst (a : Word) (s : State) : Run :=
  sampRead a (fun old s =>
    let v := s.predAt 0 + old
    (sampWrite a v s).bind (fun s => .go (s.setPred 0 v))) s

/-- Column `j >= 1` of a row at address `a` (R272): the column sum is written and kept in `pred[j]`, then the finished
left neighbour is added. -/
def predictNext (a : Word) (j : Nat) (s : State) : Run :=
  sampRead (a + BitVec.ofNat 32 j) (fun old s =>
    let v := s.predAt j + old
    (sampWrite (a + BitVec.ofNat 32 j) v s).bind (fun s =>
      sampRead (a + BitVec.ofNat 32 j - 1#32) (fun left s => sampWrite (a + BitVec.ofNat 32 j) (v + left) s)
        (s.setPred j v))) s

/-- Row `r` (R272). -/
def predictRow (r : Nat) (s : State) : Run :=
  let a := elemAddr s.regs.dst s.regs.stride r
  (predictFirst a s).bind (Run.forUpTo (s.regs.width.toNat - 1) (fun t => predictNext a (t + 1)))

/-- The pseudocode of `PREDICT` (R271, R272). -/
def predictBody (s : State) : Run :=
  if s.cfg.maxDim < s.regs.width.toNat then .stop .outOfMemory s
  else if s.regs.width.toNat = 0 ∨ s.regs.height.toNat = 0 then .go s
  else
    Run.forUpTo s.regs.height.toNat predictRow
      { s with scratch := { s.scratch with pred := List.replicate s.regs.width.toNat 0#16 } }

/-- `PREDICT` (R270 to R273). -/
def execPredict (s : State) : Host.Outcome State Fault Refusal := runCommand predictBody s

end Sys2Proof.Machine
end

