-- ==== Sys2Proof/Machine/Numerics.lean ====
section
/-! DEFINITION. The filter numerics `FN_F64` (R11, R295, R296): binary64 values as integers times powers of two, exactly. -/

namespace Sys2Proof.Machine

/-- The real number `mant * 2^exp`. -/
structure BinValue where
  mant : Int
  exp : Int
  deriving DecidableEq, Repr

/-- A binary64 result: a finite number or an infinity. -/
inductive F64 where
  | num (x : BinValue)
  | inf (negative : Bool)
  deriving DecidableEq, Repr

/-- Neither a NaN nor an infinity (R291, R302). -/
def f64Finite (p : BitVec 64) : Bool := p.extractLsb' 52 11 != 0x7FF#11

/-- The value of a finite binary64 pattern (R11), subnormals included. -/
def f64Value (p : BitVec 64) : BinValue :=
  let frac := (p.extractLsb' 0 52).toNat
  let ex := (p.extractLsb' 52 11).toNat
  let mag : Nat := if ex = 0 then frac else 2 ^ 52 + frac
  { mant := if p.getLsbD 63 then -(mag : Int) else mag, exp := (if ex = 0 then 1 else ex : Int) - 1075 }

/-- The number of bits of a natural number. -/
def bitCount (a : Nat) : Nat := if a = 0 then 0 else Nat.log2 a + 1

/-- `a / 2^d` rounded to the nearest integer, ties to even. -/
def roundEven (a d : Nat) : Nat :=
  let q := a / 2 ^ d
  let r := a % 2 ^ d
  if 2 ^ d < 2 * r ∨ (2 * r = 2 ^ d ∧ q % 2 = 1) then q + 1 else q

/-- How many low bits binary64 drops from a magnitude `a * 2^exp`: down to 53 significant bits, and no bit below
`2^-1074`. -/
def droppedBits (a : Nat) (exp : Int) : Nat := max (bitCount a - 53) (-1074 - exp).toNat

/-- `RNE64` (R11): the nearest binary64 number, ties to even, an infinity on overflow. -/
def rne64 (x : BinValue) : F64 :=
  let d := droppedBits x.mant.natAbs x.exp
  let q := roundEven x.mant.natAbs d
  let e := x.exp + d
  if 1024 < bitCount q + e ∧ q ≠ 0 then .inf (decide (x.mant < 0))
  else .num { mant := if x.mant < 0 then -(q : Int) else q, exp := e }

/-- `k < x` for an integer `k`. -/
def BinValue.above (x : BinValue) (k : Int) : Bool :=
  if 0 ≤ x.exp then k < x.mant * 2 ^ x.exp.toNat else k * 2 ^ (-x.exp).toNat < x.mant

/-- `x < k` for an integer `k`. -/
def BinValue.below (x : BinValue) (k : Int) : Bool :=
  if 0 ≤ x.exp then x.mant * 2 ^ x.exp.toNat < k else x.mant < k * 2 ^ (-x.exp).toNat

/-- An integer as a value. -/
def BinValue.ofInt (k : Int) : BinValue where
  mant := k
  exp := 0

/-- `clip16` on a binary64 number (R9, R295); an infinity clips to the matching bound (U13). -/
def clip16 : F64 → BinValue
  | .inf negative => BinValue.ofInt (if negative then -32768 else 32767)
  | .num x => if x.above 32767 then BinValue.ofInt 32767 else if x.below (-32768) then BinValue.ofInt (-32768) else x

/-- `trunc` (R11): toward zero. -/
def BinValue.trunc (x : BinValue) : Int :=
  if 0 ≤ x.exp then x.mant * 2 ^ x.exp.toNat else x.mant.tdiv (2 ^ (-x.exp).toNat)

/-- `trunc(clip16(RNE64(SCALE * e)))` for a kernel sum `e / 2^28` (R296). -/
def scaleNarrow (scale : BitVec 64) (e : Int) : Sample :=
  let m := f64Value scale
  BitVec.ofInt 16 (clip16 (rne64 { mant := m.mant * e, exp := m.exp - Config.filterDenomBits })).trunc

/-- `E(i) * 2^28` from `low[i-1], low[i], low[i+1], high[i-1], high[i]` (R294), exact (R296). -/
def kernelEven (lm l0 lp hm h0 : Int) : Int :=
  -Config.ke1 * (lm + lp) + Config.ke0 * l0 + Config.keh * (hm + h0)

/-- `O(i) * 2^28` from `low[i-1], low[i], low[i+1], low[i+2], high[i-1], high[i], high[i+1]` (R294), exact (R296). -/
def kernelOdd (lm l0 lp lq hm h0 hp : Int) : Int :=
  -Config.ko2 * (lm + lq) + Config.ko1 * (l0 + lp) + Config.koh1 * (hm + hp) - Config.koh0 * h0

end Sys2Proof.Machine
end

