-- ==== Sys2Proof/Machine/Wavelet.lean ====
section
/-! DEFINITION. Unit IW: the commands `FILT1D` (R290 to R298) and `IDWT` (R300 to R302). -/

namespace Sys2Proof.Machine

/-- The padded `low` from index -1 to `half + 1` (R292): `low[-1] = low[0]`, `low[half] = low[half-1]`,
`low[half+1] = low[half-2]`, folded to `low[0]` for `half = 1`. -/
def padLow (low : List Sample) : List Sample :=
  let half := low.length
  low.getD 0 0#16 :: low ++ [low.getD (half - 1) 0#16, low.getD (half - 2) 0#16]

/-- The padded `high` from index -1 to `half` (R292): `high[-1] = high[0]` and `HIGH_RPAD`, `high[half] = high[half-2]`,
folded to `high[0]` for `half = 1` (R6, log entry 13). -/
def padHigh (high : List Sample) : List Sample :=
  high.getD 0 0#16 :: high ++ [high.getD (high.length - 2) 0#16]

/-- Cell `t - 1` of a padded array, as an integer. -/
def padAt (xs : List Sample) (t : Nat) : Int := (xs.getD t 0#16).toInt

/-- The even output `out[2i]` (R294, R298) from the padded arrays. -/
def evenOut (scale : BitVec 64) (low high : List Sample) (i : Nat) : Sample :=
  scaleNarrow scale (kernelEven (padAt low i) (padAt low (i + 1)) (padAt low (i + 2)) (padAt high i) (padAt high (i + 1)))

/-- The odd output `out[2i+1]` (R294, R298) from the padded arrays. -/
def oddOut (scale : BitVec 64) (low high : List Sample) (i : Nat) : Sample :=
  scaleNarrow scale
    (kernelOdd (padAt low i) (padAt low (i + 1)) (padAt low (i + 2)) (padAt low (i + 3)) (padAt high i) (padAt high (i + 1))
      (padAt high (i + 2)))

/-- All outputs, interleaved (R298). -/
def synthesis (scale : BitVec 64) (half : Nat) (low high : List Sample) : List Sample :=
  (List.range half).flatMap (fun i => [evenOut scale low high i, oddOut scale low high i])

/-- Lines 2 to the end of R298: read all, pad, compute, write all. Every read precedes every write. -/
def filterCells (base : Word) (n : Nat) (pitch : Word) (scale : BitVec 64) (s : State) : Run :=
  match s.readVec base pitch n with
  | none => .stop .memBounds s
  | some xs =>
    let low := padLow (xs.take (n / 2))
    let high := padHigh (xs.drop (n / 2))
    writeVec base pitch (synthesis scale (n / 2) low high) { s with scratch := { s.scratch with low := low, high := high } }

/-- The pseudocode of `FILT1D` (R291, R298). -/
def filt1dBody (s : State) : Run :=
  let n := s.regs.size.toNat
  if n < 2 ∨ n % 2 = 1 then .stop .badConfig s
  else if s.cfg.maxDim < n then .stop .outOfMemory s
  else if f64Finite s.regs.fscale = false then .stop .badConfig s
  else filterCells s.regs.dst n s.regs.stride s.regs.fscale s

/-- `FILT1D` (R290 to R298). -/
def execFilt1d (s : State) : Host.Outcome State Fault Refusal := runCommand filt1dBody s

/-- Are all four scales finite? -/
def Quad.finite (q : Quad (BitVec 64)) : Bool := f64Finite q.k0 && f64Finite q.k1 && f64Finite q.k2 && f64Finite q.k3

/-- The block size of level `k` in one direction: `(d >> 4) * 2^(k+1)` (R300, R301). -/
def levelSize (d : Word) (k : Nat) : Nat := d.toNat / 16 * 2 ^ (k + 1)

/-- The row pass of level `k` (R301): rows top to bottom, with the scale `SCALE[p][V][k]`. -/
def idwtRows (p : Plane) (k : Nat) (s : State) : Run :=
  Run.forUpTo (levelSize (s.ph.get p) k)
    (fun r s => filterCells (elemAddr (s.regs.pbase.get p) (s.regs.pstride.get p) r) (levelSize (s.pw.get p) k) 1#32
      ((s.scale.get p).ver.get k) s) s

/-- The column pass of level `k` (R301): columns left to right, with the scale `SCALE[p][H][k]`. -/
def idwtCols (p : Plane) (k : Nat) (s : State) : Run :=
  Run.forUpTo (levelSize (s.pw.get p) k)
    (fun x s => filterCells (elemAddr (s.regs.pbase.get p) 1#32 x) (levelSize (s.ph.get p) k) (s.regs.pstride.get p)
      ((s.scale.get p).hor.get k) s) s

/-- The pseudocode of `IDWT p` (R301, R302): four levels, rows before columns. -/
def idwtBody (p : Plane) (s : State) : Run :=
  if s.status.lvalid = false then .stop .badConfig s
  else if ((s.scale.get p).hor.finite && (s.scale.get p).ver.finite) = false then .stop .badConfig s
  else Run.forUpTo 4 (fun k s => (idwtRows p k s).bind (idwtCols p k)) s

/-- `IDWT p` (R300 to R302). -/
def execIdwt (p : Plane) (s : State) : Host.Outcome State Fault Refusal := runCommand (idwtBody p) s

end Sys2Proof.Machine
end

