-- ==== Sys2Proof/Machine/Dispatch.lean ====
section
/-! DEFINITION. The dispatch: one arm per instruction. -/

namespace Sys2Proof.Machine

def exec (i : Instr) (s : State) : Host.Outcome State Fault Refusal :=
  match i with
  | .layout => Sys2Proof.Machine.execLayout s
  | .declow => Sys2Proof.Machine.execDeclow s
  | .dechigh => Sys2Proof.Machine.execDechigh s
  | .predict => Sys2Proof.Machine.execPredict s
  | .filt1d => Sys2Proof.Machine.execFilt1d s
  | .idwt p => Sys2Proof.Machine.execIdwt p s
  | .lvS k => Sys2Proof.Machine.execLvS k s
  | .lvL k v => Sys2Proof.Machine.execLvL k v s
  | .lvX e => Sys2Proof.Machine.execLvX e s
  | .lrS k => Sys2Proof.Machine.execLrS k s
  | .lrL k v => Sys2Proof.Machine.execLrL k v s
  | .lrX r => Sys2Proof.Machine.execLrX r s
  | .hvS k => Sys2Proof.Machine.execHvS k s
  | .hvL k v => Sys2Proof.Machine.execHvL k v s
  | .hvX e => Sys2Proof.Machine.execHvX e s
  | .hrS k => Sys2Proof.Machine.execHrS k s
  | .hrL k v => Sys2Proof.Machine.execHrL k v s
  | .hrX8 u => Sys2Proof.Machine.execHrX8 u s
  | .hrX16 u => Sys2Proof.Machine.execHrX16 u s

end Sys2Proof.Machine
end

