-- ==== Sys2Proof/Machine/HostPort.lean ====
section
/-! DEFINITION. What the host does to the block between two of its steps: the register map (R28, R29), the memories
(R61, R62, R75), reset (R370, R371); and the block's own step (R107, R372). -/

namespace Sys2Proof.Machine

/-! ### The register map (R29) -/

/-- The word of `SCALE` at byte offset `o` from 0x100: entry `n = o / 8`, `n = (2p + dir) * 4 + k`, low word first. -/
def State.scaleWord (s : State) (o : Nat) : Word :=
  let n := o / 8
  let set := if n / 8 = 0 then s.scale.p0 else if n / 8 = 1 then s.scale.p1 else s.scale.p2
  let quad := if n / 4 % 2 = 0 then set.hor else set.ver
  if o / 4 % 2 = 0 then (quad.get (n % 4)).extractLsb' 0 32 else (quad.get (n % 4)).extractLsb' 32 32

/-- Replaces one half of a 64-bit pattern. -/
def putHalf (x : BitVec 64) (high : Bool) (v : Word) : BitVec 64 :=
  if high then v ++ x.extractLsb' 0 32 else x.extractLsb' 32 32 ++ v

/-- Writes the word of `SCALE` at byte offset `o` from 0x100. -/
def State.setScaleWord (s : State) (o : Nat) (v : Word) : State :=
  let n := o / 8
  let p : Plane := if n / 8 = 0 then .y else if n / 8 = 1 then .u else .v
  let set := s.scale.get p
  let put (q : Quad (BitVec 64)) := q.set (n % 4) (putHalf (q.get (n % 4)) (o / 4 % 2 == 1) v)
  { s with
    scale := s.scale.set p (if n / 4 % 2 = 0 then { set with hor := put set.hor } else { set with ver := put set.ver }) }

/-- Field `f` of a BAND entry; words 5 to 7 read 0 (R47). -/
def Band.field (b : Band) : Nat → Word
  | 0 => b.width
  | 1 => b.height
  | 2 => b.size
  | 3 => b.x
  | 4 => b.y
  | _ => 0#32

/-- The word of `BAND` at byte offset `o` from 0x400: entry `e = o / 32`, `e = 13p + b`, field `(o / 4) mod 8`. -/
def State.bandWord (s : State) (o : Nat) : Word :=
  let e := o / 32
  let table := if e / 13 = 0 then s.band.p0 else if e / 13 = 1 then s.band.p1 else s.band.p2
  (table.get (e % 13)).field (o / 4 % 8)

/-- A read of the register at byte offset `off` (R28, R29): `CMD` reads 0, unlisted offsets read 0. -/
def State.regRead (s : State) (off : Nat) : Word :=
  if off = 0x004 then s.status.word
  else if off = 0x008 then s.ret
  else if off = 0x010 then s.regs.bsptr
  else if off = 0x014 then s.regs.bsend
  else if off = 0x018 then s.regs.dst
  else if off = 0x01C then s.regs.size
  else if off = 0x020 then s.regs.width
  else if off = 0x024 then s.regs.height
  else if off = 0x028 then s.regs.stride
  else if off = 0x02C then s.regs.hc
  else if off = 0x030 then s.regs.hscale
  else if off = 0x034 then s.regs.hd
  else if off = 0x038 then s.regs.fscaleLo
  else if off = 0x03C then s.regs.fscaleHi
  else if off = 0x040 then s.regs.w
  else if off = 0x044 then s.regs.h
  else if off = 0x048 then s.regs.pbase.p0
  else if off = 0x04C then s.regs.pbase.p1
  else if off = 0x050 then s.regs.pbase.p2
  else if off = 0x054 then s.regs.pstride.p0
  else if off = 0x058 then s.regs.pstride.p1
  else if off = 0x05C then s.regs.pstride.p2
  else if off = 0x060 then s.pw.p0
  else if off = 0x064 then s.ph.p0
  else if off = 0x068 then s.pw.p1
  else if off = 0x06C then s.ph.p1
  else if off = 0x070 then s.pw.p2
  else if off = 0x074 then s.ph.p2
  else if 0x100 ≤ off ∧ off < 0x1C0 then s.scaleWord (off - 0x100)
  else if 0x400 ≤ off ∧ off < 0x8E0 then s.bandWord (off - 0x400)
  else 0#32

/-- Replaces the operand registers. -/
def State.withRegs (s : State) (r : Regs) : State := { s with regs := r }

/-- A write of the register at byte offset `off`, `CMD` apart (R28, R29): read-only and unlisted offsets ignore it; a
write of `W` or `H` clears `LVALID` (R39). -/
def State.regWrite (s : State) (off : Nat) (v : Word) : State :=
  if off = 0x010 then s.withRegs { s.regs with bsptr := v }
  else if off = 0x014 then s.withRegs { s.regs with bsend := v }
  else if off = 0x018 then s.withRegs { s.regs with dst := v }
  else if off = 0x01C then s.withRegs { s.regs with size := v }
  else if off = 0x020 then s.withRegs { s.regs with width := v }
  else if off = 0x024 then s.withRegs { s.regs with height := v }
  else if off = 0x028 then s.withRegs { s.regs with stride := v }
  else if off = 0x02C then s.withRegs { s.regs with hc := v }
  else if off = 0x030 then s.withRegs { s.regs with hscale := v }
  else if off = 0x034 then s.withRegs { s.regs with hd := v }
  else if off = 0x038 then s.withRegs { s.regs with fscaleLo := v }
  else if off = 0x03C then s.withRegs { s.regs with fscaleHi := v }
  else if off = 0x040 then (s.withRegs { s.regs with w := v }).setLvalid false
  else if off = 0x044 then (s.withRegs { s.regs with h := v }).setLvalid false
  else if off = 0x048 then s.withRegs { s.regs with pbase := { s.regs.pbase with p0 := v } }
  else if off = 0x04C then s.withRegs { s.regs with pbase := { s.regs.pbase with p1 := v } }
  else if off = 0x050 then s.withRegs { s.regs with pbase := { s.regs.pbase with p2 := v } }
  else if off = 0x054 then s.withRegs { s.regs with pstride := { s.regs.pstride with p0 := v } }
  else if off = 0x058 then s.withRegs { s.regs with pstride := { s.regs.pstride with p1 := v } }
  else if off = 0x05C then s.withRegs { s.regs with pstride := { s.regs.pstride with p2 := v } }
  else if 0x100 ≤ off ∧ off < 0x1C0 then s.setScaleWord (off - 0x100) v
  else s

/-! ### Commands -/

/-- R94, R95: a word written to `CMD`. While `BUSY = 1` it is ignored; a word that selects no command is accepted and
ends at once with `ILLEGAL_CMD` (R343). -/
def execCommandWord (w : Word) (s : State) : Host.Outcome State Fault Refusal :=
  match decodeCommand w with
  | .ok i => exec i s
  | .error _ => if s.status.busy then .next s else .next (s.accept.raise .illegalCmd)

/-! ### Host accesses -/

/-- The byte offset in the register block that a bus address means (R28). The spec says only that the platform chooses the
base (R6): the width of 32 bits and the difference modulo `2^32`, by which an address below the base is an offset that R29
does not list unless the block wraps past the top, are a DESIGN CHOICE, unsafe (log entry 21). -/
def State.offset (s : State) (addr : Word) : Nat := (addr - s.cfg.regBase).toNat

/-- A host write of the register block (R28): aligned only; ignored while `BUSY = 1`; `CMD` is a doorbell (R41). -/
def hostRegWrite (addr v : Word) (s : State) : Host.Outcome State Fault Refusal :=
  if s.offset addr % 4 ≠ 0 then .refused .unalignedRegisterAccess
  else if s.offset addr = 0 then execCommandWord v s
  else if s.status.busy then .next s
  else .next (s.regWrite (s.offset addr) v)

/-- A host read of the register block (R28): aligned only, always allowed, no side effect on the block (R72). -/
def hostRegRead (addr : Word) (s : State) : Host.Outcome State Fault Refusal :=
  if s.offset addr % 4 ≠ 0 then .refused .unalignedRegisterAccess
  else .next { s with rdata := s.regRead (s.offset addr) }

/-- The BS bytes a running command may read (R61, R75). -/
def State.usesByte (s : State) (a : Nat) : Bool := s.status.busy && s.regs.bsptr.toNat ≤ a && a < s.regs.bsend.toNat

/-- The PM cells a running command may write: the `SIZE` destination cells (R63, R75). Only a coder command runs for
more than one step. -/
def State.usesCell (s : State) (a : Nat) : Bool :=
  s.status.busy && (List.range s.regs.size.toNat).any (fun t => (s.coeffAddr t).toNat == a)

/-- The host has written memory that the running command uses (R75, U14; log entry 10): the command's destination cells
hold unspecified samples, and what it still stores is unspecified too. -/
def State.raceWrite (s : State) : State :=
  { s with
    pm := (List.range s.regs.size.toNat).foldl
      (fun m t =>
        if (s.coeffAddr t).toNat < s.cfg.pmSize then
          m.write (s.coeffAddr t).toNat (Config.raceSample (s.race.draws + 1) t)
        else m) s.pm
    race := { s.race with raced := true, draws := s.race.draws + 2 } }

/-- The BS byte `a` is about to be overwritten: the running command may still see the value it holds. -/
def State.holdByte (s : State) (a : Nat) : State :=
  { s with race := { s.race with held := (a, s.bs.read a) :: s.race.held } }

/-- A host write of one byte of BS (R61, R75). -/
def hostBsWrite (addr : Word) (v : Byte) (s : State) : Host.Outcome State Fault Refusal :=
  if s.cfg.bsSize ≤ addr.toNat then .fault .hostOutsideMemory
  else
    let s := if s.usesByte addr.toNat then (s.raceWrite).holdByte addr.toNat else s
    .next { s with bs := s.bs.write addr.toNat v }

/-- A host read of one byte of BS (R241; log entry 19). The block never writes BS, so no such read races it. -/
def hostBsRead (addr : Word) (s : State) : Host.Outcome State Fault Refusal :=
  if s.cfg.bsSize ≤ addr.toNat then .fault .hostOutsideMemory
  else .next { s with rdata := (s.bs.read addr.toNat).zeroExtend 32 }

/-- A host write of one sample of PM (R62, R75). A racing one leaves the cell unspecified, as one of the command's
destination cells. -/
def hostPmWrite (addr : Word) (v : Sample) (s : State) : Host.Outcome State Fault Refusal :=
  if s.cfg.pmSize ≤ addr.toNat then .fault .hostOutsideMemory
  else if s.usesCell addr.toNat then .next s.raceWrite
  else .next { s with pm := s.pm.write addr.toNat v }

/-- A host read of one sample of PM (R62, R72, R75). A racing one returns an unspecified sample. -/
def hostPmRead (addr : Word) (s : State) : Host.Outcome State Fault Refusal :=
  if s.cfg.pmSize ≤ addr.toNat then .fault .hostOutsideMemory
  else if s.usesCell addr.toNat then
    .next { s with
      rdata := (Config.raceSample (s.race.draws + 1) 0).zeroExtend 32
      race := { s.race with draws := s.race.draws + 2 } }
  else .next { s with rdata := (s.pm.read addr.toNat).zeroExtend 32 }

/-- Reset (R371): every register and table as in `State.reset`, a running command abandoned; both memories, the
configuration, what belongs to the host and the counter of free values stay (log entries 10, 18). -/
def State.resetBlock (s : State) : State :=
  { State.reset with
    cfg := s.cfg, bs := s.bs, pm := s.pm, host := s.host, rdata := s.rdata, race := s.race.clear }

/-- Reset while the block does `work` (R370, R371; log entry 20): of its PM writes the first `writes` are made and stay
made, the others are not made, and nothing else of it is left. -/
def resetDuring (writes : Nat) (work : State → Host.Outcome State Fault Refusal) (s : State) :
    Host.Outcome State Fault Refusal :=
  match work { s with pmLog := some [] } with
  | .next t => .next { s.resetBlock with pm := s.pm.replay ((t.pmLog.getD []).reverse.take writes) }
  | .fault f => .fault f
  | .refused r => .refused r

/-! ### The block's own step -/

/-- One unit of the block's work: the codeword at the cursor of a running coder command (R107), or nothing while it is
idle (R372; log entry 16). -/
def blockStep (s : State) : Host.Outcome State Fault Refusal :=
  match s.fetch with
  | some i => exec i s
  | none => .next s

/-- One host action, already taken off the list in `s`. -/
def hostStep (op : HostOp) (s : State) : Host.Outcome State Fault Refusal :=
  match op with
  | .wr addr v => hostRegWrite addr v s
  | .rd addr => hostRegRead addr s
  | .bsWrite addr v => hostBsWrite addr v s
  | .bsRead addr => hostBsRead addr s
  | .pmWrite addr v => hostPmWrite addr v s
  | .pmRead addr => hostPmRead addr s
  | .reset => .next s.resetBlock
  | .cmdThenReset word writes => resetDuring writes (execCommandWord word) s
  | .tickThenReset writes => resetDuring writes blockStep s
  | .wait => if s.status.busy then blockStep { s with host := .wait :: s.host } else .next s
  | .tick => blockStep s

end Sys2Proof.Machine
end

