-- ==== Sys2Proof/Machine/Step.lean ====
section
/-! DEFINITION. One step of the machine: the host's next pending action, or a unit of the block's own work when none is
pending (log entries 6 and 7). -/

namespace Sys2Proof.Machine

/-- One step. -/
def step (s : State) : Host.Outcome State Fault Refusal :=
  match s.host with
  | [] => blockStep s
  | op :: rest => hostStep op { s with host := rest }

/-- The state in which the very next step runs the table word `w`. A 32-bit row: the block is idle and the host's next
action writes `w` to `CMD`. Any other width: a `DECLOW` waits for its first codeword, and the bytes of `w` are its
stream (log entry 8). -/
def State.withFetchWord (s : State) (nbits w : Nat) : State :=
  if nbits = 32 then
    { s with
      status := { s.status with busy := false }
      engine := .idle
      host := .wr s.cfg.regBase (BitVec.ofNat 32 w) :: s.host }
  else
    { s with
      status := { s.status with busy := true, done := false, fault := false, err := .none }
      engine := .value .low
      regs :=
        { s.regs with
          bsptr := 0#32
          bsend := BitVec.ofNat 32 ((nbits + 7) / 8)
          size := if s.regs.size = 0#32 then 1#32 else s.regs.size
          width := if s.regs.width = 0#32 then 1#32 else s.regs.width }
      work :=
        { s.work with state := Config.stateInit, flag := false, i := 0#32, j := 0#32, row := 0#32, pos := 0 }
      race := s.race.clear
      bs := s.bs.storeBytes 0 ((nbits + 7) / 8) (w * 2 ^ ((nbits + 7) / 8 * 8 - nbits))
      host := .tick :: s.host }

end Sys2Proof.Machine
end

