-- ==== Sys2Proof/Safety.lean ====
section
/-! DEFINITION. The terms the claims use: the invariants of the machine, what an instruction changes and leaves alone,
the reading of a codeword with the bit reader, and reference forms of the filter and of `IDWT`. -/

namespace Sys2Proof.Machine

/-! ### Invariants -/

/-- Both memories are in canonical form and list no cell that does not exist (R61, R62), and between two steps no PM
writes are being counted (log entry 20). -/
def State.memInv (s : State) : Prop :=
  s.bs.wf = true ∧ s.bs.within s.cfg.bsSize = true ∧ s.pm.wf = true ∧ s.pm.within s.cfg.pmSize = true ∧ s.pmLog = none

/-- `STATUS` (R30): `BUSY` exactly while a command runs, at most one of `BUSY`, `DONE`, `FAULT`, `ERR` nonzero exactly
with `FAULT`, and `STICKY` whenever `FAULT`. -/
def State.statusInv (s : State) : Prop :=
  (s.status.busy = true ↔ s.engine ≠ .idle) ∧
  ¬(s.status.busy = true ∧ s.status.done = true) ∧
  ¬(s.status.busy = true ∧ s.status.fault = true) ∧
  ¬(s.status.done = true ∧ s.status.fault = true) ∧
  (s.status.fault = true ↔ s.status.err ≠ .none) ∧
  (s.status.fault = true → s.status.sticky = true)

/-- The largest value `state` takes in a `DECLOW` run (R166, R180). -/
def lowStateBound : Nat := 33552387

/-- The bounds and the cursor equations of a running coder command (R21 to R26, R32, R163, R180, R221). -/
def State.coderInv (s : State) : Prop :=
  s.engine ≠ .idle →
    s.regs.bsptr.toNat ≤ s.regs.bsend.toNat ∧ s.regs.bsend.toNat ≤ s.cfg.bsSize ∧
    s.work.pos ≤ s.limit ∧
    0 < s.regs.width.toNat ∧
    s.work.i.toNat < s.regs.size.toNat ∧
    s.work.j.toNat = s.work.i.toNat % s.regs.width.toNat ∧
    s.work.row = BitVec.ofNat 32 (s.work.i.toNat / s.regs.width.toNat) * s.regs.stride ∧
    (s.work.state.toNat : Int) ≤ Config.stateMax ∧
    ((∃ v, s.engine = .run v) → s.work.state.toNat * 4 ≤ 0xFF) ∧
    (s.engine = .value .low ∨ s.engine = .run .low → s.work.state.toNat ≤ lowStateBound) ∧
    (s.engine = .value .high ∨ s.engine = .run .high →
      1 ≤ s.work.nbits ∧ s.work.nbits ≤ 16 ∧ s.work.length = 25 - s.work.nbits ∧
      highWidth s.regs.hscale.toInt = .ok s.work.nbits)

/-- While `LVALID = 1` the plane dimensions and the BAND table are those of the current `W`, `H`, which are legal (R39,
R40, R47, R141). -/
def State.layoutInv (s : State) : Prop :=
  s.status.lvalid = true →
    0 < s.regs.w.toNat ∧ 0 < s.regs.h.toNat ∧ s.regs.w.toNat % 32 = 0 ∧ s.regs.h.toNat % 32 = 0 ∧
    s.regs.w.toNat ≤ s.cfg.maxDim ∧ s.regs.h.toNat ≤ s.cfg.maxDim ∧
    s.pw = planeDims s.regs.w ∧ s.ph = planeDims s.regs.h ∧ s.band = frameBands s.regs.w s.regs.h

/-- Everything that holds of every state a run from reset reaches. -/
def State.Inv (s : State) : Prop :=
  s.cfg.wf = true ∧ s.memInv ∧ s.statusInv ∧ s.coderInv ∧ s.layoutInv

/-- Does the host's next action have a meaning: an aligned register access, an access to a memory cell that exists (R28,
R61, R62)? -/
def State.hostLegal (s : State) : Prop :=
  match s.host with
  | [] | .reset :: _ | .cmdThenReset _ _ :: _ | .tickThenReset _ :: _ | .wait :: _ | .tick :: _ => True
  | .wr addr _ :: _ | .rd addr :: _ => s.offset addr % 4 = 0
  | .bsWrite addr _ :: _ | .bsRead addr :: _ => addr.toNat < s.cfg.bsSize
  | .pmWrite addr _ :: _ | .pmRead addr :: _ => addr.toNat < s.cfg.pmSize

/-- Is the host's next action a reset (R370)? -/
def State.hostResets (s : State) : Bool :=
  match s.host with
  | .reset :: _ | .cmdThenReset _ _ :: _ | .tickThenReset _ :: _ => true
  | _ => false

/-- A safe step: the machine goes on, to a state in which the invariant holds again. -/
def SafeStep (s : State) : Prop := ∃ t, step s = .next t ∧ t.Inv

/-! ### What an instruction changes -/

/-- The `STATUS` fields after normal completion (R341). -/
def Status.doneOf (st : Status) : Status := { st with err := .none, done := true, fault := false, busy := false }

/-- The `STATUS` fields after fault completion (R340). -/
def Status.faultOf (st : Status) (code : ErrCode) : Status :=
  { st with err := code, fault := true, sticky := true, done := false, busy := false }

/-- Nothing but `STATUS`, PM with its log and the hidden scratch changed, and no command runs any more. -/
def OnlyPlane (s t : State) : Prop :=
  t = { s with status := t.status, engine := .idle, pm := t.pm, pmLog := t.pmLog, scratch := t.scratch }

/-- Nothing but `STATUS`, `RET`, the working registers and PM with its log changed. -/
def OnlyCoder (s t : State) : Prop :=
  t = { s with status := t.status, ret := t.ret, work := t.work, engine := t.engine, pm := t.pm, pmLog := t.pmLog }

/-- A codeword faulted: fault completion, `RET` kept, PM changed only as `t` shows. -/
def CodewordFault (code : ErrCode) (s t : State) : Prop :=
  OnlyCoder s t ∧ t.engine = .idle ∧ t.ret = s.ret ∧ t.status = s.status.faultOf code

/-- A start check failed: fault completion and nothing else. -/
def StartFault (code : ErrCode) (s t : State) : Prop :=
  t = { s with status := s.status.faultOf code, engine := .idle }

/-- What follows a codeword of `len` bits when no run codeword is due: the next value codeword, or the end of the
command with `RET` and normal completion (R164, R178, R205, R219). -/
def NextOrEnd (v : Variant) (len : Nat) (s t : State) : Prop :=
  if t.work.i.toNat < s.regs.size.toNat then
    t.engine = .value v ∧ t.status = s.status ∧ t.ret = s.ret ∧ t.work.pos = s.work.pos + len
  else
    t.engine = .idle ∧ t.status = s.status.doneOf ∧ t.work.pos = (s.work.pos + len + 7) / 8 * 8 ∧
      t.ret = BitVec.ofNat 32 ((s.work.pos + len + 7) / 8)

/-- What a value codeword of `len` bits does (R163, R166 to R168, R207 to R209): one coefficient at the cursor's address,
the cursor advanced with row wrap, the new `state`, `flag` cleared, the gate. -/
def ValueEffect (v : Variant) (len : Nat) (coef new : Int) (s t : State) : Prop :=
  OnlyCoder s t ∧
  t.pm.read s.emitAddr.toNat = BitVec.ofInt 16 coef ∧
  (∀ a, a ≠ s.emitAddr.toNat → t.pm.read a = s.pm.read a) ∧
  (t.work.state.toNat : Int) = new ∧ t.work.flag = false ∧ t.work.i = s.work.i + 1#32 ∧
  (if s.work.j + 1#32 = s.regs.width then t.work.j = 0#32 ∧ t.work.row = s.work.row + s.regs.stride
    else t.work.j = s.work.j + 1#32 ∧ t.work.row = s.work.row) ∧
  t.work.nbits = s.work.nbits ∧ t.work.length = s.work.length ∧
  (if new * 4 ≤ 0xFF ∧ t.work.i.toNat < s.regs.size.toNat then
    t.engine = .run v ∧ t.status = s.status ∧ t.ret = s.ret ∧ t.work.pos = s.work.pos + len
  else NextOrEnd v len s t)

/-- What a run codeword of `len` bits with `rlen` zeros does (R177, R218): the next `rlen` coefficients are 0, nothing
else in PM changes, `state` is 0, `flag` is set below the ceiling. -/
def RunEffect (v : Variant) (len rlen : Nat) (s t : State) : Prop :=
  OnlyCoder s t ∧
  (∀ k, k < rlen → t.pm.read (s.coeffAddr (s.work.i.toNat + k)).toNat = 0#16) ∧
  (∀ a, (∀ k, k < rlen → a ≠ (s.coeffAddr (s.work.i.toNat + k)).toNat) → t.pm.read a = s.pm.read a) ∧
  t.work.state = 0#32 ∧ (t.work.flag = true ↔ rlen < 0xFFFF) ∧
  t.work.i.toNat = s.work.i.toNat + rlen ∧
  t.work.j.toNat = t.work.i.toNat % s.regs.width.toNat ∧
  t.work.row = BitVec.ofNat 32 (t.work.i.toNat / s.regs.width.toNat) * s.regs.stride ∧
  t.work.nbits = s.work.nbits ∧ t.work.length = s.work.length ∧
  NextOrEnd v len s t

/-- When a value codeword of `len` bits runs to its end: its bits are there, its cell exists, its new state is in range
(R98, R66, R166, R208), and the host has kept its hands off (R75). -/
def ValueReady (v : Variant) (len : Nat) (new : Int) (s : State) : Prop :=
  s.engine = .value v ∧ s.race.raced = false ∧ s.pm.wf = true ∧ s.work.pos + len ≤ s.limit ∧ s.emitAddr.toNat < s.cfg.pmSize ∧
  0 ≤ new ∧ new ≤ Config.stateMax

/-- When a run codeword of `len` bits with `rlen` zeros runs to its end: its bits are there, the zeros fit the region and
their cells exist (R98, R177, R66), and the host has kept its hands off (R75). -/
def RunReady (v : Variant) (len rlen : Nat) (s : State) : Prop :=
  s.engine = .run v ∧ s.race.raced = false ∧ s.pm.wf = true ∧ s.coderInv ∧ s.work.pos + len ≤ s.limit ∧
  s.work.i.toNat + rlen ≤ s.regs.size.toNat ∧
  ∀ k, k < rlen → (s.coeffAddr (s.work.i.toNat + k)).toNat < s.cfg.pmSize

/-- The exact new `state` after `x` (R166, R208), over the integers. -/
def newState (gain : Int) (s : State) (x : Nat) : Int :=
  s.work.state.toNat + gain * x - gain * s.work.state.toNat / 256

/-- The run length `rlen` of a run codeword with suffix width `n`, as the tables of R103 give it; no other instruction
has one. -/
def runNumber (n : Nat) : Instr → Option Nat
  | .lrS k | .hrS k => some ((2 ^ n - 1) * k)
  | .lrL k v | .hrL k v => some (v + (2 ^ n - 1) * k - 1)
  | .lrX r => some r.toNat
  | .hrX8 u => some (u.toNat + 8 * (2 ^ n - 1))
  | .hrX16 u => some (u.toNat + 8 * (2 ^ n - 1))
  | .layout | .declow | .dechigh | .predict | .filt1d | .idwt _ | .lvS _ | .lvL _ _ | .lvX _ | .hvS _ | .hvL _ _
  | .hvX _ => none

/-- The number that a value codeword with suffix width `n` stands for before `flag` is added, as the tables of R103 give
it (`escape` of R165, `cnt1` of R206); no other instruction has one. -/
def valueNumber (n : Nat) : Instr → Option Nat
  | .lvS k | .hvS k => some ((2 ^ n - 1) * k)
  | .lvL k v | .hvL k v => some (v + (2 ^ n - 1) * k - 1)
  | .lvX e => some e.toNat
  | .hvX e => some e
  | .layout | .declow | .dechigh | .predict | .filt1d | .idwt _ | .lrS _ | .lrL _ _ | .lrX _ | .hrS _ | .hrL _ _
  | .hrX8 _ | .hrX16 _ => none

/-! ### Reading a codeword with the bit reader -/

/-- A codeword read with `unary`, `peek`, `skip` and `read` as R179 and R220 write it; the codeword goes to `fin`. -/
def readCodeword (c : Ctx) (fin : Instr → State → Run) (s : State) : Run :=
  unary c.cap 0
    (fun k s =>
      if k < c.cap then
        if s.peek c.n ≤ 1 then (skip (c.n - 1) s).bind (fin (shortForm c.kind k))
        else (skip c.n s).bind (fin (longForm c.kind k (s.peek c.n)))
      else
        match c.kind with
        | .lowValue => readBits 16 (fun e => fin (.lvX (BitVec.ofNat 16 e))) s
        | .lowRun => readBits 16 (fun e => fin (.lrX (BitVec.ofNat 16 e))) s
        | .highValue => readBits c.nbits (fun e => fin (.hvX e)) s
        | .highRun =>
          readBits 1
            (fun b s =>
              if b = 1 then readBits 16 (fun u => fin (.hrX16 (BitVec.ofNat 16 u))) s
              else readBits 8 (fun u => fin (.hrX8 (BitVec.ofNat 8 u))) s) s) s

/-! ### Hidden state -/

/-- Two states that differ at most in what no rule can observe (R27, R51): the hidden scratch, the working registers
while the block is idle, and `nbits`, `length` while a `DECLOW` runs (R26). -/
def SameVisible (s t : State) : Prop :=
  t = { s with work := t.work, scratch := t.scratch } ∧
  (s.engine = .value .low ∨ s.engine = .run .low →
    t.work = { s.work with nbits := t.work.nbits, length := t.work.length }) ∧
  (s.engine = .value .high ∨ s.engine = .run .high → t.work = s.work)

/-! ### The layout -/

/-- Does the rectangle of a band contain the sample `(x, y)` of its plane (R47)? -/
def Band.contains (b : Band) (x y : Nat) : Prop :=
  b.x.toNat ≤ x ∧ x < b.x.toNat + b.width.toNat ∧ b.y.toNat ≤ y ∧ y < b.y.toNat + b.height.toNat

/-! ### The predictor and the filter -/

/-- The address of sample `(j, r)` of the region of `PREDICT` (R270). -/
def State.regionAddr (s : State) (r j : Nat) : Word :=
  s.regs.dst + BitVec.ofNat 32 r * s.regs.stride + BitVec.ofNat 32 j

/-- `PREDICT` over its first `m` samples, row by row and left to right, in the order of R272: PM and the column sums. At
sample `(j, r)` the cell takes `v = pred[j] + cell`; then, for `j` not 0, the cell takes `v` plus the cell to its left;
and `pred[j]` takes `v`. -/
def predictState (s : State) (m : Nat) : Memory 16 × (Nat → Sample) :=
  (List.range m).foldl
    (fun (pm, pred) t =>
      let r := t / s.regs.width.toNat
      let j := t % s.regs.width.toNat
      let a := (s.regionAddr r j).toNat
      let v := pred j + pm.read a
      let once := pm.write a v
      (if j = 0 then once else once.write a (v + once.read (s.regionAddr r (j - 1)).toNat), Function.update pred j v))
    (s.pm, fun _ => 0#16)

/-- PM after the first `m` samples of `PREDICT` (R272, R276). -/
def predictFold (s : State) (m : Nat) : Memory 16 := (predictState s m).1

/-- The index of the sample that `low[i]` holds, `i >= -1` (R292). -/
def lowIndex (half : Nat) (i : Int) : Nat :=
  if i < 0 then 0 else if i < half then i.toNat else if i = half then half - 1 else if 2 ≤ half then half - 2 else 0

/-- The index of the sample that `high[i]` holds, `i >= -1` (R292). -/
def highIndex (half : Nat) (i : Int) : Nat :=
  if i < 0 then 0 else if i < half then i.toNat else if 2 ≤ half then half - 2 else 0

/-- `low[i]` of a vector `x` of samples with `half` low samples (R292). -/
def lowAt (x : Nat → Sample) (half : Nat) (i : Int) : Int := (x (lowIndex half i)).toInt

/-- `high[i]` of a vector `x` of samples with `half` low samples (R292). -/
def highAt (x : Nat → Sample) (half : Nat) (i : Int) : Int := (x (half + highIndex half i)).toInt

/-- `E(i)` over `2^28`, with the fractions of R293 (R294). -/
def refEven (x : Nat → Sample) (half : Nat) (i : Nat) : Int :=
  -(635533 * 2 ^ 5) * (lowAt x half (i - 1) + lowAt x half (i + 1)) + 14405415 * 2 ^ 4 * lowAt x half i
    + 11863283 * 2 ^ 3 * (highAt x half (i - 1) + highAt x half i)

/-- `O(i)` over `2^28`, with the fractions of R293 (R294). -/
def refOdd (x : Nat → Sample) (half : Nat) (i : Nat) : Int :=
  -4067411 * (lowAt x half (i - 1) + lowAt x half (i + 2)) + 6185855 * 2 ^ 4 * (lowAt x half i + lowAt x half (i + 1))
    + 9490627 * 2 * (highAt x half (i - 1) + highAt x half (i + 1)) - 3558985 * 2 ^ 6 * highAt x half i

/-- The rational number a `BinValue` stands for. -/
def BinValue.toRat (x : BinValue) : ℚ := x.mant * (2 : ℚ) ^ x.exp

/-- The finite binary64 numbers (R11). -/
def IsF64 (q : ℚ) : Prop := ∃ m e : Int, q = m * (2 : ℚ) ^ e ∧ m.natAbs < 2 ^ 53 ∧ -1074 ≤ e ∧ e ≤ 971

/-- One application of the filter: lines 2 to the end of R298 with these operands. -/
structure FilterApp where
  base : Word
  n : Nat
  pitch : Word
  scale : BitVec 64
  deriving DecidableEq, Repr

/-- The cells of a filter application. -/
def FilterApp.addr (f : FilterApp) (t : Nat) : Nat := (elemAddr f.base f.pitch t).toNat

/-- PM after one application whose cells all exist (R298): output `2i` is `E(i)`, output `2i + 1` is `O(i)`, scaled,
clipped and narrowed, all computed from PM as it was before. -/
def FilterApp.apply (pm : Memory 16) (f : FilterApp) : Memory 16 :=
  (List.range f.n).foldl
    (fun m t =>
      m.write (f.addr t)
        (scaleNarrow f.scale
          (if t % 2 = 0 then refEven (fun u => pm.read (f.addr u)) (f.n / 2) (t / 2)
           else refOdd (fun u => pm.read (f.addr u)) (f.n / 2) (t / 2)))) pm

/-- The applications of `IDWT p` in their order (R301): for each level the rows top to bottom with the vertical scale,
then the columns left to right with the horizontal scale. -/
def idwtSchedule (s : State) (p : Plane) : List FilterApp :=
  (List.range 4).flatMap (fun k =>
    let sw := (s.pw.get p).toNat / 16 * 2 ^ (k + 1)
    let sh := (s.ph.get p).toNat / 16 * 2 ^ (k + 1)
    (List.range sh).map (fun r =>
      { base := s.regs.pbase.get p + BitVec.ofNat 32 r * s.regs.pstride.get p, n := sw, pitch := 1#32,
        scale := (s.scale.get p).ver.get k }) ++
    (List.range sw).map (fun x =>
      { base := s.regs.pbase.get p + BitVec.ofNat 32 x, n := sh, pitch := s.regs.pstride.get p,
        scale := (s.scale.get p).hor.get k }))

/-- The address of sample `(x, y)` of plane `p` (R62). -/
def State.planeAddr (s : State) (p : Plane) (x y : Nat) : Word :=
  s.regs.pbase.get p + BitVec.ofNat 32 y * s.regs.pstride.get p + BitVec.ofNat 32 x

/-! ### The register map -/

/-- The byte offsets of the registers the host can write, `CMD` apart (R29). -/
def writableOffset (off : Nat) : Bool :=
  off % 4 == 0 && ((0x010 ≤ off && off ≤ 0x05C) || (0x100 ≤ off && off < 0x1C0))

end Sys2Proof.Machine
end

