-- ==== Sys2Proof/Certificates/Slice0/Obligations.lean ====
section
/-! DEFINITION. The statements for the provers. Each docstring names the rules of `spec/` it formalises. -/

open Sys2Proof Sys2Proof.Machine

/-! ### Encoding -/

/-- R103, R105, R107: an encoded well-formed instruction decodes to itself, whatever bits follow it in the stream, and a
codeword's encoding has the length R103 gives. -/
def Obligations.DecodeEncodeRoundTrip : Prop :=
  ∀ (c : Ctx) (i : Instr) (rest : List Bool), c.wf = true → i.wf c = true →
    match encode c i with
    | .command w => decodeCommand w = .ok i
    | .stream bits => bits.length = i.bitLength c ∧ decodeCodeword c (bits ++ rest) = i

/-- R107, R108: every bit string, continued by 0 bits, begins with the encoding of exactly one well-formed codeword of the
context, the one it decodes to. -/
def Obligations.EveryBitStringDecodes : Prop :=
  ∀ (c : Ctx) (bits : List Bool), c.wf = true →
    (decodeCodeword c bits).wf c = true ∧ (decodeCodeword c bits).isCodeword = true ∧
    (∃ enc, encode c (decodeCodeword c bits) = .stream enc ∧
      ∀ t, t < enc.length → enc.getD t false = bits.getD t false) ∧
    (∀ i enc, i.wf c = true → encode c i = .stream enc →
      (∀ t, t < enc.length → enc.getD t false = bits.getD t false) → i = decodeCodeword c bits)

/-- R92, R94: a word selects a command exactly when `(word & mask) = match`, plane 3 of `IDWT` apart, and selects none
exactly in the cases R94 lists. -/
def Obligations.CommandWordTable : Prop :=
  ∀ w : BitVec 32,
    (decodeCommand w = .ok .layout ↔ w &&& 0xFFFFFFFF#32 = 1#32) ∧
    (decodeCommand w = .ok .declow ↔ w &&& 0xFFFFFFFF#32 = 2#32) ∧
    (decodeCommand w = .ok .dechigh ↔ w &&& 0xFFFFFFFF#32 = 3#32) ∧
    (decodeCommand w = .ok .predict ↔ w &&& 0xFFFFFFFF#32 = 4#32) ∧
    (decodeCommand w = .ok .filt1d ↔ w &&& 0xFFFFFFFF#32 = 5#32) ∧
    ((∃ p, decodeCommand w = .ok (.idwt p)) ↔ w &&& 0xFFFFFFCF#32 = 6#32 ∧ w.extractLsb' 4 2 ≠ 3#2) ∧
    (∀ p, decodeCommand w = .ok (.idwt p) → w.extractLsb' 4 2 = p.code) ∧
    ((∀ i, decodeCommand w ≠ .ok i) ↔
      (w.extractLsb' 0 4 = 0#4 ∨ 7 ≤ (w.extractLsb' 0 4).toNat ∨ w.extractLsb' 6 26 ≠ 0#26 ∨
        (w.extractLsb' 4 2 ≠ 0#2 ∧ w.extractLsb' 0 4 ≠ 6#4) ∨ (w.extractLsb' 0 4 = 6#4 ∧ w.extractLsb' 4 2 = 3#2)))

/-- R92, R103, and the bit patterns of `95_test_vectors.md`: a few words written out from the spec decode right. -/
def Obligations.SampleWordsDecode : Prop :=
  decodeCommand 0x00000002#32 = .ok .declow ∧
  decodeCommand 0x00000026#32 = .ok (.idwt .v) ∧
  -- L2: `1011` with `n = 2` is `LV.L k=1 v=3`
  decodeCodeword { kind := .lowValue, n := 2, nbits := 0 } [true, false, true, true] = .lvL 1 3 ∧
  -- R174: `10 00000` with `n = 6` is `LR.S k=1`
  decodeCodeword { kind := .lowRun, n := 6, nbits := 0 } [true, false, false, false, false, false, false] = .lrS 1 ∧
  -- H14: `11010` with `n = 2`, `nbits = 8` is `HV.L k=2 s=2`
  decodeCodeword { kind := .highValue, n := 2, nbits := 8 } [true, true, false, true, false] = .hvL 2 2 ∧
  -- R216: `11111111 0 00001100` with `n = 8` is `HR.X8 u=12`
  decodeCodeword { kind := .highRun, n := 8, nbits := 0 }
    [true, true, true, true, true, true, true, true, false, false, false, false, false, true, true, false, false] = .hrX8 12#8

/-- R106: the run width as a function of `state`, and the thresholds of the value width (R165). -/
def Obligations.SuffixWidths : Prop :=
  (∀ st : Nat, st ≤ 63 →
    runWidth st =
      if st = 0 then 8 else if st = 1 then 7 else if st ≤ 3 then 6 else if st ≤ 7 then 5 else if st ≤ 15 then 4
      else if st ≤ 23 then 3 else if st ≤ 31 then 4 else if st ≤ 55 then 3 else 4) ∧
  (∀ st m : Nat, 1 ≤ m → m ≤ 13 → 256 * (2 ^ m - 3) ≤ st → st < 256 * (2 ^ (m + 1) - 3) → valueWidth st = m) ∧
  (∀ st : Nat, 4193536 ≤ st → valueWidth st = 14)

/-- R96 to R100, R104, R179, R220: reading a codeword bit by bit, with the reader's own exhaustion tests, gives the
codeword the decoder reads and moves the cursor by its length; it raises `ID_BITS_EXHAUSTED` exactly when the codeword
does not fit before the limit, and then nothing but the cursor has changed. -/
def Obligations.ReaderAgreesWithDecoder : Prop :=
  ∀ (c : Ctx) (fin : Instr → State → Run) (s : State), c.wf = true →
    let i := decodeCodeword c s.window
    (s.work.pos + i.bitLength c ≤ s.limit →
      readCodeword c fin s = fin i { s with work := { s.work with pos := s.work.pos + i.bitLength c } }) ∧
    (s.limit < s.work.pos + i.bitLength c →
      ∃ p, readCodeword c fin s = .stop .idBitsExhausted { s with work := { s.work with pos := p } })

/-! ### The step -/

/-- R95, R107, and the model's own arrangement of host actions (log entries 6 and 7): the step runs what the decoder
reads, from a word written to `CMD` and from the stream at the cursor. -/
def Obligations.StepRunsDecoded : Prop :=
  (∀ (s : State) (w : Word) (rest : List HostOp) (i : Instr),
    s.host = .wr s.cfg.regBase w :: rest → decodeCommand w = .ok i → step s = exec i { s with host := rest }) ∧
  (∀ (s : State) (c : Ctx), s.host = [] → s.ctx = some c → step s = exec (decodeCodeword c s.window) s) ∧
  (∀ (s : State) (c : Ctx) (rest : List HostOp), s.host = .tick :: rest → s.ctx = some c →
    step s = exec (decodeCodeword c s.window) { s with host := rest }) ∧
  (∀ (s : State) (c : Ctx) (rest : List HostOp), s.host = .wait :: rest → s.status.busy = true → s.ctx = some c →
    step s = exec (decodeCodeword c s.window) s)

/-- R349, R372, and the model's own stops (log entries 11, 12, 21): a step stops only on a host access to which the spec
gives no meaning, never because of what the block runs; an idle block with no host action stays as it is. That a racing
access, a read of BS and a reset inside a unit of work go on is the model's too (log entries 10, 19, 20). -/
def Obligations.StepStopsOnlyOnHostMisuse : Prop :=
  ∀ s : State,
    ((∃ t, step s = .next t) ↔ s.hostLegal) ∧
    (∀ f, step s = .fault f → f = .hostOutsideMemory) ∧
    (∀ r, step s = .refused r → r = .unalignedRegisterAccess) ∧
    (s.host = [] → s.engine = .idle → step s = .next s)

/-- R343: an illegal command word changes `STATUS` alone. -/
def Obligations.IllegalCommandWord : Prop :=
  ∀ (s : State) (w : Word) (rest : List HostOp), s.host = .wr s.cfg.regBase w :: rest → s.statusInv →
    s.status.busy = false → (∀ i, decodeCommand w ≠ .ok i) →
    ∃ t, step s = .next t ∧ t = { s with host := rest, status := s.status.faultOf .illegalCmd } ∧ t.status.err.code = 0xB#4

/-- R28, R41, R380: while `BUSY = 1` a write of any register, `CMD` included, is ignored. The offset that an address
means is the model's choice (log entry 21). So is the taking of host actions from a list (log entry 6). -/
def Obligations.WritesWhileBusyIgnored : Prop :=
  ∀ (s : State) (addr v : Word) (rest : List HostOp), s.host = .wr addr v :: rest → s.status.busy = true →
    s.offset addr % 4 = 0 → step s = .next { s with host := rest }

/-- R28, R29: the step that takes a host write of an aligned register other than `CMD` while `BUSY = 0` writes that
register; a writable register reads back the word written; a write of any other offset but `CMD` is ignored. The offset
that an address means is the model's choice (log entry 21). So is the taking of host actions from a list (log entry 6).
-/
def Obligations.RegisterReadBack : Prop :=
  (∀ (s : State) (addr v : Word) (rest : List HostOp), s.host = .wr addr v :: rest → s.offset addr % 4 = 0 →
    s.offset addr ≠ 0 → s.status.busy = false →
    step s = .next (State.regWrite { s with host := rest } (s.offset addr) v)) ∧
  (∀ (s : State) (off : Nat) (v : Word), off % 4 = 0 →
    (writableOffset off = true → (s.regWrite off v).regRead off = v) ∧
    (writableOffset off = false → s.regWrite off v = s))

/-- R28, R29, R39: a register write changes no other register, but for `LVALID` of `STATUS` when `W` or `H` is written,
and it changes neither memory nor `RET`. -/
def Obligations.RegisterWriteFrame : Prop :=
  ∀ (s : State) (off off' : Nat) (v : Word), off % 4 = 0 → off' % 4 = 0 → off' ≠ off → off' ≠ 0x004 →
    (s.regWrite off v).regRead off' = s.regRead off' ∧
    (s.regWrite off v).pm = s.pm ∧ (s.regWrite off v).bs = s.bs ∧ (s.regWrite off v).ret = s.ret ∧
    (s.regWrite off v).status =
      (if off = 0x040 ∨ off = 0x044 then { s.status with lvalid := false } else s.status)

/-- R30, R331: the fields of the `STATUS` word and the fault codes. -/
def Obligations.StatusWordFields : Prop :=
  (∀ st : Status,
    st.word.getLsbD 0 = st.busy ∧ st.word.getLsbD 1 = st.done ∧ st.word.getLsbD 2 = st.fault ∧
    st.word.getLsbD 3 = st.sticky ∧ st.word.getLsbD 4 = st.lvalid ∧ st.word.extractLsb' 8 4 = st.err.code ∧
    st.word.extractLsb' 5 3 = 0#3 ∧ st.word.extractLsb' 12 20 = 0#20) ∧
  ErrCode.code .none = 0x0#4 ∧ ErrCode.code .idBitsExhausted = 0x1#4 ∧ ErrCode.code .idRunOverrun = 0x2#4 ∧
  ErrCode.code .idRunTooLong = 0x3#4 ∧ ErrCode.code .idNbitsRange = 0x4#4 ∧ ErrCode.code .idScaleZero = 0x5#4 ∧
  ErrCode.code .idStateRange = 0x6#4 ∧ ErrCode.code .outOfMemory = 0x8#4 ∧ ErrCode.code .badConfig = 0x9#4 ∧
  ErrCode.code .memBounds = 0xA#4 ∧ ErrCode.code .illegalCmd = 0xB#4

/-- R28, R29, R45, R47: the register map: `CMD` reads 0, each named register and each entry of `SCALE` and `BAND` reads at
its own offset, and every other offset reads 0. -/
def Obligations.TableMap : Prop :=
  ∀ s : State,
    s.regRead 0x000 = 0#32 ∧ s.regRead 0x004 = s.status.word ∧ s.regRead 0x008 = s.ret ∧
    s.regRead 0x010 = s.regs.bsptr ∧ s.regRead 0x014 = s.regs.bsend ∧ s.regRead 0x018 = s.regs.dst ∧
    s.regRead 0x01C = s.regs.size ∧ s.regRead 0x020 = s.regs.width ∧ s.regRead 0x024 = s.regs.height ∧
    s.regRead 0x028 = s.regs.stride ∧ s.regRead 0x02C = s.regs.hc ∧ s.regRead 0x030 = s.regs.hscale ∧
    s.regRead 0x034 = s.regs.hd ∧ s.regRead 0x038 = s.regs.fscaleLo ∧ s.regRead 0x03C = s.regs.fscaleHi ∧
    s.regRead 0x040 = s.regs.w ∧ s.regRead 0x044 = s.regs.h ∧
    (∀ p : Plane,
      s.regRead (0x048 + 4 * p.code.toNat) = s.regs.pbase.get p ∧
      s.regRead (0x054 + 4 * p.code.toNat) = s.regs.pstride.get p ∧
      s.regRead (0x060 + 8 * p.code.toNat) = s.pw.get p ∧ s.regRead (0x064 + 8 * p.code.toNat) = s.ph.get p ∧
      (∀ k, k ≤ 3 →
        (s.regRead (0x104 + 8 * (8 * p.code.toNat + k)) ++ s.regRead (0x100 + 8 * (8 * p.code.toNat + k)) : BitVec 64) =
          (s.scale.get p).hor.get k ∧
        (s.regRead (0x104 + 8 * (8 * p.code.toNat + 4 + k)) ++ s.regRead (0x100 + 8 * (8 * p.code.toNat + 4 + k)) :
          BitVec 64) = (s.scale.get p).ver.get k) ∧
      (∀ b, b ≤ 12 →
        let o := 0x400 + 32 * (13 * p.code.toNat + b)
        s.regRead o = ((s.band.get p).get b).width ∧ s.regRead (o + 4) = ((s.band.get p).get b).height ∧
        s.regRead (o + 8) = ((s.band.get p).get b).size ∧ s.regRead (o + 12) = ((s.band.get p).get b).x ∧
        s.regRead (o + 16) = ((s.band.get p).get b).y ∧
        s.regRead (o + 20) = 0#32 ∧ s.regRead (o + 24) = 0#32 ∧ s.regRead (o + 28) = 0#32)) ∧
    (∀ off, off = 0x00C ∨ (0x078 ≤ off ∧ off < 0x100) ∨ (0x1C0 ≤ off ∧ off < 0x400) ∨ 0x8E0 ≤ off → s.regRead off = 0#32)

/-- R28, R72: a register read has no side effect on the block, whether it is busy or not. The offset that an address
means is the model's choice (log entry 21). So are the list of host actions and the word the host holds (log entry 6).
-/
def Obligations.ReadsHaveNoSideEffect : Prop :=
  ∀ (s : State) (addr : Word) (rest : List HostOp), s.host = .rd addr :: rest → s.offset addr % 4 = 0 →
    step s = .next { s with host := rest, rdata := s.regRead (s.offset addr) }

/-- R61, R62, R76: the host's accesses to the memories (log entries 6, 19). Where R75 allows them, what the host writes is
there, nothing else changes, and a read returns the cell, zero-extended. Where it does not (U14; log entry 10, the model's
choice), the access goes on: only PM cells of the running command and the record of the race change, and the command reads
each bit of a raced byte from a value the byte held. -/
def Obligations.HostMemoryAccess : Prop :=
  ∀ (s : State) (rest : List HostOp), s.memInv → s.hostLegal →
    (∀ addr, s.host = .bsRead addr :: rest →
      step s = .next { s with host := rest, rdata := (s.bs.read addr.toNat).zeroExtend 32 }) ∧
    (∀ addr v, s.host = .bsWrite addr v :: rest →
      ∃ t, step s = .next t ∧ t.bs.read addr.toNat = v ∧ (∀ a, a ≠ addr.toNat → t.bs.read a = s.bs.read a) ∧
        (s.usesByte addr.toNat = false → t = { s with host := rest, bs := t.bs }) ∧
        (s.usesByte addr.toNat = true →
          t = { s with host := rest, bs := t.bs, pm := t.pm, race := t.race } ∧ t.race.raced = true ∧
          t.race.held = (addr.toNat, s.bs.read addr.toNat) :: s.race.held ∧
          ∀ a, (∀ k, k < s.regs.size.toNat → (s.coeffAddr k).toNat ≠ a) → t.pm.read a = s.pm.read a)) ∧
    (∀ addr v, s.host = .pmWrite addr v :: rest →
      ∃ t, step s = .next t ∧
        (s.usesCell addr.toNat = false →
          t = { s with host := rest, pm := t.pm } ∧ t.pm.read addr.toNat = v ∧
          ∀ a, a ≠ addr.toNat → t.pm.read a = s.pm.read a) ∧
        (s.usesCell addr.toNat = true →
          t = { s with host := rest, pm := t.pm, race := t.race } ∧ t.race.raced = true ∧ t.race.held = s.race.held ∧
          ∀ a, (∀ k, k < s.regs.size.toNat → (s.coeffAddr k).toNat ≠ a) → t.pm.read a = s.pm.read a)) ∧
    (∀ addr, s.host = .pmRead addr :: rest →
      (s.usesCell addr.toNat = false →
        step s = .next { s with host := rest, rdata := (s.pm.read addr.toNat).zeroExtend 32 }) ∧
      (s.usesCell addr.toNat = true →
        ∃ (v : Sample) (draws : Nat), step s = .next
          { s with host := rest, rdata := v.zeroExtend 32, race := { s.race with draws := draws } })) ∧
    (∀ k, k < s.limit →
      let a := s.regs.bsptr.toNat + k / 8
      s.bit k = (s.bs.read a).getLsbD (7 - k % 8) ∨ ∃ b, (a, b) ∈ s.race.held ∧ s.bit k = b.getLsbD (7 - k % 8))

/-- R52, R53, R371: a reset between two units of the block's work leaves every register of the map reading 0, the hidden
scratch empty and both memories as they were. That it leaves the configuration and the host's further actions alone is the
model's (log entry 18, DEDUCED), and that this action comes between two units is log entry 7; for one inside a unit see
`ResetAbandonsCommand`. -/
def Obligations.ResetEffect : Prop :=
  ∀ (s : State) (rest : List HostOp), s.host = .reset :: rest →
    ∃ t, step s = .next t ∧ (∀ off, t.regRead off = 0#32) ∧ t.status.word = 0#32 ∧ t.engine = .idle ∧
      t.scratch.pred = [] ∧ t.scratch.low = [] ∧ t.scratch.high = [] ∧
      t.bs = s.bs ∧ t.pm = s.pm ∧ t.cfg = s.cfg ∧ t.host = rest

/-- R370, R371, and the model's choice to place a reset by the PM writes that the unit of work at hand has made (log
entry 20): the unit's writes up to the reset stay written, in their order, the others are not made, every other cell
keeps its contents, and the rest of the block is reset. That the working registers are then 0 (log entry 2), that the
record of races is emptied and its counter kept (log entry 10) and that the configuration and the host's fields stay
(log entry 18) is the model's too. -/
def Obligations.ResetAbandonsCommand : Prop :=
  ∀ (s : State) (i : Instr) (n : Nat) (rest : List HostOp), s.pmLog = none →
    (∃ w, s.host = .cmdThenReset w n :: rest ∧ decodeCommand w = .ok i) ∨
      (∃ c, s.host = .tickThenReset n :: rest ∧ s.ctx = some c ∧ i = decodeCodeword c s.window) →
    ∃ (u t : State) (writes : List (Nat × Sample)),
      exec i { s with host := rest } = .next u ∧ u.pm = s.pm.replay writes ∧
      exec i { s with host := rest, pmLog := some [] } = .next { u with pmLog := some writes.reverse } ∧
      (∀ c ∈ writes, c.1 < s.cfg.pmSize) ∧
      step s = .next t ∧ t = { State.resetBlock { s with host := rest } with pm := s.pm.replay (writes.take n) } ∧
      ∀ a, (∀ c ∈ writes.take n, c.1 ≠ a) → t.pm.read a = s.pm.read a

/-! ### Invariants -/

/-- The state after reset has every invariant (R52, R53). The configuration, the empty memories and the absence of a log
are the model's (log entries 1, 4, 20). -/
def Obligations.ResetInv : Prop := State.reset.Inv

/-- R61, R62, R66: every step keeps both memories in canonical form and inside their bounds, and ends with no PM writes
being counted (log entry 20). That an unlisted cell reads 0, which the canonical form rests on, is log entry 4. -/
def Obligations.StepKeepsMemory : Prop :=
  ∀ s t : State, s.memInv → step s = .next t → t.memInv

/-- R30: every step keeps the `STATUS` invariant: at most one of `BUSY`, `DONE`, `FAULT`, `ERR` nonzero exactly with
`FAULT`, `BUSY` exactly while a command runs; and once one of the three is 1, one of them stays 1 unless the host
resets. -/
def Obligations.StepKeepsStatus : Prop :=
  ∀ s t : State, s.statusInv → step s = .next t →
    t.statusInv ∧
    ((s.status.busy || s.status.done || s.status.fault) = true → s.hostResets = false →
      (t.status.busy || t.status.done || t.status.fault) = true)

/-- R163, R180, R221: every step keeps the bounds and the cursor equations of a running coder command: the cursor within
the stream window, `i` below `SIZE`, `j` and `row` the position of coefficient `i`, `state` in its range. -/
def Obligations.StepKeepsCoder : Prop :=
  ∀ s t : State, s.statusInv → s.coderInv → step s = .next t → t.coderInv

/-- R39, R40, R47: every step keeps the layout invariant. -/
def Obligations.StepKeepsLayout : Prop :=
  ∀ s t : State, s.layoutInv → step s = .next t → t.layoutInv

/-- Everything that holds of every reachable state holds again after every step whose host action is legal, and such a
step never stops (R349; the invariants are those of the statements above). Which host actions there are, and which are
legal, is the model's choice (log entries 6, 10 to 12, 19 to 21). -/
def Obligations.LegalStepIsSafe : Prop := ∀ s : State, s.Inv → s.hostLegal → SafeStep s

/-- R30: only a reset clears `STICKY`. -/
def Obligations.StickyIsSticky : Prop :=
  ∀ s t : State, s.status.sticky = true → s.hostResets = false → step s = .next t → t.status.sticky = true

/-- R43, R42, R63: no command and no codeword modifies an operand register, `SCALE` or BS. -/
def Obligations.OperandsUnmodified : Prop :=
  ∀ (i : Instr) (s t : State), exec i s = .next t →
    t.regs = s.regs ∧ t.scale = s.scale ∧ t.bs = s.bs ∧ t.cfg = s.cfg ∧ t.host = s.host ∧ t.rdata = s.rdata

/-- R340: what fault completion does, for every command and codeword. -/
def Obligations.FaultCompletion : Prop :=
  ∀ (i : Instr) (s t : State), s.statusInv → (i.isCodeword = false → s.status.busy = false) → exec i s = .next t →
    t.status.fault = true →
    t.status.err ≠ .none ∧ t.status.sticky = true ∧ t.status.done = false ∧ t.status.busy = false ∧
    t.status.lvalid = (if i = .layout then false else s.status.lvalid) ∧
    t.engine = .idle ∧ t.ret = s.ret ∧ t.regs = s.regs ∧ t.scale = s.scale ∧ t.pw = s.pw ∧ t.ph = s.ph ∧ t.band = s.band

/-- R31, R341: what normal completion does, and that only a coder command that ends without a fault writes `RET`, with
the byte count after alignment, unless the host has raced the command (U14; log entry 10). -/
def Obligations.NormalCompletion : Prop :=
  ∀ (i : Instr) (s t : State), s.statusInv → (i.isCodeword = false → s.status.busy = false) → exec i s = .next t →
    (t.engine = .idle → t.status.fault = false →
      t.status.err = .none ∧ t.status.done = true ∧ t.status.busy = false ∧ t.status.sticky = s.status.sticky ∧
      (if i.isCodeword = true ∨ i = .declow ∨ i = .dechigh then
        t.work.pos % 8 = 0 ∧ (s.race.raced = false ∨ i.isCodeword = false → t.ret = BitVec.ofNat 32 (t.work.pos / 8))
      else t.ret = s.ret)) ∧
    (t.engine ≠ .idle ∨ t.status.fault = true → t.ret = s.ret)

/-- R39: what sets and clears `LVALID`, and that nothing else does. That an `IDWT` without a layout ends with
`BAD_CONFIG` is R302. The offset that an address means is the model's choice (log entry 21), and so is the taking of
host actions from a list, a reset between two units of work among them (log entries 6, 7). -/
def Obligations.LvalidTracksDimensions : Prop :=
  (∀ (i : Instr) (s t : State), exec i s = .next t → i ≠ .layout → t.status.lvalid = s.status.lvalid) ∧
  (∀ s t : State, s.status.busy = false → exec .layout s = .next t →
    (t.status.fault = false → t.status.lvalid = true) ∧ (t.status.fault = true → t.status.lvalid = false)) ∧
  (∀ (s : State) (addr v : Word) (rest : List HostOp), s.host = .wr addr v :: rest → s.offset addr % 4 = 0 →
    s.offset addr ≠ 0 → s.status.busy = false →
    ∃ t, step s = .next t ∧
      t.status.lvalid = (if s.offset addr = 0x040 ∨ s.offset addr = 0x044 then false else s.status.lvalid)) ∧
  (∀ (s : State) (rest : List HostOp), s.host = .reset :: rest → ∃ t, step s = .next t ∧ t.status.lvalid = false) ∧
  (∀ (s t : State) (p : Plane), s.status.busy = false → s.status.lvalid = false → exec (.idwt p) s = .next t →
    t.status.fault = true ∧ t.status.err = .badConfig)

/-! ### LAYOUT -/

/-- R142 to R147: what `LAYOUT` writes, and nothing else. -/
def Obligations.LayoutResult : Prop :=
  ∀ s : State, s.cfg.wf = true → s.status.busy = false →
    0 < s.regs.w.toNat → 0 < s.regs.h.toNat → s.regs.w.toNat % 32 = 0 → s.regs.h.toNat % 32 = 0 →
    s.regs.w.toNat ≤ s.cfg.maxDim → s.regs.h.toNat ≤ s.cfg.maxDim →
    ∃ t, exec .layout s = .next t ∧
      t = { s with
        status := { s.status.doneOf with lvalid := true }, engine := .idle, pw := t.pw, ph := t.ph, band := t.band } ∧
      t.pw.p0 = s.regs.w ∧ t.ph.p0 = s.regs.h ∧
      t.pw.p1.toNat = s.regs.w.toNat / 2 ∧ t.ph.p1.toNat = s.regs.h.toNat / 2 ∧ t.pw.p2 = t.pw.p1 ∧ t.ph.p2 = t.ph.p1 ∧
      ∀ p : Plane,
        (∀ b, b ≤ 12 → ((t.band.get p).get b).size.toNat =
          ((t.band.get p).get b).width.toNat * ((t.band.get p).get b).height.toNat) ∧
        ((t.band.get p).get 0).width.toNat = (t.pw.get p).toNat / 16 ∧
        ((t.band.get p).get 0).height.toNat = (t.ph.get p).toNat / 16 ∧
        ((t.band.get p).get 0).x = 0#32 ∧ ((t.band.get p).get 0).y = 0#32 ∧
        ∀ k, k ≤ 3 →
          (∀ b, 3 * k + 1 ≤ b → b ≤ 3 * k + 3 →
            ((t.band.get p).get b).width.toNat = (t.pw.get p).toNat / 2 ^ (4 - k) ∧
            ((t.band.get p).get b).height.toNat = (t.ph.get p).toNat / 2 ^ (4 - k)) ∧
          ((t.band.get p).get (3 * k + 1)).x.toNat = (t.pw.get p).toNat / 2 ^ (4 - k) ∧
          ((t.band.get p).get (3 * k + 1)).y = 0#32 ∧
          ((t.band.get p).get (3 * k + 2)).x = 0#32 ∧
          ((t.band.get p).get (3 * k + 2)).y.toNat = (t.ph.get p).toNat / 2 ^ (4 - k) ∧
          ((t.band.get p).get (3 * k + 3)).x.toNat = (t.pw.get p).toNat / 2 ^ (4 - k) ∧
          ((t.band.get p).get (3 * k + 3)).y.toNat = (t.ph.get p).toNat / 2 ^ (4 - k)

/-- R141: the two faults of `LAYOUT` in their order; `LVALID` is cleared and the tables keep their contents. -/
def Obligations.LayoutFaults : Prop :=
  ∀ s : State, s.status.busy = false →
    (s.regs.w.toNat = 0 ∨ s.regs.h.toNat = 0 ∨ s.regs.w.toNat % 32 ≠ 0 ∨ s.regs.h.toNat % 32 ≠ 0 →
      exec .layout s = .next
        { s with status := { s.status.faultOf .badConfig with lvalid := false }, engine := .idle }) ∧
    (0 < s.regs.w.toNat → 0 < s.regs.h.toNat → s.regs.w.toNat % 32 = 0 → s.regs.h.toNat % 32 = 0 →
      s.cfg.maxDim < s.regs.w.toNat ∨ s.cfg.maxDim < s.regs.h.toNat →
      exec .layout s = .next
        { s with status := { s.status.faultOf .outOfMemory with lvalid := false }, engine := .idle })

/-- R48: while `LVALID = 1` the thirteen bands of a plane have the plane's area, every sample of the plane lies in exactly
one of them, no band leaves the plane, and band 0 is not empty. -/
def Obligations.BandsTileThePlane : Prop :=
  ∀ (s : State) (p : Plane), s.cfg.wf = true → s.layoutInv → s.status.lvalid = true →
    (∑ b ∈ Finset.range 13, ((s.band.get p).get b).size.toNat) = (s.pw.get p).toNat * (s.ph.get p).toNat ∧
    (∀ x y, x < (s.pw.get p).toNat → y < (s.ph.get p).toNat → ∃! b, b < 13 ∧ ((s.band.get p).get b).contains x y) ∧
    (∀ b x y, b < 13 → ((s.band.get p).get b).contains x y → x < (s.pw.get p).toNat ∧ y < (s.ph.get p).toNat) ∧
    1 ≤ ((s.band.get p).get 0).width.toNat ∧ 1 ≤ ((s.band.get p).get 0).height.toNat

/-! ### Starting a coder command -/

/-- R161, R162, R164, R181 (a): `DECLOW` with legal operands starts its loop, or ends at once with `RET = 0` when
`SIZE = 0`. That the record of racing host accesses starts empty, its counter kept, is the model's choice (log entry 10),
and so is that the working registers no rule can observe keep their values (log entry 3). -/
def Obligations.DeclowStarts : Prop :=
  ∀ s : State, s.status.busy = false → s.regs.bsptr.toNat ≤ s.regs.bsend.toNat → s.regs.bsend.toNat ≤ s.cfg.bsSize →
    (s.regs.size.toNat = 0 ∨ 0 < s.regs.width.toNat) →
    exec .declow s = .next
      { s with
        work := { s.work with state := 3#32, flag := false, i := 0#32, j := 0#32, row := 0#32, pos := 0 }
        race := s.race.clear
        engine := if s.regs.size.toNat = 0 then .idle else .value .low
        ret := if s.regs.size.toNat = 0 then 0#32 else s.ret
        status := if s.regs.size.toNat = 0 then s.status.doneOf
          else { s.status with busy := true, done := false, fault := false, err := .none } }

/-- R201, R203 to R205: `DECHIGH` accepts exactly `scale` in `-32768 .. -1` and `1 .. 32767`; `nbits` is one more than the
bit length of `t`; then its loop starts, or it ends at once when `SIZE = 0`. That the record of racing host accesses starts
empty, its counter kept, is the model's choice (log entry 10), and so is that the working registers no rule can observe keep
their values (log entry 3). -/
def Obligations.DechighStarts : Prop :=
  ∀ s : State, s.status.busy = false → s.regs.bsptr.toNat ≤ s.regs.bsend.toNat → s.regs.bsend.toNat ≤ s.cfg.bsSize →
    (s.regs.size.toNat = 0 ∨ 0 < s.regs.width.toNat) →
    ((-32768 ≤ s.regs.hscale.toInt ∧ s.regs.hscale.toInt ≤ -1) ∨ (1 ≤ s.regs.hscale.toInt ∧ s.regs.hscale.toInt ≤ 32767)) →
    ∃ (nbits : Nat) (t : Int), 1 ≤ nbits ∧ nbits ≤ 16 ∧
      t = (if 0 ≤ s.regs.hscale.toInt then s.regs.hscale.toInt else -s.regs.hscale.toInt - 1) ∧
      t < 2 ^ (nbits - 1) ∧ (2 ≤ nbits → 2 ^ (nbits - 2) ≤ t) ∧
      exec .dechigh s = .next
        { s with
          work := { s.work with
            state := 3#32, flag := false, i := 0#32, j := 0#32, row := 0#32, pos := 0, nbits := nbits, length := 25 - nbits }
          race := s.race.clear
          engine := if s.regs.size.toNat = 0 then .idle else .value .high
          ret := if s.regs.size.toNat = 0 then 0#32 else s.ret
          status := if s.regs.size.toNat = 0 then s.status.doneOf
            else { s.status with busy := true, done := false, fault := false, err := .none } }

/-- R161, R201, R203, R335, R336, R339, R345: the start checks of the coder commands, in order; each fault changes
`STATUS` alone. That the working registers keep their values, `nbits` among them, which R203 assigns before it raises
`ID_NBITS_RANGE`, is the model's choice (log entry 3). -/
def Obligations.CoderStartFaults : Prop :=
  ∀ s : State, s.status.busy = false → s.engine = .idle →
    let badWindow := s.regs.bsend.toNat < s.regs.bsptr.toNat ∨ s.cfg.bsSize < s.regs.bsend.toNat
    let badWidth := 0 < s.regs.size.toNat ∧ s.regs.width.toNat = 0
    let scale := s.regs.hscale.toInt
    (badWindow ∨ badWidth →
      (∃ t, exec .declow s = .next t ∧ StartFault .badConfig s t) ∧
      (∃ t, exec .dechigh s = .next t ∧ StartFault .badConfig s t)) ∧
    (¬badWindow → ¬badWidth → scale = 0 → ∃ t, exec .dechigh s = .next t ∧ StartFault .idScaleZero s t) ∧
    (¬badWindow → ¬badWidth → 32768 ≤ scale ∨ scale ≤ -32769 →
      ∃ t, exec .dechigh s = .next t ∧ StartFault .idNbitsRange s t)

/-! ### Codewords -/

/-- R165 to R168, R171 to R173: the three low value forms, with their lengths, values, coefficients and new states. That
the hidden scratch, and the working registers after the last codeword, keep their values is the model's choice (log
entry 3). -/
def Obligations.LowValueForms : Prop :=
  ∀ s : State,
    let n := valueWidth s.work.state.toNat
    let x (escape : Nat) := escape + s.work.flag.toNat
    let coef (x : Nat) : Int := if x % 2 = 1 then -(((x + 1) / 2 : Nat) : Int) else (((x + 1) / 2 : Nat) : Int)
    (∀ k, k ≤ 7 → ValueReady .low (k + n) (newState 120 s (x ((2 ^ n - 1) * k))) s →
      ∃ t, exec (.lvS k) s = .next t ∧
        ValueEffect .low (k + n) (coef (x ((2 ^ n - 1) * k))) (newState 120 s (x ((2 ^ n - 1) * k))) s t) ∧
    (∀ k v, k ≤ 7 → 2 ≤ v → v ≤ 2 ^ n - 1 →
      ValueReady .low (k + 1 + n) (newState 120 s (x (v + (2 ^ n - 1) * k - 1))) s →
      ∃ t, exec (.lvL k v) s = .next t ∧
        ValueEffect .low (k + 1 + n) (coef (x (v + (2 ^ n - 1) * k - 1))) (newState 120 s (x (v + (2 ^ n - 1) * k - 1))) s t) ∧
    (∀ e : BitVec 16, ValueReady .low 24 (newState 120 s (x e.toNat)) s →
      ∃ t, exec (.lvX e) s = .next t ∧ ValueEffect .low 24 (coef (x e.toNat)) (newState 120 s (x e.toNat)) s t)

/-- R169, R174 to R177: the three low run forms. That the hidden scratch, and the working registers after the last
codeword, keep their values is the model's choice (log entry 3). -/
def Obligations.LowRunForms : Prop :=
  ∀ s : State,
    let n := runWidth s.work.state.toNat
    (∀ k, k ≤ 7 → RunReady .low (k + n) ((2 ^ n - 1) * k) s →
      ∃ t, exec (.lrS k) s = .next t ∧ RunEffect .low (k + n) ((2 ^ n - 1) * k) s t) ∧
    (∀ k v, k ≤ 7 → 2 ≤ v → v ≤ 2 ^ n - 1 → RunReady .low (k + 1 + n) (v + (2 ^ n - 1) * k - 1) s →
      ∃ t, exec (.lrL k v) s = .next t ∧ RunEffect .low (k + 1 + n) (v + (2 ^ n - 1) * k - 1) s t) ∧
    (∀ r : BitVec 16, RunReady .low 24 r.toNat s →
      ∃ t, exec (.lrX r) s = .next t ∧ RunEffect .low 24 r.toNat s t)

/-- R206 to R209, R211 to R213: the three high value forms. That the hidden scratch, and the working registers after the
last codeword, keep their values is the model's choice (log entry 3). -/
def Obligations.HighValueForms : Prop :=
  ∀ s : State,
    let n := valueWidth s.work.state.toNat
    let c := s.regs.hc.toInt
    let d := s.regs.hd.toInt
    let x (cnt1 : Nat) := s.work.flag.toNat + cnt1
    let coef (x : Nat) : Int :=
      if x = 0 then 0
      else if x % 2 = 1 then -(c * (((x + 1) / 2 : Nat) : Int) + c / 2) else c * (((x + 1) / 2 : Nat) : Int) + c / 2
    (∀ k, k < s.work.length → ValueReady .high (k + n) (newState d s (x ((2 ^ n - 1) * k))) s →
      ∃ t, exec (.hvS k) s = .next t ∧
        ValueEffect .high (k + n) (coef (x ((2 ^ n - 1) * k))) (newState d s (x ((2 ^ n - 1) * k))) s t) ∧
    (∀ k v, k < s.work.length → 2 ≤ v → v ≤ 2 ^ n - 1 →
      ValueReady .high (k + 1 + n) (newState d s (x ((2 ^ n - 1) * k + v - 1))) s →
      ∃ t, exec (.hvL k v) s = .next t ∧
        ValueEffect .high (k + 1 + n) (coef (x ((2 ^ n - 1) * k + v - 1))) (newState d s (x ((2 ^ n - 1) * k + v - 1))) s t) ∧
    (∀ e, s.coderInv → e < 2 ^ s.work.nbits → ValueReady .high 25 (newState d s (x e)) s →
      ∃ t, exec (.hvX e) s = .next t ∧ ValueEffect .high 25 (coef (x e)) (newState d s (x e)) s t)

/-- R210, R214 to R218: the four high run forms; the offset `8 * M` of the two escapes. That the hidden scratch, and the
working registers after the last codeword, keep their values is the model's choice (log entry 3). -/
def Obligations.HighRunForms : Prop :=
  ∀ s : State,
    let n := runWidth s.work.state.toNat
    (∀ k, k ≤ 7 → (2 ^ n - 1) * k ≤ 0xFFFF → RunReady .high (k + n) ((2 ^ n - 1) * k) s →
      ∃ t, exec (.hrS k) s = .next t ∧ RunEffect .high (k + n) ((2 ^ n - 1) * k) s t) ∧
    (∀ k v, k ≤ 7 → 2 ≤ v → v ≤ 2 ^ n - 1 → v + (2 ^ n - 1) * k - 1 ≤ 0xFFFF →
      RunReady .high (k + 1 + n) (v + (2 ^ n - 1) * k - 1) s →
      ∃ t, exec (.hrL k v) s = .next t ∧ RunEffect .high (k + 1 + n) (v + (2 ^ n - 1) * k - 1) s t) ∧
    (∀ u : BitVec 8, u.toNat + 8 * (2 ^ n - 1) ≤ 0xFFFF → RunReady .high 17 (u.toNat + 8 * (2 ^ n - 1)) s →
      ∃ t, exec (.hrX8 u) s = .next t ∧ RunEffect .high 17 (u.toNat + 8 * (2 ^ n - 1)) s t) ∧
    (∀ u : BitVec 16, u.toNat + 8 * (2 ^ n - 1) ≤ 0xFFFF → RunReady .high 25 (u.toNat + 8 * (2 ^ n - 1)) s →
      ∃ t, exec (.hrX16 u) s = .next t ∧ RunEffect .high 25 (u.toNat + 8 * (2 ^ n - 1)) s t)

/-- R98, R332: a codeword whose bits pass the limit has no effect but the fault. That the whole length decides is DEDUCED
(log entry 15; `ReaderAgreesWithDecoder` compares it with the reader), and that the cursor and the other working registers
keep their values, which no rule can observe, is the model's choice (log entries 3, 15). -/
def Obligations.CodewordBitsExhausted : Prop :=
  ∀ (s : State) (c : Ctx) (i : Instr), s.coderInv → s.ctx = some c → i.wf c = true → i.isCodeword = true →
    s.limit < s.work.pos + i.bitLength c →
    exec i s = .next { s with status := s.status.faultOf .idBitsExhausted, engine := .idle }

/-- R177, R218, R333, R334: a run that is too long, for each of the seven run forms, in the order of the tests: the high
variant first rejects a run above `0xFFFF`, then both reject one that passes `SIZE`; no zero is written. That the hidden
scratch keeps its contents is the model's choice (log entry 3). -/
def Obligations.RunRejections : Prop :=
  ∀ (s : State) (c : Ctx) (i : Instr) (v : Variant) (rlen : Nat), s.coderInv → s.engine = .run v → s.ctx = some c →
    i.wf c = true → runNumber c.n i = some rlen → s.work.pos + i.bitLength c ≤ s.limit →
    (v = .high → 0xFFFF < rlen → ∃ t, exec i s = .next t ∧ CodewordFault .idRunTooLong s t ∧ t.pm = s.pm) ∧
    (v = .low ∨ rlen ≤ 0xFFFF → s.regs.size.toNat < s.work.i.toNat + rlen →
      ∃ t, exec i s = .next t ∧ CodewordFault .idRunOverrun s t ∧ t.pm = s.pm)

/-- R208, R337: for each high value form, when the new state leaves its range, the coefficient has been stored and the
command faults. That the hidden scratch keeps its contents is the model's choice (log entry 3). -/
def Obligations.StateRangeFault : Prop :=
  ∀ (s : State) (c : Ctx) (i : Instr) (m : Nat), s.coderInv → s.engine = .value .high → s.ctx = some c → i.wf c = true →
    valueNumber c.n i = some m → s.race.raced = false → s.pm.wf = true →
    s.work.pos + i.bitLength c ≤ s.limit → s.emitAddr.toNat < s.cfg.pmSize →
    let x := s.work.flag.toNat + m
    let new := newState s.regs.hd.toInt s x
    (new < 0 ∨ Config.stateMax < new) →
    ∃ t, exec i s = .next t ∧ CodewordFault .idStateRange s t ∧
      t.pm.read s.emitAddr.toNat = BitVec.ofInt 16 (highCoef s.regs.hc.toInt x) ∧
      ∀ a, a ≠ s.emitAddr.toNat → t.pm.read a = s.pm.read a

/-- R66, R342, R346: a value codeword whose cell lies beyond PM faults and writes nothing; a run that fits the region
and whose zero number `m` is the first whose cell lies beyond PM faults there, after its first `m` zeros, which stay
written (R177). That the hidden scratch keeps its contents is the model's choice (log entry 3). -/
def Obligations.CoefficientOutOfBounds : Prop :=
  (∀ (s : State) (c : Ctx) (i : Instr) (v : Variant), s.coderInv → s.engine = .value v → s.ctx = some c → i.wf c = true →
    i.isCodeword = true → s.work.pos + i.bitLength c ≤ s.limit → s.cfg.pmSize ≤ s.emitAddr.toNat →
    ∃ t, exec i s = .next t ∧ CodewordFault .memBounds s t ∧ t.pm = s.pm) ∧
  (∀ (s : State) (c : Ctx) (i : Instr) (v : Variant) (rlen m : Nat), s.coderInv → s.engine = .run v → s.ctx = some c →
    i.wf c = true → runNumber c.n i = some rlen → s.race.raced = false → s.pm.wf = true →
    s.work.pos + i.bitLength c ≤ s.limit → rlen ≤ 0xFFFF → s.work.i.toNat + rlen ≤ s.regs.size.toNat →
    m < rlen → s.cfg.pmSize ≤ (s.coeffAddr (s.work.i.toNat + m)).toNat →
    (∀ k, k < m → (s.coeffAddr (s.work.i.toNat + k)).toNat < s.cfg.pmSize) →
    ∃ t, exec i s = .next t ∧ CodewordFault .memBounds s t ∧
      (∀ k, k < m → t.pm.read (s.coeffAddr (s.work.i.toNat + k)).toNat = 0#16) ∧
      ∀ a, (∀ k, k < m → a ≠ (s.coeffAddr (s.work.i.toNat + k)).toNat) → t.pm.read a = s.pm.read a)

/-- R166: in a `DECLOW` run `ID_STATE_RANGE` cannot happen. -/
def Obligations.LowStateNeverFaults : Prop :=
  ∀ s t : State, s.statusInv → s.coderInv → s.host = [] → (s.engine = .value .low ∨ s.engine = .run .low) →
    step s = .next t → t.status.err ≠ .idStateRange

/-- R163, R170, R346: a codeword writes only cells of coefficients not yet decoded. -/
def Obligations.CodewordWritesItsCells : Prop :=
  ∀ (i : Instr) (s t : State), s.coderInv → i.isCodeword = true → exec i s = .next t →
    ∀ a, (∀ k, s.work.i.toNat ≤ k → k < s.regs.size.toNat → (s.coeffAddr k).toNat ≠ a) → t.pm.read a = s.pm.read a

/-- R390: every coder command ends: from any step of it, at most `2 * (SIZE - i) + 1` steps of the block later it is
idle, however the stream goes on. That one step is one codeword is the model's choice (log entry 7). -/
def Obligations.CoderTerminates : Prop :=
  ∀ s : State, s.statusInv → s.coderInv → s.host = [] →
    ∃ n t, n ≤ 2 * (s.regs.size.toNat - s.work.i.toNat) + 1 ∧ Sys2Proof.core.run n s = .next t ∧ t.engine = .idle

/-- R170, R221, R333: a coder command that ends without a fault has written only its `SIZE` cells, all of which exist,
has left BS alone, and its byte count stays inside the window. That one step is one codeword is the model's choice (log
entry 7); that the idle block stays as it is, log entry 16. -/
def Obligations.CoderRunFrame : Prop :=
  ∀ (i : Instr) (s u t : State) (n : Nat), i = .declow ∨ i = .dechigh → s.statusInv → s.status.busy = false → s.host = [] →
    exec i s = .next u → Sys2Proof.core.run n u = .next t → t.status.done = true →
    t.regs = s.regs ∧ t.bs = s.bs ∧
    (∀ a, (∀ k, k < s.regs.size.toNat → (s.coeffAddr k).toNat ≠ a) → t.pm.read a = s.pm.read a) ∧
    (∀ k, k < s.regs.size.toNat → (s.coeffAddr k).toNat < s.cfg.pmSize) ∧
    s.regs.bsptr.toNat + t.ret.toNat ≤ s.regs.bsend.toNat

/-! ### PREDICT -/

/-- R274: on a region whose cells do not alias, `PREDICT` leaves the two-dimensional inclusive prefix sum, and every other
cell as it was. -/
def Obligations.PredictIsPrefixSum : Prop :=
  ∀ s : State, s.status.busy = false → s.pm.wf = true → s.regs.width.toNat ≤ s.cfg.maxDim →
    s.regs.width.toNat ≤ s.regs.stride.toNat →
    s.regs.dst.toNat + (s.regs.height.toNat - 1) * s.regs.stride.toNat + s.regs.width.toNat ≤ 2 ^ 32 →
    s.regs.dst.toNat + (s.regs.height.toNat - 1) * s.regs.stride.toNat + s.regs.width.toNat ≤ s.cfg.pmSize →
    ∃ t, exec .predict s = .next t ∧ OnlyPlane s t ∧ t.status = s.status.doneOf ∧
      (∀ r j, r < s.regs.height.toNat → j < s.regs.width.toNat →
        t.pm.read (s.regionAddr r j).toNat =
          BitVec.ofInt 16
            (∑ r' ∈ Finset.range (r + 1), ∑ j' ∈ Finset.range (j + 1), (s.pm.read (s.regionAddr r' j').toNat).toInt)) ∧
      (∀ a, (∀ r j, r < s.regs.height.toNat → j < s.regs.width.toNat → (s.regionAddr r j).toNat ≠ a) →
        t.pm.read a = s.pm.read a)

/-- R74, R271, R272, R276: `PREDICT` completes on every region inside PM, aliased or empty, with the PM that its
accesses give one at a time in the order of R272, and touches no other cell. -/
def Obligations.PredictCompletes : Prop :=
  ∀ s : State, s.status.busy = false → s.regs.width.toNat ≤ s.cfg.maxDim →
    (∀ r j, r < s.regs.height.toNat → j < s.regs.width.toNat → (s.regionAddr r j).toNat < s.cfg.pmSize) →
    ∃ t, exec .predict s = .next t ∧ OnlyPlane s t ∧ t.status = s.status.doneOf ∧
      t.pm = predictFold s (s.regs.width.toNat * s.regs.height.toNat) ∧
      (∀ a, (∀ r j, r < s.regs.height.toNat → j < s.regs.width.toNat → (s.regionAddr r j).toNat ≠ a) →
        t.pm.read a = s.pm.read a)

/-- R271, R338, R342: `PREDICT` wider than the cache faults before any access; an empty region completes with no access;
a region whose sample number `m`, counted row by row, is the first beyond PM faults at that sample, and what the earlier
samples wrote stays written (R66, R272). -/
def Obligations.PredictChecks : Prop :=
  ∀ s : State, s.status.busy = false →
    (s.cfg.maxDim < s.regs.width.toNat →
      exec .predict s = .next { s with status := s.status.faultOf .outOfMemory, engine := .idle }) ∧
    (s.regs.width.toNat ≤ s.cfg.maxDim → s.regs.width.toNat = 0 ∨ s.regs.height.toNat = 0 →
      exec .predict s = .next { s with status := s.status.doneOf, engine := .idle }) ∧
    (∀ m, s.regs.width.toNat ≤ s.cfg.maxDim → m < s.regs.width.toNat * s.regs.height.toNat →
      s.cfg.pmSize ≤ (s.regionAddr (m / s.regs.width.toNat) (m % s.regs.width.toNat)).toNat →
      (∀ k, k < m → (s.regionAddr (k / s.regs.width.toNat) (k % s.regs.width.toNat)).toNat < s.cfg.pmSize) →
      ∃ t, exec .predict s = .next t ∧ OnlyPlane s t ∧ t.status = s.status.faultOf .memBounds ∧ t.pm = predictFold s m)

/-! ### FILT1D and IDWT -/

/-- R292 to R294, R296, R298: `FILT1D` on `N` distinct cells of PM writes output `2i` from `E(i)` and `2i + 1` from `O(i)`,
all from the cells as they were, and touches no other cell. -/
def Obligations.Filt1dResult : Prop :=
  ∀ s : State,
    let N := s.regs.size.toNat
    let cell (t : Nat) := (elemAddr s.regs.dst s.regs.stride t).toNat
    let x (t : Nat) := s.pm.read (cell t)
    s.status.busy = false → s.pm.wf = true → 2 ≤ N → N % 2 = 0 → N ≤ s.cfg.maxDim → f64Finite s.regs.fscale = true →
    (∀ t, t < N → cell t < s.cfg.pmSize) → (∀ t u, t < N → u < N → cell t = cell u → t = u) →
    ∃ t, exec .filt1d s = .next t ∧ OnlyPlane s t ∧ t.status = s.status.doneOf ∧
      (∀ i, i < N / 2 →
        t.pm.read (cell (2 * i)) = scaleNarrow s.regs.fscale (refEven x (N / 2) i) ∧
        t.pm.read (cell (2 * i + 1)) = scaleNarrow s.regs.fscale (refOdd x (N / 2) i)) ∧
      (∀ a, (∀ u, u < N → cell u ≠ a) → t.pm.read a = s.pm.read a)

/-- R291, R298: `FILT1D` completes for every pitch, 0 included, with the result of writing the outputs in order; it
touches no cell but its operands. -/
def Obligations.Filt1dCompletes : Prop :=
  ∀ s : State,
    let N := s.regs.size.toNat
    let f : FilterApp := { base := s.regs.dst, n := N, pitch := s.regs.stride, scale := s.regs.fscale }
    s.status.busy = false → 2 ≤ N → N % 2 = 0 → N ≤ s.cfg.maxDim → f64Finite s.regs.fscale = true →
    (∀ t, t < N → f.addr t < s.cfg.pmSize) →
    ∃ t, exec .filt1d s = .next t ∧ OnlyPlane s t ∧ t.status = s.status.doneOf ∧ t.pm = FilterApp.apply s.pm f ∧
      (∀ a, (∀ u, u < N → f.addr u ≠ a) → t.pm.read a = s.pm.read a)

/-- R291, R298, R339, R345: the faults of `FILT1D` in their order; when a cell to be read lies beyond PM, nothing has
been written. That the working registers and the hidden scratch keep their values, `low` and `high` among them, which
R298 fills as it reads, is the model's choice (log entry 3). -/
def Obligations.Filt1dFaults : Prop :=
  ∀ s : State, s.status.busy = false →
    let N := s.regs.size.toNat
    (N < 2 ∨ N % 2 = 1 → exec .filt1d s = .next { s with status := s.status.faultOf .badConfig, engine := .idle }) ∧
    (2 ≤ N → N % 2 = 0 → s.cfg.maxDim < N →
      exec .filt1d s = .next { s with status := s.status.faultOf .outOfMemory, engine := .idle }) ∧
    (2 ≤ N → N % 2 = 0 → N ≤ s.cfg.maxDim → f64Finite s.regs.fscale = false →
      exec .filt1d s = .next { s with status := s.status.faultOf .badConfig, engine := .idle }) ∧
    (∀ t, 2 ≤ N → N % 2 = 0 → N ≤ s.cfg.maxDim → f64Finite s.regs.fscale = true → t < N →
      s.cfg.pmSize ≤ (elemAddr s.regs.dst s.regs.stride t).toNat →
      exec .filt1d s = .next { s with status := s.status.faultOf .memBounds, engine := .idle })

/-- R300 to R302: `IDWT p` is the filter applied to every row and then every column of the four growing blocks, with the
scales of R300; there are `(15/8) * (PW[p] + PH[p])` applications; no cell outside the plane changes. -/
def Obligations.IdwtResult : Prop :=
  ∀ (s : State) (p : Plane), s.cfg.wf = true → s.status.busy = false → s.layoutInv → s.status.lvalid = true →
    (s.scale.get p).hor.finite = true → (s.scale.get p).ver.finite = true →
    (∀ x y, x < (s.pw.get p).toNat → y < (s.ph.get p).toNat → (s.planeAddr p x y).toNat < s.cfg.pmSize) →
    ∃ t, exec (.idwt p) s = .next t ∧ OnlyPlane s t ∧ t.status = s.status.doneOf ∧
      t.pm = (idwtSchedule s p).foldl FilterApp.apply s.pm ∧
      8 * (idwtSchedule s p).length = 15 * ((s.pw.get p).toNat + (s.ph.get p).toNat) ∧
      (∀ a, (∀ x y, x < (s.pw.get p).toNat → y < (s.ph.get p).toNat → (s.planeAddr p x y).toNat ≠ a) →
        t.pm.read a = s.pm.read a)

/-- R302, R339, R345: `IDWT` without a valid layout, or with a scale that is not finite, faults before any access. R66,
R301, R346: when the filter application `f`, number `m` of the schedule, is the first with a cell beyond PM, `IDWT` faults
there, and what the earlier applications wrote stays written. -/
def Obligations.IdwtFaults : Prop :=
  ∀ (s : State) (p : Plane), s.status.busy = false →
    ((s.status.lvalid = false ∨ (s.scale.get p).hor.finite = false ∨ (s.scale.get p).ver.finite = false) →
      exec (.idwt p) s = .next { s with status := s.status.faultOf .badConfig, engine := .idle }) ∧
    (∀ (m : Nat) (f : FilterApp), s.status.lvalid = true → (s.scale.get p).hor.finite = true →
      (s.scale.get p).ver.finite = true → (idwtSchedule s p)[m]? = some f →
      (∀ g ∈ (idwtSchedule s p).take m, ∀ t, t < g.n → g.addr t < s.cfg.pmSize) →
      (∃ t, t < f.n ∧ s.cfg.pmSize ≤ f.addr t) →
      ∃ t, exec (.idwt p) s = .next t ∧ OnlyPlane s t ∧ t.status = s.status.faultOf .memBounds ∧
        t.pm = ((idwtSchedule s p).take m).foldl FilterApp.apply s.pm)

/-! ### Filter numerics -/

/-- R11: rounding to an integer multiple of `2^d` is to the nearest, ties to even. -/
def Obligations.RoundEvenIsNearest : Prop :=
  ∀ a d : Nat,
    2 * ((roundEven a d : Int) * 2 ^ d - a).natAbs ≤ 2 ^ d ∧
    (2 * ((roundEven a d : Int) * 2 ^ d - a).natAbs = 2 ^ d → roundEven a d % 2 = 0)

/-- R11, R296: `RNE64` gives a binary64 number, and none is nearer. -/
def Obligations.RoundToBinary64IsNearest : Prop :=
  ∀ x y : BinValue, rne64 x = .num y →
    IsF64 y.toRat ∧ ∀ q : ℚ, IsF64 q → |x.toRat - y.toRat| ≤ |x.toRat - q|

/-- R11, R296: `RNE64` overflows to an infinity of the right sign, exactly at and beyond the midpoint above the largest
binary64 number. -/
def Obligations.RoundOverflow : Prop :=
  ∀ x : BinValue,
    ((∃ negative, rne64 x = .inf negative) ↔ ((2 : ℚ) ^ 54 - 1) * 2 ^ 970 ≤ |x.toRat|) ∧
    (∀ negative, rne64 x = .inf negative → (negative = true ↔ x.toRat < 0))

/-- R9, R295: clipping and then dropping the fraction, for a finite number and for an infinity. -/
def Obligations.ClipAndTruncate : Prop :=
  (∀ x : BinValue,
    (clip16 (.num x)).trunc = max (-32768) (min 32767 (if 0 ≤ x.toRat then ⌊x.toRat⌋ else ⌈x.toRat⌉))) ∧
  (clip16 (.inf false)).trunc = 32767 ∧ (clip16 (.inf true)).trunc = -32768

/-! ### Hidden state -/

/-- R27, R49 to R51: no step observes the hidden scratch, the working registers of an idle block, or the constants of
the other variant: two states that differ only there go on to states that differ only there. -/
def Obligations.HiddenStateUnobservable : Prop :=
  ∀ s t s' : State, SameVisible s t → step s = .next s' → ∃ t', step t = .next t' ∧ SameVisible s' t'
end

