-- ==== Sys2Proof/Laws/Memory.lean ====
section
/-! SUPPORT. The laws of the memories: a read after a write, and that every operation keeps the canonical form and the
bound. -/

namespace Sys2Proof.Machine

variable {w : Nat}

@[simp] theorem Memory.read_nil (a : Nat) : Memory.read ([] : Memory w) a = 0#w := rfl

theorem Memory.wf_cons {c : Nat × BitVec w} {m : Memory w} :
    Memory.wf (c :: m) = true ↔ c.2 ≠ 0#w ∧ (∀ d ∈ m, c.1 < d.1) ∧ m.wf = true := by
  obtain ⟨a, v⟩ := c
  simp [Memory.wf, and_assoc]

/-- An address below every listed one reads as an unlisted cell. -/
theorem Memory.read_of_all_gt (m : Memory w) (a : Nat) (h : ∀ d ∈ m, a < d.1) : m.read a = 0#w := by
  induction m with
  | nil => rfl
  | cons c m ih =>
    have hc := h c (by simp)
    have : ¬ a = c.1 := by omega
    simp only [Memory.read, if_neg this]
    exact ih (fun d hd => h d (by simp [hd]))

/-- A write leaves every other cell alone. -/
theorem Memory.read_write_ne (m : Memory w) {a b : Nat} (v : BitVec w) (h : b ≠ a) :
    (m.write a v).read b = m.read b := by
  induction m with
  | nil => simp only [Memory.write]; split <;> simp [Memory.read, h]
  | cons c m ih =>
    obtain ⟨k, u⟩ := c
    simp only [Memory.write]
    split_ifs <;> simp_all [Memory.read]

/-- A read after a write of the same cell gives the value written. -/
theorem Memory.read_write_same (m : Memory w) (a : Nat) (v : BitVec w) (h : m.wf = true) :
    (m.write a v).read a = v := by
  induction m with
  | nil => simp only [Memory.write]; split <;> simp_all [Memory.read]
  | cons c m ih =>
    obtain ⟨k, u⟩ := c
    obtain ⟨-, hgt, hm⟩ := Memory.wf_cons.1 h
    simp only [Memory.write]
    split_ifs with hlt hv heq hv
    · have : ¬ a = k := by omega
      simp only [Memory.read, if_neg this, hv]
      exact Memory.read_of_all_gt m a (fun d hd => lt_trans hlt (hgt d hd))
    · simp [Memory.read]
    · rw [hv, heq]; exact Memory.read_of_all_gt m k hgt
    · simp [Memory.read]
    · simp only [Memory.read, if_neg heq]; exact ih hm

theorem Memory.read_write (m : Memory w) (a b : Nat) (v : BitVec w) (h : m.wf = true) :
    (m.write a v).read b = if b = a then v else m.read b := by
  split_ifs with hb
  · rw [hb]; exact m.read_write_same a v h
  · exact m.read_write_ne v hb

/-- What a write can list: the cell written, or a cell listed before. -/
theorem Memory.mem_write {m : Memory w} {a : Nat} {v : BitVec w} {d : Nat × BitVec w} (h : d ∈ m.write a v) :
    d.1 = a ∨ d ∈ m := by
  induction m with
  | nil =>
    simp only [Memory.write] at h
    split_ifs at h <;> simp_all
  | cons c m ih =>
    obtain ⟨k, u⟩ := c
    simp only [Memory.write] at h
    split_ifs at h <;> simp only [List.mem_cons] at h ⊢
    · tauto
    · rcases h with rfl | h <;> tauto
    · tauto
    · rcases h with rfl | h <;> tauto
    · rcases h with rfl | h
      · tauto
      · rcases ih h with h | h <;> tauto

/-- A write keeps the canonical form. -/
theorem Memory.wf_write (m : Memory w) (a : Nat) (v : BitVec w) (h : m.wf = true) : (m.write a v).wf = true := by
  induction m with
  | nil => simp only [Memory.write]; split <;> simp_all [Memory.wf]
  | cons c m ih =>
    obtain ⟨k, u⟩ := c
    obtain ⟨hu, hgt, hm⟩ := Memory.wf_cons.1 h
    simp only [Memory.write]
    split_ifs with hlt hv heq hv
    · exact h
    · refine Memory.wf_cons.2 ⟨hv, ?_, h⟩
      intro d hd
      rcases List.mem_cons.1 hd with rfl | hd
      · exact hlt
      · exact lt_trans hlt (hgt d hd)
    · exact hm
    · exact Memory.wf_cons.2 ⟨hv, fun d hd => heq ▸ hgt d hd, hm⟩
    · refine Memory.wf_cons.2 ⟨hu, ?_, ih hm⟩
      intro d hd
      rcases Memory.mem_write hd with h' | h'
      · simp only at h' ⊢; omega
      · exact hgt d h'

theorem Memory.within_iff {m : Memory w} {size : Nat} : m.within size = true ↔ ∀ d ∈ m, d.1 < size := by
  simp [Memory.within]

/-- A write below the bound keeps every listed address below it. -/
theorem Memory.within_write (m : Memory w) (a size : Nat) (v : BitVec w) (h : m.within size = true) (ha : a < size) :
    (m.write a v).within size = true := by
  rw [Memory.within_iff] at h ⊢
  intro d hd
  rcases Memory.mem_write hd with h' | h'
  · omega
  · exact h d h'

/-- Several writes keep the canonical form. -/
theorem Memory.wf_replay (m : Memory w) (writes : List (Nat × BitVec w)) (h : m.wf = true) :
    (m.replay writes).wf = true := by
  induction writes generalizing m with
  | nil => exact h
  | cons c cs ih => exact ih _ (m.wf_write _ _ h)

/-- Several writes below the bound keep every listed address below it. -/
theorem Memory.within_replay (m : Memory w) (writes : List (Nat × BitVec w)) (size : Nat) (h : m.within size = true)
    (ha : ∀ c ∈ writes, c.1 < size) : (m.replay writes).within size = true := by
  induction writes generalizing m with
  | nil => exact h
  | cons c cs ih =>
    exact ih _ (m.within_write _ _ _ h (ha c (by simp))) (fun d hd => ha d (by simp [hd]))

/-- Several writes leave every other cell alone. -/
theorem Memory.read_replay_ne (m : Memory w) (writes : List (Nat × BitVec w)) (a : Nat) (ha : ∀ c ∈ writes, a ≠ c.1) :
    (m.replay writes).read a = m.read a := by
  induction writes generalizing m with
  | nil => rfl
  | cons c cs ih =>
    exact (ih _ (fun d hd => ha d (by simp [hd]))).trans (m.read_write_ne _ (ha c (by simp)))

@[simp] theorem Memory.replay_nil (m : Memory w) : m.replay [] = m := rfl

theorem Memory.replay_append (m : Memory w) (xs ys : List (Nat × BitVec w)) :
    m.replay (xs ++ ys) = (m.replay xs).replay ys := List.foldl_append ..

/-- Storing bytes keeps the canonical form. -/
theorem Memory.wf_storeBytes (m : Memory 8) (base count x : Nat) (h : m.wf = true) :
    (m.storeBytes base count x).wf = true := by
  unfold Memory.storeBytes
  induction List.range count generalizing m with
  | nil => exact h
  | cons k ks ih => exact ih _ (m.wf_write _ _ h)

end Sys2Proof.Machine
end

