-- ==== Sys2Proof/Laws/PerInstr.lean ====
section
/-! SUPPORT. Statements about every instruction as syntax, one lemma per constructor. -/

namespace Sys2Proof.Laws.Length

/-- In every context of R106 an instruction has at least 1 and at most 38 bits (R103, R221: a prefix of at most 23 ones,
its terminator, a suffix of at most 14 bits). -/
def Statement (i : Instr) : Prop :=
  ∀ c : Ctx, c.wf = true → i.wf c = true → 1 ≤ i.bitLength c ∧ i.bitLength c ≤ 38

/-- The bounds a context gives a short or long form. -/
theorem bounds {c : Ctx} (h : c.wf = true) : 1 ≤ c.n ∧ c.n ≤ 14 ∧ c.cap ≤ 24 := by
  obtain ⟨kind, n, nbits⟩ := c
  cases kind <;> simp [Ctx.wf, Ctx.cap, Config.shortCap, Config.highTotal] at h ⊢ <;> omega

theorem short {c : Ctx} {kind : Kind} {k : Nat} (h : c.wf = true) (hi : c.admitsShort kind k = true) :
    1 ≤ k + c.n ∧ k + c.n ≤ 38 := by
  have hb := bounds h
  simp [Ctx.admitsShort] at hi
  omega

theorem long {c : Ctx} {kind : Kind} {k v : Nat} (h : c.wf = true) (hi : c.admitsLong kind k v = true) :
    1 ≤ k + 1 + c.n ∧ k + 1 + c.n ≤ 38 := by
  have hb := bounds h
  simp [Ctx.admitsLong] at hi
  omega

theorem layout : Statement .layout := fun _ _ _ => by simp [Instr.bitLength]
theorem declow : Statement .declow := fun _ _ _ => by simp [Instr.bitLength]
theorem dechigh : Statement .dechigh := fun _ _ _ => by simp [Instr.bitLength]
theorem predict : Statement .predict := fun _ _ _ => by simp [Instr.bitLength]
theorem filt1d : Statement .filt1d := fun _ _ _ => by simp [Instr.bitLength]
theorem idwt (p : Plane) : Statement (.idwt p) := fun _ _ _ => by simp [Instr.bitLength]
theorem lvS (k : Nat) : Statement (.lvS k) := fun _ h hi => short h hi
theorem lvL (k v : Nat) : Statement (.lvL k v) := fun _ h hi => long h hi
theorem lvX (e : BitVec 16) : Statement (.lvX e) := fun _ _ _ => by simp [Instr.bitLength]
theorem lrS (k : Nat) : Statement (.lrS k) := fun _ h hi => short h hi
theorem lrL (k v : Nat) : Statement (.lrL k v) := fun _ h hi => long h hi
theorem lrX (r : BitVec 16) : Statement (.lrX r) := fun _ _ _ => by simp [Instr.bitLength]
theorem hvS (k : Nat) : Statement (.hvS k) := fun _ h hi => short h hi
theorem hvL (k v : Nat) : Statement (.hvL k v) := fun _ h hi => long h hi
theorem hvX (e : Nat) : Statement (.hvX e) := fun _ _ _ => by simp [Instr.bitLength, Config.highTotal]
theorem hrS (k : Nat) : Statement (.hrS k) := fun _ h hi => short h hi
theorem hrL (k v : Nat) : Statement (.hrL k v) := fun _ h hi => long h hi
theorem hrX8 (u : BitVec 8) : Statement (.hrX8 u) := fun _ _ _ => by simp [Instr.bitLength]
theorem hrX16 (u : BitVec 16) : Statement (.hrX16 u) := fun _ _ _ => by simp [Instr.bitLength]

end Sys2Proof.Laws.Length
end

