-- ==== Sys2Proof/Laws/State.lean ====
section
/-! SUPPORT. The small lemmas of the state: one per field per update, true by `rfl`, so that no later proof unfolds a
record update. -/

namespace Sys2Proof.Machine

/-! ### `State.accept` -/

@[simp] theorem accept_cfg (s : State) : s.accept.cfg = s.cfg := rfl
@[simp] theorem accept_ret (s : State) : s.accept.ret = s.ret := rfl
@[simp] theorem accept_regs (s : State) : s.accept.regs = s.regs := rfl
@[simp] theorem accept_scale (s : State) : s.accept.scale = s.scale := rfl
@[simp] theorem accept_pw (s : State) : s.accept.pw = s.pw := rfl
@[simp] theorem accept_ph (s : State) : s.accept.ph = s.ph := rfl
@[simp] theorem accept_band (s : State) : s.accept.band = s.band := rfl
@[simp] theorem accept_work (s : State) : s.accept.work = s.work := rfl
@[simp] theorem accept_engine (s : State) : s.accept.engine = s.engine := rfl
@[simp] theorem accept_scratch (s : State) : s.accept.scratch = s.scratch := rfl
@[simp] theorem accept_bs (s : State) : s.accept.bs = s.bs := rfl
@[simp] theorem accept_pm (s : State) : s.accept.pm = s.pm := rfl
@[simp] theorem accept_host (s : State) : s.accept.host = s.host := rfl
@[simp] theorem accept_rdata (s : State) : s.accept.rdata = s.rdata := rfl
@[simp] theorem accept_race (s : State) : s.accept.race = s.race := rfl
@[simp] theorem accept_pmLog (s : State) : s.accept.pmLog = s.pmLog := rfl
@[simp] theorem accept_status (s : State) :
    s.accept.status = { s.status with busy := true, done := false, fault := false, err := .none } := rfl

/-! ### `State.raise` -/

@[simp] theorem raise_cfg (s : State) (code : ErrCode) : (s.raise code).cfg = s.cfg := rfl
@[simp] theorem raise_ret (s : State) (code : ErrCode) : (s.raise code).ret = s.ret := rfl
@[simp] theorem raise_regs (s : State) (code : ErrCode) : (s.raise code).regs = s.regs := rfl
@[simp] theorem raise_scale (s : State) (code : ErrCode) : (s.raise code).scale = s.scale := rfl
@[simp] theorem raise_pw (s : State) (code : ErrCode) : (s.raise code).pw = s.pw := rfl
@[simp] theorem raise_ph (s : State) (code : ErrCode) : (s.raise code).ph = s.ph := rfl
@[simp] theorem raise_band (s : State) (code : ErrCode) : (s.raise code).band = s.band := rfl
@[simp] theorem raise_work (s : State) (code : ErrCode) : (s.raise code).work = s.work := rfl
@[simp] theorem raise_scratch (s : State) (code : ErrCode) : (s.raise code).scratch = s.scratch := rfl
@[simp] theorem raise_bs (s : State) (code : ErrCode) : (s.raise code).bs = s.bs := rfl
@[simp] theorem raise_pm (s : State) (code : ErrCode) : (s.raise code).pm = s.pm := rfl
@[simp] theorem raise_host (s : State) (code : ErrCode) : (s.raise code).host = s.host := rfl
@[simp] theorem raise_rdata (s : State) (code : ErrCode) : (s.raise code).rdata = s.rdata := rfl
@[simp] theorem raise_race (s : State) (code : ErrCode) : (s.raise code).race = s.race := rfl
@[simp] theorem raise_pmLog (s : State) (code : ErrCode) : (s.raise code).pmLog = s.pmLog := rfl
@[simp] theorem raise_status (s : State) (code : ErrCode) :
    (s.raise code).status = { s.status with err := code, fault := true, sticky := true, done := false, busy := false } := rfl
@[simp] theorem raise_engine (s : State) (code : ErrCode) :
    (s.raise code).engine = .idle := rfl

/-! ### `State.complete` -/

@[simp] theorem complete_cfg (s : State) : s.complete.cfg = s.cfg := rfl
@[simp] theorem complete_ret (s : State) : s.complete.ret = s.ret := rfl
@[simp] theorem complete_regs (s : State) : s.complete.regs = s.regs := rfl
@[simp] theorem complete_scale (s : State) : s.complete.scale = s.scale := rfl
@[simp] theorem complete_pw (s : State) : s.complete.pw = s.pw := rfl
@[simp] theorem complete_ph (s : State) : s.complete.ph = s.ph := rfl
@[simp] theorem complete_band (s : State) : s.complete.band = s.band := rfl
@[simp] theorem complete_work (s : State) : s.complete.work = s.work := rfl
@[simp] theorem complete_scratch (s : State) : s.complete.scratch = s.scratch := rfl
@[simp] theorem complete_bs (s : State) : s.complete.bs = s.bs := rfl
@[simp] theorem complete_pm (s : State) : s.complete.pm = s.pm := rfl
@[simp] theorem complete_host (s : State) : s.complete.host = s.host := rfl
@[simp] theorem complete_rdata (s : State) : s.complete.rdata = s.rdata := rfl
@[simp] theorem complete_race (s : State) : s.complete.race = s.race := rfl
@[simp] theorem complete_pmLog (s : State) : s.complete.pmLog = s.pmLog := rfl
@[simp] theorem complete_status (s : State) :
    s.complete.status = { s.status with err := .none, done := true, fault := false, busy := false } := rfl
@[simp] theorem complete_engine (s : State) :
    s.complete.engine = .idle := rfl

/-! ### `State.retire` -/

@[simp] theorem retire_cfg (s : State) : s.retire.cfg = s.cfg := rfl
@[simp] theorem retire_regs (s : State) : s.retire.regs = s.regs := rfl
@[simp] theorem retire_scale (s : State) : s.retire.scale = s.scale := rfl
@[simp] theorem retire_pw (s : State) : s.retire.pw = s.pw := rfl
@[simp] theorem retire_ph (s : State) : s.retire.ph = s.ph := rfl
@[simp] theorem retire_band (s : State) : s.retire.band = s.band := rfl
@[simp] theorem retire_scratch (s : State) : s.retire.scratch = s.scratch := rfl
@[simp] theorem retire_bs (s : State) : s.retire.bs = s.bs := rfl
@[simp] theorem retire_pm (s : State) : s.retire.pm = s.pm := rfl
@[simp] theorem retire_host (s : State) : s.retire.host = s.host := rfl
@[simp] theorem retire_rdata (s : State) : s.retire.rdata = s.rdata := rfl
@[simp] theorem retire_race (s : State) : s.retire.race = s.race := rfl
@[simp] theorem retire_pmLog (s : State) : s.retire.pmLog = s.pmLog := rfl
@[simp] theorem retire_status (s : State) :
    s.retire.status = { s.status with err := .none, done := true, fault := false, busy := false } := rfl
@[simp] theorem retire_engine (s : State) :
    s.retire.engine = .idle := rfl
@[simp] theorem retire_work (s : State) :
    s.retire.work = { s.work with pos := alignUp s.work.pos } := rfl
@[simp] theorem retire_ret (s : State) :
    s.retire.ret =
      if s.race.raced then Config.raceRet s.race.draws else BitVec.ofNat 32 (alignUp s.work.pos / 8) := rfl

/-! ### `State.coderInit` -/

@[simp] theorem coderInit_cfg (s : State) : s.coderInit.cfg = s.cfg := rfl
@[simp] theorem coderInit_status (s : State) : s.coderInit.status = s.status := rfl
@[simp] theorem coderInit_ret (s : State) : s.coderInit.ret = s.ret := rfl
@[simp] theorem coderInit_regs (s : State) : s.coderInit.regs = s.regs := rfl
@[simp] theorem coderInit_scale (s : State) : s.coderInit.scale = s.scale := rfl
@[simp] theorem coderInit_pw (s : State) : s.coderInit.pw = s.pw := rfl
@[simp] theorem coderInit_ph (s : State) : s.coderInit.ph = s.ph := rfl
@[simp] theorem coderInit_band (s : State) : s.coderInit.band = s.band := rfl
@[simp] theorem coderInit_engine (s : State) : s.coderInit.engine = s.engine := rfl
@[simp] theorem coderInit_scratch (s : State) : s.coderInit.scratch = s.scratch := rfl
@[simp] theorem coderInit_bs (s : State) : s.coderInit.bs = s.bs := rfl
@[simp] theorem coderInit_pm (s : State) : s.coderInit.pm = s.pm := rfl
@[simp] theorem coderInit_host (s : State) : s.coderInit.host = s.host := rfl
@[simp] theorem coderInit_rdata (s : State) : s.coderInit.rdata = s.rdata := rfl
@[simp] theorem coderInit_race (s : State) : s.coderInit.race = s.race.clear := rfl
@[simp] theorem coderInit_pmLog (s : State) : s.coderInit.pmLog = s.pmLog := rfl
@[simp] theorem coderInit_work (s : State) :
    s.coderInit.work = { s.work with state := 3#32, flag := false, i := 0#32, j := 0#32, row := 0#32, pos := 0 } := rfl

/-! ### `State.setLvalid` -/

@[simp] theorem setLvalid_cfg (s : State) (b : Bool) : (s.setLvalid b).cfg = s.cfg := rfl
@[simp] theorem setLvalid_ret (s : State) (b : Bool) : (s.setLvalid b).ret = s.ret := rfl
@[simp] theorem setLvalid_regs (s : State) (b : Bool) : (s.setLvalid b).regs = s.regs := rfl
@[simp] theorem setLvalid_scale (s : State) (b : Bool) : (s.setLvalid b).scale = s.scale := rfl
@[simp] theorem setLvalid_pw (s : State) (b : Bool) : (s.setLvalid b).pw = s.pw := rfl
@[simp] theorem setLvalid_ph (s : State) (b : Bool) : (s.setLvalid b).ph = s.ph := rfl
@[simp] theorem setLvalid_band (s : State) (b : Bool) : (s.setLvalid b).band = s.band := rfl
@[simp] theorem setLvalid_work (s : State) (b : Bool) : (s.setLvalid b).work = s.work := rfl
@[simp] theorem setLvalid_engine (s : State) (b : Bool) : (s.setLvalid b).engine = s.engine := rfl
@[simp] theorem setLvalid_scratch (s : State) (b : Bool) : (s.setLvalid b).scratch = s.scratch := rfl
@[simp] theorem setLvalid_bs (s : State) (b : Bool) : (s.setLvalid b).bs = s.bs := rfl
@[simp] theorem setLvalid_pm (s : State) (b : Bool) : (s.setLvalid b).pm = s.pm := rfl
@[simp] theorem setLvalid_host (s : State) (b : Bool) : (s.setLvalid b).host = s.host := rfl
@[simp] theorem setLvalid_rdata (s : State) (b : Bool) : (s.setLvalid b).rdata = s.rdata := rfl
@[simp] theorem setLvalid_race (s : State) (b : Bool) : (s.setLvalid b).race = s.race := rfl
@[simp] theorem setLvalid_pmLog (s : State) (b : Bool) : (s.setLvalid b).pmLog = s.pmLog := rfl
@[simp] theorem setLvalid_status (s : State) (b : Bool) :
    (s.setLvalid b).status = { s.status with lvalid := b } := rfl

/-! ### `State.setPred` -/

@[simp] theorem setPred_cfg (s : State) (j : Nat) (v : Sample) : (s.setPred j v).cfg = s.cfg := rfl
@[simp] theorem setPred_status (s : State) (j : Nat) (v : Sample) : (s.setPred j v).status = s.status := rfl
@[simp] theorem setPred_ret (s : State) (j : Nat) (v : Sample) : (s.setPred j v).ret = s.ret := rfl
@[simp] theorem setPred_regs (s : State) (j : Nat) (v : Sample) : (s.setPred j v).regs = s.regs := rfl
@[simp] theorem setPred_scale (s : State) (j : Nat) (v : Sample) : (s.setPred j v).scale = s.scale := rfl
@[simp] theorem setPred_pw (s : State) (j : Nat) (v : Sample) : (s.setPred j v).pw = s.pw := rfl
@[simp] theorem setPred_ph (s : State) (j : Nat) (v : Sample) : (s.setPred j v).ph = s.ph := rfl
@[simp] theorem setPred_band (s : State) (j : Nat) (v : Sample) : (s.setPred j v).band = s.band := rfl
@[simp] theorem setPred_work (s : State) (j : Nat) (v : Sample) : (s.setPred j v).work = s.work := rfl
@[simp] theorem setPred_engine (s : State) (j : Nat) (v : Sample) : (s.setPred j v).engine = s.engine := rfl
@[simp] theorem setPred_bs (s : State) (j : Nat) (v : Sample) : (s.setPred j v).bs = s.bs := rfl
@[simp] theorem setPred_pm (s : State) (j : Nat) (v : Sample) : (s.setPred j v).pm = s.pm := rfl
@[simp] theorem setPred_host (s : State) (j : Nat) (v : Sample) : (s.setPred j v).host = s.host := rfl
@[simp] theorem setPred_rdata (s : State) (j : Nat) (v : Sample) : (s.setPred j v).rdata = s.rdata := rfl
@[simp] theorem setPred_race (s : State) (j : Nat) (v : Sample) : (s.setPred j v).race = s.race := rfl
@[simp] theorem setPred_pmLog (s : State) (j : Nat) (v : Sample) : (s.setPred j v).pmLog = s.pmLog := rfl
@[simp] theorem setPred_scratch (s : State) (j : Nat) (v : Sample) :
    (s.setPred j v).scratch = { s.scratch with pred := s.scratch.pred.set j v } := rfl

/-! ### `State.withRegs` -/

@[simp] theorem withRegs_cfg (s : State) (r : Regs) : (s.withRegs r).cfg = s.cfg := rfl
@[simp] theorem withRegs_status (s : State) (r : Regs) : (s.withRegs r).status = s.status := rfl
@[simp] theorem withRegs_ret (s : State) (r : Regs) : (s.withRegs r).ret = s.ret := rfl
@[simp] theorem withRegs_scale (s : State) (r : Regs) : (s.withRegs r).scale = s.scale := rfl
@[simp] theorem withRegs_pw (s : State) (r : Regs) : (s.withRegs r).pw = s.pw := rfl
@[simp] theorem withRegs_ph (s : State) (r : Regs) : (s.withRegs r).ph = s.ph := rfl
@[simp] theorem withRegs_band (s : State) (r : Regs) : (s.withRegs r).band = s.band := rfl
@[simp] theorem withRegs_work (s : State) (r : Regs) : (s.withRegs r).work = s.work := rfl
@[simp] theorem withRegs_engine (s : State) (r : Regs) : (s.withRegs r).engine = s.engine := rfl
@[simp] theorem withRegs_scratch (s : State) (r : Regs) : (s.withRegs r).scratch = s.scratch := rfl
@[simp] theorem withRegs_bs (s : State) (r : Regs) : (s.withRegs r).bs = s.bs := rfl
@[simp] theorem withRegs_pm (s : State) (r : Regs) : (s.withRegs r).pm = s.pm := rfl
@[simp] theorem withRegs_host (s : State) (r : Regs) : (s.withRegs r).host = s.host := rfl
@[simp] theorem withRegs_rdata (s : State) (r : Regs) : (s.withRegs r).rdata = s.rdata := rfl
@[simp] theorem withRegs_race (s : State) (r : Regs) : (s.withRegs r).race = s.race := rfl
@[simp] theorem withRegs_pmLog (s : State) (r : Regs) : (s.withRegs r).pmLog = s.pmLog := rfl
@[simp] theorem withRegs_regs (s : State) (r : Regs) :
    (s.withRegs r).regs = r := rfl

/-! ### `State.resetBlock` -/

@[simp] theorem resetBlock_cfg (s : State) : s.resetBlock.cfg = s.cfg := rfl
@[simp] theorem resetBlock_bs (s : State) : s.resetBlock.bs = s.bs := rfl
@[simp] theorem resetBlock_pm (s : State) : s.resetBlock.pm = s.pm := rfl
@[simp] theorem resetBlock_host (s : State) : s.resetBlock.host = s.host := rfl
@[simp] theorem resetBlock_rdata (s : State) : s.resetBlock.rdata = s.rdata := rfl
@[simp] theorem resetBlock_race (s : State) : s.resetBlock.race = s.race.clear := rfl
@[simp] theorem resetBlock_pmLog (s : State) : s.resetBlock.pmLog = none := rfl
@[simp] theorem resetBlock_status (s : State) :
    s.resetBlock.status = Status.reset := rfl
@[simp] theorem resetBlock_ret (s : State) :
    s.resetBlock.ret = 0#32 := rfl
@[simp] theorem resetBlock_regs (s : State) :
    s.resetBlock.regs = Regs.reset := rfl
@[simp] theorem resetBlock_work (s : State) :
    s.resetBlock.work = Work.reset := rfl
@[simp] theorem resetBlock_engine (s : State) :
    s.resetBlock.engine = .idle := rfl
@[simp] theorem resetBlock_scratch (s : State) :
    s.resetBlock.scratch = Scratch.reset := rfl

/-! ### `Race.clear` -/

@[simp] theorem clear_raced (r : Race) : r.clear.raced = false := rfl
@[simp] theorem clear_held (r : Race) : r.clear.held = [] := rfl
@[simp] theorem clear_draws (r : Race) : r.clear.draws = r.draws := rfl

/-! ### `State.storeSample` -/

@[simp] theorem storeSample_cfg (s : State) (a : Word) (v : Sample) : (s.storeSample a v).cfg = s.cfg := rfl
@[simp] theorem storeSample_status (s : State) (a : Word) (v : Sample) : (s.storeSample a v).status = s.status := rfl
@[simp] theorem storeSample_ret (s : State) (a : Word) (v : Sample) : (s.storeSample a v).ret = s.ret := rfl
@[simp] theorem storeSample_regs (s : State) (a : Word) (v : Sample) : (s.storeSample a v).regs = s.regs := rfl
@[simp] theorem storeSample_scale (s : State) (a : Word) (v : Sample) : (s.storeSample a v).scale = s.scale := rfl
@[simp] theorem storeSample_pw (s : State) (a : Word) (v : Sample) : (s.storeSample a v).pw = s.pw := rfl
@[simp] theorem storeSample_ph (s : State) (a : Word) (v : Sample) : (s.storeSample a v).ph = s.ph := rfl
@[simp] theorem storeSample_band (s : State) (a : Word) (v : Sample) : (s.storeSample a v).band = s.band := rfl
@[simp] theorem storeSample_work (s : State) (a : Word) (v : Sample) : (s.storeSample a v).work = s.work := rfl
@[simp] theorem storeSample_engine (s : State) (a : Word) (v : Sample) : (s.storeSample a v).engine = s.engine := rfl
@[simp] theorem storeSample_scratch (s : State) (a : Word) (v : Sample) : (s.storeSample a v).scratch = s.scratch := rfl
@[simp] theorem storeSample_bs (s : State) (a : Word) (v : Sample) : (s.storeSample a v).bs = s.bs := rfl
@[simp] theorem storeSample_host (s : State) (a : Word) (v : Sample) : (s.storeSample a v).host = s.host := rfl
@[simp] theorem storeSample_rdata (s : State) (a : Word) (v : Sample) : (s.storeSample a v).rdata = s.rdata := rfl
@[simp] theorem storeSample_race (s : State) (a : Word) (v : Sample) : (s.storeSample a v).race = s.race := rfl
@[simp] theorem storeSample_pm (s : State) (a : Word) (v : Sample) :
    (s.storeSample a v).pm = s.pm.write a.toNat v := rfl
@[simp] theorem storeSample_pmLog (s : State) (a : Word) (v : Sample) :
    (s.storeSample a v).pmLog = s.pmLog.map (fun log => (a.toNat, v) :: log) := rfl

/-! ### `State.raceWrite` -/

@[simp] theorem raceWrite_cfg (s : State) : s.raceWrite.cfg = s.cfg := rfl
@[simp] theorem raceWrite_status (s : State) : s.raceWrite.status = s.status := rfl
@[simp] theorem raceWrite_ret (s : State) : s.raceWrite.ret = s.ret := rfl
@[simp] theorem raceWrite_regs (s : State) : s.raceWrite.regs = s.regs := rfl
@[simp] theorem raceWrite_scale (s : State) : s.raceWrite.scale = s.scale := rfl
@[simp] theorem raceWrite_pw (s : State) : s.raceWrite.pw = s.pw := rfl
@[simp] theorem raceWrite_ph (s : State) : s.raceWrite.ph = s.ph := rfl
@[simp] theorem raceWrite_band (s : State) : s.raceWrite.band = s.band := rfl
@[simp] theorem raceWrite_work (s : State) : s.raceWrite.work = s.work := rfl
@[simp] theorem raceWrite_engine (s : State) : s.raceWrite.engine = s.engine := rfl
@[simp] theorem raceWrite_scratch (s : State) : s.raceWrite.scratch = s.scratch := rfl
@[simp] theorem raceWrite_bs (s : State) : s.raceWrite.bs = s.bs := rfl
@[simp] theorem raceWrite_host (s : State) : s.raceWrite.host = s.host := rfl
@[simp] theorem raceWrite_rdata (s : State) : s.raceWrite.rdata = s.rdata := rfl
@[simp] theorem raceWrite_pmLog (s : State) : s.raceWrite.pmLog = s.pmLog := rfl
@[simp] theorem raceWrite_race (s : State) :
    s.raceWrite.race = { s.race with raced := true, draws := s.race.draws + 2 } := rfl

/-! ### `State.holdByte` -/

@[simp] theorem holdByte_cfg (s : State) (a : Nat) : (s.holdByte a).cfg = s.cfg := rfl
@[simp] theorem holdByte_status (s : State) (a : Nat) : (s.holdByte a).status = s.status := rfl
@[simp] theorem holdByte_ret (s : State) (a : Nat) : (s.holdByte a).ret = s.ret := rfl
@[simp] theorem holdByte_regs (s : State) (a : Nat) : (s.holdByte a).regs = s.regs := rfl
@[simp] theorem holdByte_scale (s : State) (a : Nat) : (s.holdByte a).scale = s.scale := rfl
@[simp] theorem holdByte_pw (s : State) (a : Nat) : (s.holdByte a).pw = s.pw := rfl
@[simp] theorem holdByte_ph (s : State) (a : Nat) : (s.holdByte a).ph = s.ph := rfl
@[simp] theorem holdByte_band (s : State) (a : Nat) : (s.holdByte a).band = s.band := rfl
@[simp] theorem holdByte_work (s : State) (a : Nat) : (s.holdByte a).work = s.work := rfl
@[simp] theorem holdByte_engine (s : State) (a : Nat) : (s.holdByte a).engine = s.engine := rfl
@[simp] theorem holdByte_scratch (s : State) (a : Nat) : (s.holdByte a).scratch = s.scratch := rfl
@[simp] theorem holdByte_bs (s : State) (a : Nat) : (s.holdByte a).bs = s.bs := rfl
@[simp] theorem holdByte_host (s : State) (a : Nat) : (s.holdByte a).host = s.host := rfl
@[simp] theorem holdByte_rdata (s : State) (a : Nat) : (s.holdByte a).rdata = s.rdata := rfl
@[simp] theorem holdByte_pm (s : State) (a : Nat) : (s.holdByte a).pm = s.pm := rfl
@[simp] theorem holdByte_pmLog (s : State) (a : Nat) : (s.holdByte a).pmLog = s.pmLog := rfl
@[simp] theorem holdByte_race (s : State) (a : Nat) :
    (s.holdByte a).race = { s.race with held := (a, s.bs.read a) :: s.race.held } := rfl

end Sys2Proof.Machine
end

