-- ==== Sys2Proof/Laws/Runs.lean ====
section
/-! SUPPORT. What the shared operations can do, said once: sequencing and loops, sample accesses, the bit reader, the
coefficient store, and the three shells a meaning stands in. -/

namespace Sys2Proof.Machine

/-! ### Sequencing -/

@[simp] theorem bind_go (s : State) (f : State → Run) : (Run.go s).bind f = f s := rfl

@[simp] theorem bind_stop (code : ErrCode) (s : State) (f : State → Run) :
    (Run.stop code s).bind f = .stop code s := rfl

@[simp] theorem forUpTo_zero (body : Nat → State → Run) (s : State) : Run.forUpTo 0 body s = .go s := rfl

theorem forUpTo_succ (n : Nat) (body : Nat → State → Run) (s : State) :
    Run.forUpTo (n + 1) body s = (Run.forUpTo n body s).bind (body n) := rfl

/-- A sequence went on exactly when both its pieces did. -/
theorem bind_eq_go {r : Run} {f : State → Run} {t : State} :
    r.bind f = .go t ↔ ∃ u, r = .go u ∧ f u = .go t := by
  cases r <;> simp

/-- A sequence stopped in its first piece, or in its second after the first went on. -/
theorem bind_eq_stop {r : Run} {f : State → Run} {code : ErrCode} {t : State} :
    r.bind f = .stop code t ↔ r = .stop code t ∨ ∃ u, r = .go u ∧ f u = .stop code t := by
  cases r <;> simp

/-- Whatever state a run ends in, gone on or stopped, `P` holds of it. -/
def Run.EndsIn (P : State → Prop) : Run → Prop
  | .go t => P t
  | .stop _ t => P t

@[simp] theorem endsIn_go (P : State → Prop) (t : State) : (Run.go t).EndsIn P ↔ P t := Iff.rfl

@[simp] theorem endsIn_stop (P : State → Prop) (code : ErrCode) (t : State) : (Run.stop code t).EndsIn P ↔ P t := Iff.rfl

/-- What one piece keeps and the other keeps, the sequence keeps. -/
theorem endsIn_bind {P : State → Prop} {r : Run} {f : State → Run} (hr : r.EndsIn P)
    (hf : ∀ u, P u → (f u).EndsIn P) : (r.bind f).EndsIn P := by
  cases r with
  | go u => exact hf u hr
  | stop code u => exact hr

/-- What every iteration keeps, the loop keeps. -/
theorem endsIn_forUpTo {P : State → Prop} {body : Nat → State → Run} (n : Nat) (s : State) (hs : P s)
    (hb : ∀ t, t < n → ∀ u, P u → (body t u).EndsIn P) : (Run.forUpTo n body s).EndsIn P := by
  induction n with
  | zero => exact hs
  | succ n ih =>
    rw [forUpTo_succ]
    exact endsIn_bind (ih (fun t ht => hb t (by omega))) (hb n (by omega))

/-- A loop goes on when every iteration does: `P t` before iteration `t`, `P n` at the end. -/
theorem forUpTo_go {P : Nat → State → Prop} {body : Nat → State → Run} (n : Nat) (s : State) (hs : P 0 s)
    (hb : ∀ t, t < n → ∀ u, P t u → ∃ u', body t u = .go u' ∧ P (t + 1) u') :
    ∃ u, Run.forUpTo n body s = .go u ∧ P n u := by
  induction n with
  | zero => exact ⟨s, rfl, hs⟩
  | succ n ih =>
    obtain ⟨u, hu, hP⟩ := ih (fun t ht => hb t (by omega))
    obtain ⟨u', hu', hP'⟩ := hb n (by omega) u hP
    exact ⟨u', by rw [forUpTo_succ, hu]; exact hu', hP'⟩

/-! ### Sample accesses (R66) -/

theorem sampRead_of_lt {a : Word} {k : Sample → State → Run} {s : State} (h : a.toNat < s.cfg.pmSize) :
    sampRead a k s = k (s.pm.read a.toNat) s := if_pos h

theorem sampRead_of_ge {a : Word} {k : Sample → State → Run} {s : State} (h : s.cfg.pmSize ≤ a.toNat) :
    sampRead a k s = .stop .memBounds s := if_neg (by omega)

theorem sampWrite_of_lt {a : Word} {v : Sample} {s : State} (h : a.toNat < s.cfg.pmSize) :
    sampWrite a v s = .go (s.storeSample a v) := if_pos h

theorem sampWrite_of_ge {a : Word} {v : Sample} {s : State} (h : s.cfg.pmSize ≤ a.toNat) :
    sampWrite a v s = .stop .memBounds s := if_neg (by omega)

/-- All a sample write can do. -/
theorem sampWrite_cases (a : Word) (v : Sample) (s : State) :
    (a.toNat < s.cfg.pmSize ∧ sampWrite a v s = .go (s.storeSample a v)) ∨
    (s.cfg.pmSize ≤ a.toNat ∧ sampWrite a v s = .stop .memBounds s) := by
  rcases Nat.lt_or_ge a.toNat s.cfg.pmSize with h | h
  · exact .inl ⟨h, sampWrite_of_lt h⟩
  · exact .inr ⟨h, sampWrite_of_ge h⟩

/-! ### The bit reader (R98) and the coefficient store (R163) -/

/-- All `skip` can do. -/
theorem skip_cases (n : Nat) (s : State) :
    (s.work.pos + n ≤ s.limit ∧ skip n s = .go { s with work := { s.work with pos := s.work.pos + n } }) ∨
    (s.limit < s.work.pos + n ∧ skip n s = .stop .idBitsExhausted s) := by
  rcases Nat.lt_or_ge s.limit (s.work.pos + n) with h | h
  · exact .inr ⟨h, if_pos h⟩
  · exact .inl ⟨h, if_neg (by omega)⟩

/-- All `emit` can do. -/
theorem emit_cases (v : Int) (s : State) :
    (s.emitAddr.toNat < s.cfg.pmSize ∧
      emit v s = .go { s.storeSample s.emitAddr (s.coefSample v) with
        work := s.work.advance s.regs.width s.regs.stride }) ∨
    (s.cfg.pmSize ≤ s.emitAddr.toNat ∧ emit v s = .stop .memBounds s) := by
  rcases sampWrite_cases s.emitAddr (s.coefSample v) s with ⟨h, e⟩ | ⟨h, e⟩
  · exact .inl ⟨h, by rw [emit, e]; rfl⟩
  · exact .inr ⟨h, by rw [emit, e]; rfl⟩

@[simp] theorem advance_i (wk : Work) (width stride : Word) : (wk.advance width stride).i = wk.i + 1#32 := by
  unfold Work.advance; split <;> rfl

@[simp] theorem advance_state (wk : Work) (width stride : Word) : (wk.advance width stride).state = wk.state := by
  unfold Work.advance; split <;> rfl

@[simp] theorem advance_flag (wk : Work) (width stride : Word) : (wk.advance width stride).flag = wk.flag := by
  unfold Work.advance; split <;> rfl

@[simp] theorem advance_pos (wk : Work) (width stride : Word) : (wk.advance width stride).pos = wk.pos := by
  unfold Work.advance; split <;> rfl

@[simp] theorem advance_nbits (wk : Work) (width stride : Word) : (wk.advance width stride).nbits = wk.nbits := by
  unfold Work.advance; split <;> rfl

@[simp] theorem advance_length (wk : Work) (width stride : Word) : (wk.advance width stride).length = wk.length := by
  unfold Work.advance; split <;> rfl

/-- A coefficient store of a command that no host access has raced is `wrap16(v)`. -/
theorem coefSample_of_not_raced {s : State} (h : s.race.raced = false) (v : Int) : s.coefSample v = BitVec.ofInt 16 v := by
  simp [State.coefSample, h]

/-- A byte that no host write has raced is read as it is. -/
theorem memRead_of_not_held {s : State} {a : Nat} (h : s.race.heldAt a = []) (k : Nat) : s.memRead a k = s.bs.read a := by
  simp [State.memRead, h]

theorem mem_heldAt {r : Race} {a : Nat} {b : Byte} : b ∈ r.heldAt a ↔ (a, b) ∈ r.held := by simp [Race.heldAt]

/-- All a byte read can give: the byte, or a value it held during the command. -/
theorem memRead_cases (s : State) (a k : Nat) : s.memRead a k = s.bs.read a ∨ (a, s.memRead a k) ∈ s.race.held := by
  cases h : s.race.heldAt a with
  | nil => exact .inl (memRead_of_not_held h k)
  | cons b old =>
    have pick : ∀ n, (b :: old).getD n (s.bs.read a) = s.bs.read a ∨ (b :: old).getD n (s.bs.read a) ∈ b :: old := by
      intro n
      rcases Nat.lt_or_ge n (b :: old).length with hn | hn
      · right; rw [List.getD_eq_getElem _ _ hn]; exact List.getElem_mem hn
      · left; exact List.getD_eq_default _ _ hn
    have e : s.memRead a k = (b :: old).getD
        (Config.raceByte s.race.draws s.work.i.toNat s.engine.inRun k % (old.length + 2)) (s.bs.read a) := by
      simp [State.memRead, h]
    rw [e]
    refine (pick _).imp_right (fun hm => mem_heldAt.1 ?_)
    rw [h]; exact hm

/-- What emitting zeros leaves alone, whether it went on or stopped: everything but PM, its log and the cursor
registers. -/
theorem emitZeros_frame (n : Nat) (s : State) :
    (emitZeros n s).EndsIn (fun t => t = { s with pm := t.pm, pmLog := t.pmLog, work := { s.work with i := t.work.i, j := t.work.j, row := t.work.row } }) := by
  refine endsIn_forUpTo n s rfl (fun t _ u hu => ?_)
  rcases emit_cases 0 u with ⟨-, e⟩ | ⟨-, e⟩
  · rw [e, endsIn_go]
    rw [hu]
    simp only [Work.advance]
    split <;> rfl
  · rw [e]; exact hu

/-- All the update of `state` can do (R166, R208). -/
theorem adapt_cases (gain : Int) (x : Nat) (s : State) :
    (0 ≤ adapted gain s.work.state.toNat x ∧ adapted gain s.work.state.toNat x ≤ Config.stateMax ∧
      adapt gain x s = .go { s with work := { s.work with
        state := BitVec.ofInt 32 (adapted gain s.work.state.toNat x), flag := false } }) ∨
    ((adapted gain s.work.state.toNat x < 0 ∨ Config.stateMax < adapted gain s.work.state.toNat x) ∧
      adapt gain x s = .stop .idStateRange s) := by
  by_cases h : adapted gain s.work.state.toNat x < 0 ∨ Config.stateMax < adapted gain s.work.state.toNat x
  · exact .inr ⟨h, if_pos h⟩
  · exact .inl ⟨by omega, by omega, if_neg h⟩

/-- All the execution of a run can do (R177). -/
theorem zeroRun_cases (rlen : Nat) (s : State) :
    (s.regs.size.toNat < s.work.i.toNat + rlen ∧ zeroRun rlen s = .stop .idRunOverrun s) ∨
    (s.work.i.toNat + rlen ≤ s.regs.size.toNat ∧
      ((∃ u, emitZeros rlen s = .go u ∧ zeroRun rlen s = .go (afterZeros rlen u)) ∨
       (∃ code u, emitZeros rlen s = .stop code u ∧ zeroRun rlen s = .stop code u))) := by
  rcases Nat.lt_or_ge s.regs.size.toNat (s.work.i.toNat + rlen) with h | h
  · exact .inl ⟨h, if_pos h⟩
  · refine .inr ⟨h, ?_⟩
    have e : zeroRun rlen s = (emitZeros rlen s).bind (fun s => .go (afterZeros rlen s)) := if_neg (by omega)
    cases hz : emitZeros rlen s with
    | go u => exact .inl ⟨u, rfl, by rw [e, hz]; rfl⟩
    | stop code u => exact .inr ⟨code, u, rfl, by rw [e, hz]; rfl⟩

/-! ### The shells -/

/-- All a one-step command can do (R41, R95): ignored while busy, otherwise it settles. -/
theorem runCommand_next {body : State → Run} {s t : State} :
    runCommand body s = .next t ↔
      (s.status.busy = true ∧ t = s) ∨ (s.status.busy = false ∧ t = (body s.accept).settle) := by
  unfold runCommand
  cases s.status.busy <;> simp [eq_comm]

/-- A one-step command always answers a next state. -/
theorem runCommand_total (body : State → Run) (s : State) : ∃ t, runCommand body s = .next t := by
  unfold runCommand
  split <;> exact ⟨_, rfl⟩

/-- All the start of a coder command can do (R41, R95). -/
theorem startCoder_next {v : Variant} {start : State → Run} {s t : State} :
    startCoder v start s = .next t ↔
      (s.status.busy = true ∧ t = s) ∨
      (s.status.busy = false ∧
        ((∃ u, start s.accept = .go u ∧ t = u.nextValue v) ∨
         (∃ code u, start s.accept = .stop code u ∧ t = u.raise code))) := by
  unfold startCoder
  cases s.status.busy with
  | true => simp [eq_comm]
  | false => cases h : start s.accept <;> simp [eq_comm]

/-- All a codeword can do (R332): it runs only where its command waits for it, and it ends in `after` or in a fault. -/
theorem execCodeword_next {at_ : Engine} {len : Nat} {body : State → Run} {after : State → State} {s t : State} :
    execCodeword at_ len body after s = .next t ↔
      s.engine = at_ ∧
        ((∃ u, (skip len s).bind body = .go u ∧ t = after u) ∨
         (∃ code u, (skip len s).bind body = .stop code u ∧ t = u.raise code)) := by
  unfold execCodeword
  split_ifs with h
  · cases hb : (skip len s).bind body <;> simp [h, eq_comm]
  · simp [h]

/-- A codeword whose bits are not all there faults with no other effect (R98, R332). -/
theorem execCodeword_exhausted {at_ : Engine} {len : Nat} {body : State → Run} {after : State → State} {s : State}
    (he : s.engine = at_) (h : s.limit < s.work.pos + len) :
    execCodeword at_ len body after s = .next (s.raise .idBitsExhausted) := by
  have e : skip len s = .stop .idBitsExhausted s := if_pos h
  unfold execCodeword
  rw [if_pos he, e]
  rfl

/-- A codeword whose bits are there runs its body on the state with the cursor moved. -/
theorem execCodeword_read {at_ : Engine} {len : Nat} {body : State → Run} {after : State → State} {s : State}
    (he : s.engine = at_) (h : s.work.pos + len ≤ s.limit) :
    execCodeword at_ len body after s =
      match body { s with work := { s.work with pos := s.work.pos + len } } with
      | .go u => .next (after u)
      | .stop code u => .next (u.raise code) := by
  have e : skip len s = .go { s with work := { s.work with pos := s.work.pos + len } } := if_neg (by omega)
  unfold execCodeword
  rw [if_pos he, e]
  rfl

/-- All the loop test can do (R164, R178). -/
theorem nextValue_cases (v : Variant) (s : State) :
    (s.work.i.toNat < s.regs.size.toNat ∧ s.nextValue v = { s with engine := .value v }) ∨
    (s.regs.size.toNat ≤ s.work.i.toNat ∧ s.nextValue v = s.retire) := by
  rcases Nat.lt_or_ge s.work.i.toNat s.regs.size.toNat with h | h
  · exact .inl ⟨h, if_pos h⟩
  · exact .inr ⟨h, if_neg (by omega)⟩

/-- All the gate can do (R168, R209). -/
theorem afterValue_cases (v : Variant) (s : State) :
    (s.gate = true ∧ s.afterValue v = { s with engine := .run v }) ∨
    (s.gate = false ∧ s.afterValue v = s.nextValue v) := by
  unfold State.afterValue
  cases s.gate <;> simp

/-! ### Vectors of samples (R298) -/

/-- A vector whose cells all exist is read. -/
theorem readVec_of_lt {s : State} {base pitch : Word} (n : Nat)
    (h : ∀ t, t < n → (elemAddr base pitch t).toNat < s.cfg.pmSize) :
    s.readVec base pitch n = some ((List.range n).map (fun t => s.pm.read (elemAddr base pitch t).toNat)) := by
  induction n with
  | zero => rfl
  | succ n ih =>
    rw [State.readVec, ih (fun t ht => h t (by omega))]
    simp [h n (by omega), List.range_succ]

/-- A vector with a cell beyond PM is not read. -/
theorem readVec_of_ge {s : State} {base pitch : Word} (n t : Nat) (ht : t < n)
    (h : s.cfg.pmSize ≤ (elemAddr base pitch t).toNat) : s.readVec base pitch n = none := by
  induction n with
  | zero => omega
  | succ n ih =>
    rw [State.readVec]
    rcases Nat.lt_or_ge t n with h' | h'
    · rw [ih h']
    · have : t = n := by omega
      subst this
      cases s.readVec base pitch t with
      | none => rfl
      | some xs => simp; omega

/-- What writing a vector leaves alone: everything but PM and its log. -/
theorem writeVec_frame (base pitch : Word) (out : List Sample) (s : State) :
    (writeVec base pitch out s).EndsIn (fun t => t = { s with pm := t.pm, pmLog := t.pmLog }) := by
  refine endsIn_forUpTo _ s rfl (fun t _ u hu => ?_)
  rcases sampWrite_cases (elemAddr base pitch t) (out.getD t 0#16) u with ⟨-, e⟩ | ⟨-, e⟩
  · rw [e, endsIn_go, hu]; rfl
  · rw [e]; exact hu

/-- A sequence of stores changes PM and its log only. -/
theorem foldl_storeSample (addr : Nat → Word) (v : Nat → Sample) (ts : List Nat) (s : State) :
    ts.foldl (fun s t => s.storeSample (addr t) (v t)) s =
      { s with
        pm := s.pm.replay (ts.map (fun t => ((addr t).toNat, v t)))
        pmLog := s.pmLog.map (fun log => (ts.map (fun t => ((addr t).toNat, v t))).reverse ++ log) } := by
  induction ts generalizing s with
  | nil => simp
  | cons t ts ih =>
    rw [List.foldl_cons, ih]
    cases h : s.pmLog <;> simp [State.storeSample, Memory.replay, h]

theorem foldl_storeSample_cfg (addr : Nat → Word) (v : Nat → Sample) (ts : List Nat) (s : State) :
    (ts.foldl (fun s t => s.storeSample (addr t) (v t)) s).cfg = s.cfg := by
  rw [foldl_storeSample]

/-- A vector whose cells all exist is written, in order. -/
theorem writeVec_of_lt (base pitch : Word) (out : List Sample) (s : State)
    (h : ∀ t, t < out.length → (elemAddr base pitch t).toNat < s.cfg.pmSize) :
    writeVec base pitch out s =
      .go ((List.range out.length).foldl (fun s t => s.storeSample (elemAddr base pitch t) (out.getD t 0#16)) s) := by
  unfold writeVec
  generalize hn : out.length = n at h
  clear hn
  induction n with
  | zero => rfl
  | succ n ih =>
    rw [forUpTo_succ, ih (fun t ht => h t (by omega)), bind_go, List.range_succ, List.foldl_append]
    refine sampWrite_of_lt ?_
    rw [foldl_storeSample_cfg]
    exact h n (by omega)

/-- What a filter application leaves alone: everything but PM, its log and the hidden scratch (R298). -/
theorem filterCells_frame (base : Word) (n : Nat) (pitch : Word) (scale : BitVec 64) (s : State) :
    (filterCells base n pitch scale s).EndsIn (fun t => t = { s with pm := t.pm, pmLog := t.pmLog, scratch := t.scratch }) := by
  unfold filterCells
  cases s.readVec base pitch n with
  | none => rfl
  | some xs =>
    have h := writeVec_frame base pitch (synthesis scale (n / 2) (padLow (xs.take (n / 2))) (padHigh (xs.drop (n / 2))))
      { s with scratch := { s.scratch with low := padLow (xs.take (n / 2)), high := padHigh (xs.drop (n / 2)) } }
    simp only
    cases hw : writeVec base pitch (synthesis scale (n / 2) (padLow (xs.take (n / 2))) (padHigh (xs.drop (n / 2))))
      { s with scratch := { s.scratch with low := padLow (xs.take (n / 2)), high := padHigh (xs.drop (n / 2)) } } with
    | go t => rw [hw, endsIn_go] at h; rw [endsIn_go, h]
    | stop code t => rw [hw, endsIn_stop] at h; rw [endsIn_stop, h]

/-- The row pass keeps what depends on neither PM nor the scratch (R301). -/
theorem idwtRows_frame (p : Plane) (k : Nat) (s : State) :
    (idwtRows p k s).EndsIn (fun t => t = { s with pm := t.pm, pmLog := t.pmLog, scratch := t.scratch }) := by
  refine endsIn_forUpTo _ s rfl (fun r _ u hu => ?_)
  have h := filterCells_frame (elemAddr (s.regs.pbase.get p) (s.regs.pstride.get p) r) (levelSize (s.pw.get p) k) 1#32
    ((s.scale.get p).ver.get k) u
  rw [hu] at h ⊢
  exact h

/-- The column pass keeps what depends on neither PM nor the scratch (R301). -/
theorem idwtCols_frame (p : Plane) (k : Nat) (s : State) :
    (idwtCols p k s).EndsIn (fun t => t = { s with pm := t.pm, pmLog := t.pmLog, scratch := t.scratch }) := by
  refine endsIn_forUpTo _ s rfl (fun x _ u hu => ?_)
  have h := filterCells_frame (elemAddr (s.regs.pbase.get p) 1#32 x) (levelSize (s.ph.get p) k) (s.regs.pstride.get p)
    ((s.scale.get p).hor.get k) u
  rw [hu] at h ⊢
  exact h

end Sys2Proof.Machine
end

