-- ==== Sys2Proof/Tests/Slice0.lean ====
section
/-! SUPPORT. The model's own tests: ill-formed terms that `WellFormed` refuses, words written out from the spec's
encodings, single steps with the values of the spec's examples, and a concrete state for the hypotheses of every
obligation that has some. -/

namespace Sys2Proof.Tests

open Sys2Proof Sys2Proof.Machine

/-! ### Contexts -/

def lowV (n : Nat) : Ctx := { kind := .lowValue, n := n, nbits := 0 }
def lowR (n : Nat) : Ctx := { kind := .lowRun, n := n, nbits := 0 }
def highV (n nbits : Nat) : Ctx := { kind := .highValue, n := n, nbits := nbits }
def highR (n : Nat) : Ctx := { kind := .highRun, n := n, nbits := 0 }

/-- `n` one bits. -/
def ones (n : Nat) : List Bool := List.replicate n true

/-! ### WellFormed refuses (R103, R106) -/

theorem test_wf_context_value_width_zero : (lowV 0).wf = false := by decide
theorem test_wf_context_value_width_large : (highV 15 4).wf = false := by decide
theorem test_wf_context_run_width_small : (lowR 2).wf = false := by decide
theorem test_wf_context_run_width_large : (highR 9).wf = false := by decide
theorem test_wf_context_nbits_zero : (highV 1 0).wf = false := by decide
theorem test_wf_context_nbits_large : (highV 1 17).wf = false := by decide
theorem test_wf_short_kind : (Instr.lvS 0).wf (lowR 3) = false := by decide
theorem test_wf_short_cap : (Instr.lrS 8).wf (lowR 3) = false := by decide
theorem test_wf_short_cap_high : (Instr.hvS 21).wf (highV 1 4) = false := by decide
theorem test_wf_long_kind : (Instr.hrL 0 2).wf (lowR 3) = false := by decide
theorem test_wf_long_cap : (Instr.lvL 8 2).wf (lowV 2) = false := by decide
theorem test_wf_long_suffix_one : (Instr.lrL 0 1).wf (lowR 3) = false := by decide
theorem test_wf_long_suffix_large : (Instr.lvL 0 4).wf (lowV 2) = false := by decide
theorem test_wf_long_needs_width_two : (Instr.hvL 0 2).wf (highV 1 4) = false := by decide
theorem test_wf_escape_kind_low_value : (Instr.lvX 0#16).wf (highV 1 4) = false := by decide
theorem test_wf_escape_kind_low_run : (Instr.lrX 0#16).wf (lowV 1) = false := by decide
theorem test_wf_escape_kind_high_run : (Instr.hrX8 0#8).wf (lowR 3) = false := by decide
theorem test_wf_escape_payload : (Instr.hvX 16).wf (highV 1 4) = false := by decide

/-! ### Words written out from R92 and R103 -/

theorem test_decode_layout : decodeCommand 0x00000001#32 = .ok .layout := by decide
theorem test_decode_declow : decodeCommand 0x00000002#32 = .ok .declow := by decide
theorem test_decode_dechigh : decodeCommand 0x00000003#32 = .ok .dechigh := by decide
theorem test_decode_predict : decodeCommand 0x00000004#32 = .ok .predict := by decide
theorem test_decode_filt1d : decodeCommand 0x00000005#32 = .ok .filt1d := by decide
theorem test_decode_idwt : decodeCommand 0x00000006#32 = .ok (.idwt .y) ∧ decodeCommand 0x00000016#32 = .ok (.idwt .u) ∧
    decodeCommand 0x00000026#32 = .ok (.idwt .v) := by decide
theorem test_decode_illegal_op : decodeCommand 0x00000000#32 = .error (.illegalCommand 0x00000000#32) ∧
    decodeCommand 0x00000007#32 = .error (.illegalCommand 0x00000007#32) := by decide
theorem test_decode_illegal_plane : decodeCommand 0x00000036#32 = .error (.illegalCommand 0x00000036#32) ∧
    decodeCommand 0x00000011#32 = .error (.illegalCommand 0x00000011#32) := by decide
theorem test_decode_illegal_reserved : decodeCommand 0x00000041#32 = .error (.illegalCommand 0x00000041#32) ∧
    decodeCommand 0x80000006#32 = .error (.illegalCommand 0x80000006#32) := by decide

/-- R171: `110` with `n = 1`. -/
theorem test_decode_lvS : decodeCodeword (lowV 1) [true, true, false] = .lvS 2 := by decide

/-- R104: with `n = 2` the bits `0 01` are a short form that leaves the last bit. -/
theorem test_decode_short_leaves_a_bit : decodeCodeword (lowV 2) [false, false, true] = .lvS 0 ∧
    (Instr.lvS 0).bitLength (lowV 2) = 2 := by decide

/-- R172: `10 11` with `n = 2`. -/
theorem test_decode_lvL : decodeCodeword (lowV 2) [true, false, true, true] = .lvL 1 3 := by decide

/-- R173: `11111111 0000000000001010`. -/
theorem test_decode_lvX :
    decodeCodeword (lowV 1) (ones 8 ++ List.replicate 12 false ++ [true, false, true, false]) = .lvX 10#16 := by decide

/-- R174: `10 00000` with `n = 6`. -/
theorem test_decode_lrS :
    decodeCodeword (lowR 6) [true, false, false, false, false, false, false] = .lrS 1 := by decide

/-- R175: `0 001010` with `n = 6`. -/
theorem test_decode_lrL :
    decodeCodeword (lowR 6) [false, false, false, true, false, true, false] = .lrL 0 10 := by decide

/-- R176: `11111111 0000000100101100`. -/
theorem test_decode_lrX :
    decodeCodeword (lowR 6) (ones 8 ++ List.replicate 7 false ++
      [true, false, false, true, false, true, true, false, false]) = .lrX 300#16 := by decide

/-- R211: `1110` with `n = 1`. -/
theorem test_decode_hvS : decodeCodeword (highV 1 4) [true, true, true, false] = .hvS 3 := by decide

/-- R212: `0 11` with `n = 2`. -/
theorem test_decode_hvL : decodeCodeword (highV 2 4) [false, true, true] = .hvL 0 3 := by decide

/-- R213: `1^21 1010` with `nbits = 4`. -/
theorem test_decode_hvX : decodeCodeword (highV 1 4) (ones 21 ++ [true, false, true, false]) = .hvX 10 := by decide

/-- R214: `0 00` with `n = 3`. -/
theorem test_decode_hrS : decodeCodeword (highR 3) [false, false, false] = .hrS 0 := by decide

/-- R215: `0 010000` with `n = 6`. -/
theorem test_decode_hrL :
    decodeCodeword (highR 6) [false, false, true, false, false, false, false] = .hrL 0 16 := by decide

/-- R216: `11111111 0 00001100`. -/
theorem test_decode_hrX8 :
    decodeCodeword (highR 8) (ones 8 ++ [false, false, false, false, false, true, true, false, false]) = .hrX8 12#8 := by
  decide

/-- R217: `11111111 1 0000001111101000`. -/
theorem test_decode_hrX16 :
    decodeCodeword (highR 3) (ones 9 ++ [false, false, false, false, false, false] ++ ones 5 ++
      [false, true, false, false, false]) = .hrX16 1000#16 := by decide

/-- A word the table has for two rows reads as the one a `DECLOW` starts with (log entry 8). -/
theorem test_table_word : decodeTableWord 32 0x26 = some (.idwt .v) ∧ decodeTableWord 32 0x36 = none ∧
    decodeTableWord 24 0xFF000A = some (.lvX 10#16) := by decide

/-! ### Small states -/

/-- The configuration of the tests: 4096 bytes of BS, 4096 samples of PM, `MAXDIM = 64`. -/
def cfg : Config := { Config.reference with maxDim := 64, bsSize := 4096, pmSize := 4096 }

/-- An idle block with these operand registers. -/
def idle (r : Regs) : State := { State.reset with cfg := cfg, regs := r }

/-- The operands of a coder command: `DST = 100`, stream at `3`, `len` bytes. -/
def coderRegs (size width stride len : Nat) : Regs :=
  { Regs.reset with
    bsptr := 3#32, bsend := BitVec.ofNat 32 (3 + len), dst := 100#32, size := BitVec.ofNat 32 size
    width := BitVec.ofNat 32 width, stride := BitVec.ofNat 32 stride
    hc := 10#32, hscale := 6#32, hd := 100#32 }

/-- A coder command in progress, at its first coefficient. -/
def coding (e : Engine) (state : Nat) (flag : Bool) (size : Nat) : State :=
  { idle (coderRegs size 5 8 16) with
    status := { Status.reset with busy := true }
    engine := e
    work := { Work.reset with state := BitVec.ofNat 32 state, flag := flag, nbits := 4, length := 21 } }

/-- The state of an outcome that goes on. -/
def after : Host.Outcome State Fault Refusal → State
  | .next t => t
  | _ => State.reset

/-! ### Single steps with the values of the spec -/

/-- R150: entries of the BAND table of a 64 x 32 frame. -/
theorem test_layout :
    let t := after (exec .layout (idle { Regs.reset with w := 64#32, h := 32#32 }))
    (t.band.p0.get 11) = { width := 32#32, height := 16#32, size := 512#32, x := 0#32, y := 16#32 } ∧
    (t.band.p1.get 1) = { width := 2#32, height := 1#32, size := 2#32, x := 2#32, y := 0#32 } ∧
    t.status = { Status.reset with done := true, lvalid := true } := by decide

/-- R171: `k = 2` at `state = 3` stores 1 and leaves `state = 242`. -/
theorem test_lvS :
    let t := after (exec (.lvS 2) (coding (.value .low) 3 false 8))
    t.pm.read 100 = 1#16 ∧ t.work.state = 242#32 ∧ t.work.pos = 3 ∧ t.engine = .value .low := by decide

/-- R172: `k = 1`, `v = 3` at `state = 1202` stores -3 and leaves `state = 1239`. -/
theorem test_lvL :
    let t := after (exec (.lvL 1 3) (coding (.value .low) 1202 false 8))
    t.pm.read 100 = BitVec.ofInt 16 (-3) ∧ t.work.state = 1239#32 ∧ t.work.pos = 4 := by decide

/-- R173: `e = 10` at `state = 3` stores 5 and leaves `state = 1202`. -/
theorem test_lvX :
    let t := after (exec (.lvX 10#16) (coding (.value .low) 3 false 8))
    t.pm.read 100 = 5#16 ∧ t.work.state = 1202#32 ∧ t.work.pos = 24 := by decide

/-- R174, R177: `k = 0` writes no zero, sets `state` to 0 and `flag` to 1. -/
theorem test_lrS :
    let t := after (exec (.lrS 0) (coding (.run .low) 2 false 8))
    t.work.state = 0#32 ∧ t.work.flag = true ∧ t.work.i = 0#32 ∧ t.work.pos = 6 := by decide

/-- R182: the run of 9 zeros that ends the command, `RET = 1`. -/
theorem test_lrL :
    let s := coding (.run .low) 2 false 10
    let t := after (exec (.lrL 0 10) { s with work := { s.work with i := 1#32, j := 1#32, pos := 1 } })
    t.ret = 1#32 ∧ t.work.pos = 8 ∧ t.status = { Status.reset with done := true } ∧ t.engine = .idle := by decide

/-- R176, R177: `r` carries no offset, so a run of 3 fits 8 coefficients. -/
theorem test_lrX :
    let t := after (exec (.lrX 3#16) (coding (.run .low) 2 false 8))
    t.work.i = 3#32 ∧ t.work.pos = 24 ∧ t.engine = .value .low := by decide

/-- R211: `k = 3`, `c = 10`, `d = 100` stores -25 and leaves `state = 302`. -/
theorem test_hvS :
    let t := after (exec (.hvS 3) (coding (.value .high) 3 false 8))
    t.pm.read 100 = BitVec.ofInt 16 (-25) ∧ t.work.state = 302#32 := by decide

/-- R212: `s = 3`, `c = -5`, `d = 300` at `state = 300` stores -8 and leaves `state = 549`. -/
theorem test_hvL :
    let s := coding (.value .high) 300 false 8
    let t := after (exec (.hvL 0 3) { s with regs := { s.regs with hc := BitVec.ofInt 32 (-5), hd := 300#32 } })
    t.pm.read 100 = BitVec.ofInt 16 (-8) ∧ t.work.state = 549#32 ∧ t.work.pos = 3 := by decide

/-- R213: `e = 10`, `c = 10` stores 55 and consumes 25 bits. -/
theorem test_hvX :
    let t := after (exec (.hvX 10) (coding (.value .high) 3 false 8))
    t.pm.read 100 = 55#16 ∧ t.work.pos = 25 := by decide

/-- R214: at `state = 43` the run of 0 zeros consumes 3 bits. -/
theorem test_hrS :
    let t := after (exec (.hrS 0) (coding (.run .high) 43 false 8))
    t.work.state = 0#32 ∧ t.work.flag = true ∧ t.work.pos = 3 := by decide

/-- R215: at `state = 3` the suffix 16 is a run of 15. -/
theorem test_hrL :
    let t := after (exec (.hrL 0 16) (coding (.run .high) 3 false 20))
    t.work.i = 15#32 ∧ t.work.pos = 7 := by decide

/-- R216: `rlen = u + 8 * M`: with `M = 7` a run of 56 for `u = 0`. -/
theorem test_hrX8 :
    let t := after (exec (.hrX8 0#8) (coding (.run .high) 16 false 60))
    t.work.i = 56#32 ∧ t.work.pos = 17 := by decide

/-- R217, R218: `u = 65535` exceeds the ceiling; `ID_RUN_TOO_LONG` is tested before the overrun. -/
theorem test_hrX16 :
    let t := after (exec (.hrX16 65535#16) (coding (.run .high) 16 false 60))
    t.status.err = .idRunTooLong ∧ t.work.i = 0#32 := by decide

/-- R182: the whole command, started and run for its two codewords on the byte `0x0A`. -/
theorem test_declow :
    let s := { idle { coderRegs 10 5 8 1 with bsptr := 3#32 } with bs := [(3, 0x0A#8)] }
    let t := after (step (after (step (after (exec .declow s)))))
    t.ret = 1#32 ∧ t.status = { Status.reset with done := true } ∧ t.pm = [] := by decide +kernel

/-- R203: `scale = 6` gives `nbits = 4`, `length = 21`; `scale = 0` is rejected even for `SIZE = 0`. -/
theorem test_dechigh :
    (after (exec .dechigh (idle (coderRegs 8 4 6 3)))).work.nbits = 4 ∧
    (after (exec .dechigh (idle (coderRegs 8 4 6 3)))).work.length = 21 ∧
    (after (exec .dechigh (idle { coderRegs 0 4 6 3 with hscale := 0#32 }))).status.err = .idScaleZero := by decide

/-- R276 (e): `STRIDE = 0`, `WIDTH = 2`, `HEIGHT = 3` on `[1, 2]` gives `[4, 16]`. -/
theorem test_predict_aliased :
    let r := { Regs.reset with dst := 50#32, width := 2#32, height := 3#32 }
    (after (exec .predict { idle r with pm := [(50, 1#16), (51, 2#16)] })).pm = [(50, 4#16), (51, 16#16)] := by
  decide +kernel

/-- R277: the second row of the worked example. -/
theorem test_predict :
    let r := { Regs.reset with dst := 50#32, width := 3#32, height := 2#32, stride := 5#32 }
    (after (exec .predict { idle r with
      pm := [(50, 10#16), (51, 1#16), (52, 2#16), (55, 3#16), (56, 4#16), (57, 5#16)] })).pm =
      [(50, 10#16), (51, 11#16), (52, 13#16), (55, 13#16), (56, 18#16), (57, 25#16)] := by decide +kernel

/-- The operands of a `FILT1D` of `n` cells at 20 with the scale pattern `p`. -/
def filterRegs (n : Nat) (p : BitVec 64) : Regs :=
  { Regs.reset with
    dst := 20#32, size := BitVec.ofNat 32 n, stride := 1#32
    fscaleHi := p.extractLsb' 32 32, fscaleLo := p.extractLsb' 0 32 }

/-- R299 (a): `[100, 7]` with 1.0 gives `[75, 65]`. -/
theorem test_filt1d :
    (after (exec .filt1d { idle (filterRegs 2 0x3FF0000000000000#64) with pm := [(20, 100#16), (21, 7#16)] })).pm =
      [(20, 75#16), (21, 65#16)] := by decide +kernel

/-- R299 (b): clipping at both ends, `[32767, 32767, -32768, -32768]` with 4.0. -/
theorem test_filt1d_clips :
    (after (exec .filt1d { idle (filterRegs 4 0x4010000000000000#64) with
      pm := [(20, 0x7FFF#16), (21, 0x7FFF#16), (22, 0x8000#16), (23, 0x8000#16)] })).pm =
      [(20, 0xFFFE#16), (21, 0x7FFF#16), (22, 0xFFFE#16), (23, 0x7FFF#16)] := by decide +kernel

/-- R293: the constants are the binary32 patterns `0x3D9B28D0` to `0x3F593924`: significand (hidden bit set) over
`2^28`, shifted by the exponent field. -/
theorem test_filter_constants :
    Config.ke1 = 0x9B28D0 * 2 ^ (0x7B - 0x7A) ∧ Config.ke0 = 0xDBCF27 * 2 ^ (0x7E - 0x7A) ∧
    Config.keh = 0xB504F3 * 2 ^ (0x7D - 0x7A) ∧ Config.ko2 * 2 ^ (0x7A - 0x78) = 0xF8414C ∧
    Config.ko1 = 0xBCC6FE * 2 ^ (0x7D - 0x7A) ∧ Config.koh1 = 0x90D0C3 * 2 ^ (0x7B - 0x7A) ∧
    Config.koh0 = 0xD93924 * 2 ^ (0x7E - 0x7A) := by decide

/-- R302: `IDWT` straight after reset faults. -/
theorem test_idwt_needs_layout : (after (exec (.idwt .y) (idle Regs.reset))).status.err = .badConfig := by decide

/-- R371: reset in the middle of a command keeps PM. -/
theorem test_reset :
    let t := after (step { coding (.value .low) 3 false 8 with pm := [(7, 9#16)], host := [.reset] })
    t.pm = [(7, 9#16)] ∧ t.engine = .idle ∧ t.status = Status.reset ∧ t.regs = Regs.reset := by decide

/-- R371: a reset inside `PREDICT` after five PM writes leaves the column sum of the last cell without its row sum; one
inside a run of three zeros after two leaves the third cell as it was (log entry 20). -/
theorem test_reset_inside :
    let r := { Regs.reset with dst := 50#32, width := 2#32, height := 2#32, stride := 2#32 }
    let t := after (step { idle r with
      pm := [(50, 1#16), (51, 2#16), (52, 3#16), (53, 4#16)], host := [.cmdThenReset 4#32 5] })
    let u := after (step { coding (.run .low) 16 false 300 with
      bs := [(3, 0x40#8)], pm := [(100, 7#16), (101, 7#16), (102, 7#16)], host := [.tickThenReset 2] })
    t.pm = [(50, 1#16), (51, 3#16), (52, 4#16), (53, 6#16)] ∧ t.status = Status.reset ∧ t.regs = Regs.reset ∧
    u.pm = [(102, 7#16)] ∧ u.status = Status.reset ∧ u.engine = .idle := by decide +kernel

/-- U14: a host write of a BS byte that a `DECLOW` may read goes on, and the block may still see the old byte. -/
theorem test_race :
    let t := after (step { coding (.value .low) 3 false 8 with bs := [(3, 0x0A#8)], host := [.bsWrite 3#32 0xFF#8] })
    t.bs = [(3, 0xFF#8)] ∧ t.race.held = [(3, 0x0A#8)] ∧ t.race.raced = true ∧ t.engine = .value .low := by decide

/-- R241: the host reads a byte of BS. -/
theorem test_bs_read : (after (step { idle Regs.reset with bs := [(4095, 0xA5#8)], host := [.bsRead 4095#32] })).rdata =
    0xA5#32 := by decide

/-- `withFetchWord` places a command word and a codeword where the next step runs them. -/
theorem test_fetch_command : step (State.reset.withFetchWord 32 0x05) =
    exec .filt1d { State.reset.withFetchWord 32 0x05 with host := [] } := rfl
theorem test_fetch_codeword : step (State.reset.withFetchWord 24 0xFF000A) =
    exec (.lvX 10#16) { State.reset.withFetchWord 24 0xFF000A with host := [] } := rfl
theorem test_fetch_codeword_runs :
    (after (step (State.reset.withFetchWord 24 0xFF000A))).pm = [(0, 5#16)] := by decide +kernel

/-! ### Witnesses: states that meet the hypotheses of the obligations -/

/-- A `DECLOW` in its value step, `n = 1`. -/
def lv : State := coding (.value .low) 3 false 300

/-- A `DECLOW` in its value step, `n = 2`. -/
def lv2 : State := coding (.value .low) 1202 true 300

/-- A `DECLOW` in its run step, `n = 3`, `M = 7`. -/
def lr : State := coding (.run .low) 16 false 300

/-- A `DECHIGH` in its value step, `n = 1`. -/
def hv : State := coding (.value .high) 3 false 300

/-- A `DECHIGH` in its value step, `n = 2`, flag set. -/
def hv2 : State := coding (.value .high) 1202 true 300

/-- A `DECHIGH` in its run step, `n = 3`, `M = 7`. -/
def hr : State := coding (.run .high) 16 false 300

theorem lv_coderInv : lv.coderInv := fun _ =>
  ⟨by decide, by decide, by decide, by decide, by decide, by decide, by decide, by decide, fun _ => by decide,
    fun _ => by decide, fun _ => by decide⟩

theorem lr_coderInv : lr.coderInv := fun _ =>
  ⟨by decide, by decide, by decide, by decide, by decide, by decide, by decide, by decide, fun _ => by decide,
    fun _ => by decide, fun _ => by decide⟩

theorem hv_coderInv : hv.coderInv := fun _ =>
  ⟨by decide, by decide, by decide, by decide, by decide, by decide, by decide, by decide, fun _ => by decide,
    fun _ => by decide, fun _ => by decide⟩

theorem hr_coderInv : hr.coderInv := fun _ =>
  ⟨by decide, by decide, by decide, by decide, by decide, by decide, by decide, by decide, fun _ => by decide,
    fun _ => by decide, fun _ => by decide⟩

theorem lv_statusInv : lv.statusInv := by unfold State.statusInv; decide
theorem hr_statusInv : hr.statusInv := by unfold State.statusInv; decide
theorem idle_statusInv (r : Regs) : (idle r).statusInv := by
  unfold State.statusInv idle; simp [State.reset, Status.reset]

/-- A frame of 32 x 32 with its layout, the planes at 0 with a pitch of 32. -/
def framed : State :=
  after (exec .layout (idle { Regs.reset with w := 32#32, h := 32#32, pstride := .all 32#32 }))

theorem framed_layoutInv : framed.layoutInv := fun _ =>
  ⟨by decide, by decide, by decide, by decide, by decide, by decide, by decide, by decide, by decide⟩

/-- `DecodeEncodeRoundTrip`, at the largest field values. -/
theorem test_witness_round_trip :
    ((highV 14 16).wf = true ∧ (Instr.hvL 8 16383).wf (highV 14 16) = true) ∧
    ((highV 1 1).wf = true ∧ (Instr.hvX 1).wf (highV 1 1) = true) ∧
    ((lowR 8).wf = true ∧ (Instr.lrL 7 255).wf (lowR 8) = true) ∧
    ((lowV 1).wf = true ∧ (Instr.idwt .v).wf (lowV 1) = true) := by decide

/-- `EveryBitStringDecodes`: a codeword whose encoding the string begins with, bits past its end included. -/
theorem test_witness_bit_string : (lowV 3).wf = true ∧ (Instr.lvS 1).wf (lowV 3) = true ∧
    encode (lowV 3) (.lvS 1) = .stream [true, false, false, false] ∧
    ∀ t, t < 4 → [true, false, false, false].getD t false = [true].getD t false := by decide

/-- `SuffixWidths`, at the ends of the ranges. -/
theorem test_witness_suffix_widths : (63 ≤ 63) ∧ (1 ≤ 1 ∧ 1 ≤ 13 ∧ 256 * (2 ^ 1 - 3) ≤ 0 ∧ 0 < 256 * (2 ^ (1 + 1) - 3)) ∧
    (13 ≤ 13 ∧ 256 * (2 ^ 13 - 3) ≤ 4193535 ∧ 4193535 < 256 * (2 ^ (13 + 1) - 3)) ∧ 4193536 ≤ 4193536 := by decide

/-- `ReaderAgreesWithDecoder`: a codeword that ends at the limit, and one that passes it by a bit. -/
theorem test_witness_reader :
    let s := { lv with work := { lv.work with pos := 127 } }
    let t := { lv with work := { lv.work with pos := 128 } }
    (lowV 1).wf = true ∧ s.work.pos + (decodeCodeword (lowV 1) s.window).bitLength (lowV 1) ≤ s.limit ∧
    t.limit < t.work.pos + (decodeCodeword (lowV 1) t.window).bitLength (lowV 1) := by decide +kernel

/-- `StepRunsDecoded`, its four clauses. -/
theorem test_witness_step_runs :
    ({ lv with host := [.wr 0#32 5#32] }.host = .wr lv.cfg.regBase 5#32 :: [] ∧ decodeCommand 5#32 = .ok .filt1d) ∧
    (lv.host = [] ∧ lv.ctx = some (lowV 1)) ∧ ({ hr with host := [.tick] }.ctx = some (highR 3)) ∧
    ({ lr with host := [.wait] }.status.busy = true ∧ lr.ctx = some (lowR 3)) := by decide

/-- `StepStopsOnlyOnHostMisuse`, `LegalStepIsSafe`: a legal action and one that is not; an idle block. -/
theorem test_witness_host_legal :
    State.hostLegal { idle Regs.reset with host := [.pmRead 4095#32] } ∧
    State.hostLegal { lv with host := [.bsWrite 3#32 0#8] } ∧
    ¬State.hostLegal { idle Regs.reset with host := [.pmRead 4096#32] } ∧
    (idle Regs.reset).host = [] ∧ (idle Regs.reset).engine = .idle := by
  unfold State.hostLegal; decide

/-- `ResetInv`'s invariant also holds in the middle of a command: `LegalStepIsSafe`, `StepKeepsMemory`,
`StepKeepsStatus`, `StepKeepsCoder`, `StepKeepsLayout`, `LowStateNeverFaults`, `CoderTerminates`. -/
theorem test_witness_invariants : lv.Inv ∧ lv.hostLegal ∧ lv.host = [] ∧ lv.engine = .value .low ∧
    step lv = .next (after (step lv)) := by
  refine ⟨⟨by decide, ?_, lv_statusInv, lv_coderInv, ?_⟩, trivial, rfl, rfl, rfl⟩
  · unfold State.memInv; decide
  · exact fun h => absurd h (by decide)

/-- `IllegalCommandWord`. -/
theorem test_witness_illegal_command :
    let s := { idle Regs.reset with host := [.wr 0#32 7#32] }
    s.host = .wr s.cfg.regBase 7#32 :: [] ∧ s.statusInv ∧ s.status.busy = false ∧ ∀ i, decodeCommand 7#32 ≠ .ok i := by
  refine ⟨rfl, idle_statusInv Regs.reset, rfl, fun i h => ?_⟩
  rw [test_decode_illegal_op.2] at h
  cases h

/-- `WritesWhileBusyIgnored`, of `SIZE` and of `CMD`. -/
theorem test_witness_write_busy :
    let s := { lv with host := [.wr 0x1C#32 9#32] }
    s.status.busy = true ∧ s.offset 0x1C#32 % 4 = 0 ∧ s.offset 0#32 % 4 = 0 := by decide

/-- `RegisterReadBack`, of a step. -/
theorem test_witness_register_step :
    let s := { idle Regs.reset with host := [.wr 0x44#32 64#32] }
    s.offset 0x44#32 % 4 = 0 ∧ s.offset 0x44#32 ≠ 0 ∧ s.status.busy = false := by decide

/-- `TableMap`: the gaps of the map, at their ends. -/
theorem test_witness_map_gaps : (0x078 ≤ 0x0FC ∧ 0x0FC < 0x100) ∧ (0x1C0 ≤ 0x1C0 ∧ 0x3FC < 0x400) ∧ 0x8E0 ≤ 0x8E0 ∧
    (lv.regRead 0x0FC = 0#32 ∧ lv.regRead 0x1C0 = 0#32 ∧ lv.regRead 0x8E0 = 0#32) := by decide

/-- `RegisterReadBack`, `RegisterWriteFrame`, `ReadsHaveNoSideEffect`: the last word of `SCALE`, the one after it. -/
theorem test_witness_register : 0x1BC % 4 = 0 ∧ writableOffset 0x1BC = true ∧ writableOffset 0x1C0 = false ∧
    (0x1B8 % 4 = 0 ∧ 0x1B8 ≠ 0x1BC ∧ 0x1B8 ≠ 0x004) ∧ lv.offset 0x8DC#32 % 4 = 0 := by decide

/-- `HostMemoryAccess`, at the last cells, and at the ends of what a running command uses. -/
theorem test_witness_host_memory :
    (idle Regs.reset).memInv ∧ State.hostLegal { idle Regs.reset with host := [.bsWrite 4095#32 1#8] } ∧
    State.hostLegal { idle Regs.reset with host := [.bsRead 4095#32] } ∧
    State.hostLegal { idle Regs.reset with host := [.pmWrite 4095#32 1#16] } ∧
    State.hostLegal { idle Regs.reset with host := [.pmRead 0#32] } ∧
    lv.memInv ∧ State.hostLegal { lv with host := [.bsWrite 18#32 1#8] } ∧ lv.usesByte 18 = true ∧ lv.usesByte 19 = false ∧
    State.hostLegal { lv with host := [.pmWrite 100#32 1#16] } ∧ State.hostLegal { lv with host := [.pmRead 100#32] } ∧
    lv.usesCell 100 = true ∧ lv.usesCell 105 = false ∧ 0 < lv.limit := by
  unfold State.hostLegal State.memInv; decide +kernel

/-- `ResetEffect`, `ResetAbandonsCommand`: a reset after a `PREDICT` has made four writes, and one inside a codeword. -/
theorem test_witness_reset :
    let s := { idle { Regs.reset with dst := 50#32, width := 2#32, height := 2#32, stride := 2#32 } with
      host := [.cmdThenReset 4#32 4] }
    let t := { lr with host := [.tickThenReset 0] }
    ({ lv with host := [.reset] }.host = .reset :: []) ∧
    (s.pmLog = none ∧ s.host = .cmdThenReset 4#32 4 :: [] ∧ decodeCommand 4#32 = .ok .predict) ∧
    (t.pmLog = none ∧ t.host = .tickThenReset 0 :: [] ∧ t.ctx = some (lowR 3)) := by decide

/-- `StickyIsSticky`. -/
theorem test_witness_sticky :
    let s := after (exec (.idwt .y) (idle Regs.reset))
    s.status.sticky = true ∧ s.hostResets = false ∧ step s = .next (after (step s)) := ⟨rfl, by decide, rfl⟩

/-- `OperandsUnmodified`, `FaultCompletion`: a command that faults, and a codeword that does. -/
theorem test_witness_fault :
    (idle Regs.reset).statusInv ∧ (idle Regs.reset).status.busy = false ∧
    exec .layout (idle Regs.reset) = .next (after (exec .layout (idle Regs.reset))) ∧
    (after (exec .layout (idle Regs.reset))).status.fault = true ∧
    hr.statusInv ∧ (Instr.hrX16 65535#16).isCodeword = true ∧
    exec (.hrX16 65535#16) hr = .next (after (exec (.hrX16 65535#16) hr)) ∧
    (after (exec (.hrX16 65535#16) hr)).status.fault = true :=
  ⟨idle_statusInv _, rfl, rfl, by decide, hr_statusInv, rfl, rfl, by decide⟩

/-- `NormalCompletion`: a command, and the last codeword of one. -/
theorem test_witness_completion :
    let s := { lv with regs := { lv.regs with size := 1#32 } }
    s.statusInv ∧ exec (.lvS 0) s = .next (after (exec (.lvS 0) s)) ∧ (after (exec (.lvS 0) s)).engine = .idle ∧
    (after (exec (.lvS 0) s)).status.fault = false ∧
    exec .predict (idle Regs.reset) = .next (after (exec .predict (idle Regs.reset))) ∧
    (after (exec .predict (idle Regs.reset))).engine = .idle ∧
    (after (exec .predict (idle Regs.reset))).status.fault = false :=
  ⟨lv_statusInv, rfl, by decide, by decide, rfl, by decide, by decide⟩

/-- `LvalidTracksDimensions`: `framed` is the next state of a `LAYOUT`; a write of `H`; an `IDWT` without a layout. -/
theorem test_witness_lvalid :
    exec .layout (idle { Regs.reset with w := 32#32, h := 32#32, pstride := .all 32#32 }) = .next framed ∧
    framed.status.fault = false ∧
    (framed.offset 0x44#32 % 4 = 0 ∧ framed.offset 0x44#32 ≠ 0 ∧ framed.status.busy = false) ∧
    ((idle Regs.reset).status.busy = false ∧ (idle Regs.reset).status.lvalid = false ∧
      exec (.idwt .u) (idle Regs.reset) = .next (after (exec (.idwt .u) (idle Regs.reset)))) :=
  ⟨rfl, by decide, by decide, rfl, rfl, rfl⟩

/-- `LayoutResult`, at the largest dimensions. -/
theorem test_witness_layout :
    let s := idle { Regs.reset with w := 64#32, h := 64#32 }
    s.cfg.wf = true ∧ s.status.busy = false ∧ 0 < s.regs.w.toNat ∧ 0 < s.regs.h.toNat ∧ s.regs.w.toNat % 32 = 0 ∧
    s.regs.h.toNat % 32 = 0 ∧ s.regs.w.toNat ≤ s.cfg.maxDim ∧ s.regs.h.toNat ≤ s.cfg.maxDim := by decide

/-- `LayoutFaults`, its two clauses. -/
theorem test_witness_layout_faults :
    let s := idle { Regs.reset with w := 31#32, h := 32#32 }
    let t := idle { Regs.reset with w := 96#32, h := 32#32 }
    (s.status.busy = false ∧ s.regs.w.toNat % 32 ≠ 0) ∧
    (t.status.busy = false ∧ 0 < t.regs.w.toNat ∧ 0 < t.regs.h.toNat ∧ t.regs.w.toNat % 32 = 0 ∧
      t.regs.h.toNat % 32 = 0 ∧ t.cfg.maxDim < t.regs.w.toNat) := by decide

/-- `BandsTileThePlane`, `StepKeepsLayout`, `IdwtResult`: the smallest frame, plane 1. -/
theorem test_witness_idwt : framed.cfg.wf = true ∧ framed.status.busy = false ∧ framed.layoutInv ∧ step framed = .next framed ∧
    framed.status.lvalid = true ∧ (framed.scale.get .u).hor.finite = true ∧ (framed.scale.get .u).ver.finite = true ∧
    ∀ x y, x < (framed.pw.get .u).toNat → y < (framed.ph.get .u).toNat →
      (framed.planeAddr .u x y).toNat < framed.cfg.pmSize := by
  refine ⟨by decide, by decide, framed_layoutInv, rfl, by decide, by decide, by decide, fun x y hx hy => ?_⟩
  have h : ∀ x, x < 16 → ∀ y, y < 16 → (framed.planeAddr .u x y).toNat < 4096 := by decide +kernel
  exact h x hx y hy

/-- `DeclowStarts`, `DechighStarts`: an empty region, a window that ends with BS, the extreme scales. -/
theorem test_witness_coder_starts :
    let s := idle { coderRegs 0 0 0 1 with bsend := 4096#32, hscale := BitVec.ofInt 32 (-32768) }
    let t := idle { coderRegs 4 1 0 0 with hscale := 32767#32 }
    (s.status.busy = false ∧ s.regs.bsptr.toNat ≤ s.regs.bsend.toNat ∧ s.regs.bsend.toNat ≤ s.cfg.bsSize ∧
      s.regs.size.toNat = 0 ∧ -32768 ≤ s.regs.hscale.toInt ∧ s.regs.hscale.toInt ≤ -1) ∧
    (t.status.busy = false ∧ t.regs.bsptr.toNat ≤ t.regs.bsend.toNat ∧ t.regs.bsend.toNat ≤ t.cfg.bsSize ∧
      0 < t.regs.width.toNat ∧ 1 ≤ t.regs.hscale.toInt ∧ t.regs.hscale.toInt ≤ 32767) := by decide

/-- `CoderStartFaults`: a bad window, a width of 0, a scale of 0, a scale out of range on each side. -/
theorem test_witness_coder_faults :
    let a := idle { coderRegs 4 1 0 0 with bsend := 4097#32 }
    let b := idle (coderRegs 1 0 0 0)
    let c := idle { coderRegs 0 0 0 0 with hscale := 0#32 }
    let d := idle { coderRegs 0 0 0 0 with hscale := 32768#32 }
    let e := idle { coderRegs 0 0 0 0 with hscale := BitVec.ofInt 32 (-32769) }
    (a.status.busy = false ∧ a.engine = .idle ∧ a.cfg.bsSize < a.regs.bsend.toNat) ∧
    (0 < b.regs.size.toNat ∧ b.regs.width.toNat = 0) ∧
    (¬(c.regs.bsend.toNat < c.regs.bsptr.toNat ∨ c.cfg.bsSize < c.regs.bsend.toNat) ∧ c.regs.size.toNat = 0 ∧
      c.regs.hscale.toInt = 0) ∧ 32768 ≤ d.regs.hscale.toInt ∧ e.regs.hscale.toInt ≤ -32769 := by decide

/-- `LowValueForms`, each clause at the ends of its range. -/
theorem test_witness_low_values :
    ValueReady .low (7 + 1) (newState 120 lv (1 * 7 + 0)) lv ∧
    (valueWidth lv2.work.state.toNat = 2 ∧ ValueReady .low (7 + 1 + 2) (newState 120 lv2 (3 + 3 * 7 - 1 + 1)) lv2) ∧
    ValueReady .low 24 (newState 120 lv2 (65535 + 1)) lv2 := by
  unfold ValueReady; decide

/-- `LowRunForms`, each clause: the longest short and long forms, an escape that fills the region. -/
theorem test_witness_low_runs : runWidth lr.work.state.toNat = 3 ∧
    RunReady .low (7 + 3) (7 * 7) lr ∧ RunReady .low (7 + 1 + 3) (7 + 7 * 7 - 1) lr ∧
    RunReady .low 24 (300#16).toNat lr :=
  ⟨by decide, ⟨rfl, rfl, rfl, lr_coderInv, by decide, by decide, by decide +kernel⟩,
    ⟨rfl, rfl, rfl, lr_coderInv, by decide, by decide, by decide +kernel⟩,
    ⟨rfl, rfl, rfl, lr_coderInv, by decide, by decide, by decide +kernel⟩⟩

/-- `HighValueForms`, each clause at the ends of its range. -/
theorem test_witness_high_values :
    (20 < hv.work.length ∧ ValueReady .high (20 + 1) (newState hv.regs.hd.toInt hv (0 + 1 * 20)) hv) ∧
    (valueWidth hv2.work.state.toNat = 2 ∧
      ValueReady .high (20 + 1 + 2) (newState hv2.regs.hd.toInt hv2 (1 + (3 * 20 + 3 - 1))) hv2) ∧
    (hv.coderInv ∧ 15 < 2 ^ hv.work.nbits ∧ ValueReady .high 25 (newState hv.regs.hd.toInt hv (0 + 15)) hv) := by
  refine ⟨?_, ?_, hv_coderInv, ?_⟩ <;> (try unfold ValueReady) <;> decide

/-- `HighRunForms`, each clause. -/
theorem test_witness_high_runs : runWidth hr.work.state.toNat = 3 ∧
    (7 * 7 ≤ 0xFFFF ∧ RunReady .high (7 + 3) (7 * 7) hr) ∧
    (7 + 7 * 7 - 1 ≤ 0xFFFF ∧ RunReady .high (7 + 1 + 3) (7 + 7 * 7 - 1) hr) ∧
    RunReady .high 17 ((244#8).toNat + 8 * 7) hr ∧ RunReady .high 25 ((0#16).toNat + 8 * 7) hr :=
  ⟨by decide, ⟨by decide, rfl, rfl, rfl, hr_coderInv, by decide, by decide, by decide +kernel⟩,
    ⟨by decide, rfl, rfl, rfl, hr_coderInv, by decide, by decide, by decide +kernel⟩,
    ⟨rfl, rfl, rfl, hr_coderInv, by decide, by decide, by decide +kernel⟩,
    ⟨rfl, rfl, rfl, hr_coderInv, by decide, by decide, by decide +kernel⟩⟩

/-- `CodewordBitsExhausted`: the last bit of the window is one too few. -/
theorem test_witness_bits_exhausted :
    let s := { lv with work := { lv.work with pos := 127 } }
    s.coderInv ∧ s.ctx = some (lowV 1) ∧ (Instr.lvS 1).wf (lowV 1) = true ∧ (Instr.lvS 1).isCodeword = true ∧
    s.limit < s.work.pos + (Instr.lvS 1).bitLength (lowV 1) :=
  ⟨fun _ => ⟨by decide, by decide, by decide, by decide, by decide, by decide, by decide, by decide, fun _ => by decide,
    fun _ => by decide, fun _ => by decide⟩, rfl, by decide, by decide, by decide⟩

/-- A `DECLOW` and a `DECHIGH` in their run step, with three coefficients to decode. -/
def lr3 : State := coding (.run .low) 16 false 3
def hr3 : State := coding (.run .high) 16 false 3

/-- `RunRejections`: the least run that passes `SIZE`, of each form, and the least that passes `0xFFFF`. -/
theorem test_witness_run_rejections :
    let meets (s : State) (c : Ctx) (i : Instr) (rlen : Nat) : Prop :=
      s.ctx = some c ∧ i.wf c = true ∧ runNumber c.n i = some rlen ∧ s.work.pos + i.bitLength c ≤ s.limit ∧
        s.regs.size.toNat < s.work.i.toNat + rlen
    (lr3.coderInv ∧ lr3.engine = .run .low ∧ meets lr3 (lowR 3) (.lrS 1) 7 ∧ meets lr3 (lowR 3) (.lrL 0 5) 4 ∧
      meets lr3 (lowR 3) (.lrX 4#16) 4) ∧
    (hr3.coderInv ∧ hr3.engine = .run .high ∧ meets hr3 (highR 3) (.hrS 1) 7 ∧ meets hr3 (highR 3) (.hrL 0 5) 4 ∧
      meets hr3 (highR 3) (.hrX8 0#8) 56 ∧ meets hr3 (highR 3) (.hrX16 65479#16) 0xFFFF ∧
      meets hr3 (highR 3) (.hrX16 65480#16) 0x10000) := by
  refine ⟨⟨fun _ => ?_, ?_⟩, fun _ => ?_, ?_⟩
  · exact ⟨by decide, by decide, by decide, by decide, by decide, by decide, by decide, by decide, fun _ => by decide,
      fun _ => by decide, fun _ => by decide⟩
  · decide
  · exact ⟨by decide, by decide, by decide, by decide, by decide, by decide, by decide, by decide, fun _ => by decide,
      fun _ => by decide, fun _ => by decide⟩
  · decide

/-- A `DECHIGH` in its value step at `state = 300`, `n = 2`, with this `d`. -/
def hvWith (d : Word) : State :=
  let s := coding (.value .high) 300 false 8
  { s with regs := { s.regs with hd := d } }

theorem hvWith_coderInv (d : Word) : (hvWith d).coderInv := fun _ =>
  ⟨by show 3 ≤ 19; decide, by show 19 ≤ 4096; decide, Nat.zero_le _, by show 0 < 5; decide, by show 0 < 8; decide,
    rfl, by show 0#32 = BitVec.ofNat 32 (0 / 5) * 8#32; decide, by show (300 : Int) ≤ 2 ^ 31 - 1; decide, fun h => (by obtain ⟨v, h⟩ := h; cases h),
    fun h => (by rcases h with h | h <;> cases h), fun _ => ⟨by show 1 ≤ 4; decide, by show 4 ≤ 16; decide, rfl,
      by show highWidth (6#32 : Word).toInt = .ok 4; decide⟩⟩

/-- `StateRangeFault`: below 0 as in R208 (`state = 300`, `d = 300`, `x = 0`), and past each end for the other forms. -/
theorem test_witness_state_range :
    let a := hvWith 300#32
    let b := hvWith 0x7FFFFFFF#32
    let meets (s : State) (i : Instr) (m : Nat) : Prop :=
      s.ctx = some (highV 2 4) ∧ i.wf (highV 2 4) = true ∧ valueNumber 2 i = some m ∧
        s.work.pos + i.bitLength (highV 2 4) ≤ s.limit
    (a.engine = .value .high ∧ a.race.raced = false ∧ a.pm.wf = true ∧ a.emitAddr.toNat < a.cfg.pmSize) ∧
    (meets a (.hvS 0) 0 ∧ newState a.regs.hd.toInt a 0 < 0) ∧
    (meets b (.hvL 0 2) 1 ∧ newState b.regs.hd.toInt b 1 < 0) ∧
    (meets b (.hvS 1) 3 ∧ Config.stateMax < newState b.regs.hd.toInt b 3) ∧
    (meets b (.hvX 15) 15 ∧ Config.stateMax < newState b.regs.hd.toInt b 15) := by decide

/-- `CoefficientOutOfBounds`: the cell at `PM_SIZE`; a run of four zeros of which the third is there. -/
theorem test_witness_out_of_bounds :
    let s := { lv with cfg := { lv.cfg with pmSize := 100 } }
    let t := { lr with cfg := { lr.cfg with pmSize := 102 } }
    (s.coderInv ∧ s.engine = .value .low ∧ s.ctx = some (lowV 1) ∧ (Instr.lvX 0#16).wf (lowV 1) = true ∧
      (Instr.lvX 0#16).isCodeword = true ∧ s.work.pos + (Instr.lvX 0#16).bitLength (lowV 1) ≤ s.limit ∧
      s.cfg.pmSize ≤ s.emitAddr.toNat) ∧
    (t.coderInv ∧ t.engine = .run .low ∧ t.ctx = some (lowR 3) ∧ (Instr.lrL 0 5).wf (lowR 3) = true ∧
      runNumber 3 (.lrL 0 5) = some 4 ∧ t.race.raced = false ∧ t.pm.wf = true ∧
      t.work.pos + (Instr.lrL 0 5).bitLength (lowR 3) ≤ t.limit ∧ t.work.i.toNat + 4 ≤ t.regs.size.toNat ∧
      t.cfg.pmSize ≤ (t.coeffAddr (t.work.i.toNat + 2)).toNat ∧
      ∀ k, k < 2 → (t.coeffAddr (t.work.i.toNat + k)).toNat < t.cfg.pmSize) := by
  refine ⟨⟨fun _ => ?_, ?_⟩, fun _ => ?_, ?_⟩
  · exact ⟨by decide, by decide, by decide, by decide, by decide, by decide, by decide, by decide, fun _ => by decide,
      fun _ => by decide, fun _ => by decide⟩
  · decide
  · exact ⟨by decide, by decide, by decide, by decide, by decide, by decide, by decide, by decide, fun _ => by decide,
      fun _ => by decide, fun _ => by decide⟩
  · decide

/-- `CodewordWritesItsCells`: a cell that belongs to no coefficient to come. -/
theorem test_witness_codeword_cells :
    let s := { lv with regs := { lv.regs with size := 2#32 } }
    s.coderInv ∧ (Instr.lvS 0).isCodeword = true ∧ exec (.lvS 0) s = .next (after (exec (.lvS 0) s)) ∧
    ∀ k, k < s.regs.size.toNat → s.work.i.toNat ≤ k → (s.coeffAddr k).toNat ≠ 99 :=
  ⟨fun _ => ⟨by decide, by decide, by decide, by decide, by decide, by decide, by decide, by decide, fun _ => by decide,
    fun _ => by decide, fun _ => by decide⟩, rfl, rfl, by decide⟩

/-- `CoderRunFrame`: the command of R182 and its two codewords. -/
theorem test_witness_coder_run :
    let s := { idle (coderRegs 10 5 8 1) with bs := [(3, 0x0A#8)] }
    let u := after (exec .declow s)
    let t := after (step (after (step u)))
    s.statusInv ∧ s.status.busy = false ∧ s.host = [] ∧ exec .declow s = .next u ∧
    Sys2Proof.core.run 2 u = .next t ∧ t.status.done = true :=
  ⟨idle_statusInv (coderRegs 10 5 8 1), rfl, rfl, rfl, rfl, by decide +kernel⟩

/-- `PredictIsPrefixSum`, `PredictCompletes`: a region that ends with PM. -/
theorem test_witness_predict :
    let s := idle { Regs.reset with dst := 4088#32, width := 3#32, height := 2#32, stride := 5#32 }
    s.status.busy = false ∧ s.pm.wf = true ∧ s.regs.width.toNat ≤ s.cfg.maxDim ∧
    s.regs.width.toNat ≤ s.regs.stride.toNat ∧
    s.regs.dst.toNat + (s.regs.height.toNat - 1) * s.regs.stride.toNat + s.regs.width.toNat ≤ s.cfg.pmSize ∧
    (∀ r, r < s.regs.height.toNat → ∀ j, j < s.regs.width.toNat → (s.regionAddr r j).toNat < s.cfg.pmSize) ∧
    (∀ r, r < s.regs.height.toNat → ∀ j, j < s.regs.width.toNat → (s.regionAddr r j).toNat ≠ 4091) := by decide

/-- `PredictChecks`, its three clauses, the last with a region that starts beyond PM and with one that ends there. -/
theorem test_witness_predict_checks :
    let a := idle { Regs.reset with width := 65#32 }
    let b := idle { Regs.reset with width := 64#32 }
    let c := idle { Regs.reset with width := 1#32, height := 1#32, dst := 4096#32 }
    let d := idle { Regs.reset with width := 2#32, height := 2#32, stride := 2#32, dst := 4093#32 }
    (a.status.busy = false ∧ a.cfg.maxDim < a.regs.width.toNat) ∧
    (b.regs.width.toNat ≤ b.cfg.maxDim ∧ b.regs.height.toNat = 0) ∧
    (c.regs.width.toNat ≤ c.cfg.maxDim ∧ 0 < c.regs.width.toNat * c.regs.height.toNat ∧
      c.cfg.pmSize ≤ (c.regionAddr (0 / 1) (0 % 1)).toNat) ∧
    (d.regs.width.toNat ≤ d.cfg.maxDim ∧ 3 < d.regs.width.toNat * d.regs.height.toNat ∧
      d.cfg.pmSize ≤ (d.regionAddr (3 / 2) (3 % 2)).toNat ∧
      ∀ k, k < 3 → (d.regionAddr (k / 2) (k % 2)).toNat < d.cfg.pmSize) := by decide

/-- `Filt1dResult`, `Filt1dCompletes`: the shortest vector. -/
theorem test_witness_filt1d :
    let s := idle (filterRegs 2 0x3FF0000000000000#64)
    s.status.busy = false ∧ s.pm.wf = true ∧ 2 ≤ s.regs.size.toNat ∧ s.regs.size.toNat % 2 = 0 ∧
    s.regs.size.toNat ≤ s.cfg.maxDim ∧ f64Finite s.regs.fscale = true ∧
    (∀ t, t < s.regs.size.toNat → (elemAddr s.regs.dst s.regs.stride t).toNat < s.cfg.pmSize) ∧
    (∀ t, t < s.regs.size.toNat → ∀ u, u < s.regs.size.toNat →
      (elemAddr s.regs.dst s.regs.stride t).toNat = (elemAddr s.regs.dst s.regs.stride u).toNat → t = u) := by decide

/-- `Filt1dFaults`, its four clauses. -/
theorem test_witness_filt1d_faults :
    let a := idle (filterRegs 3 0x3FF0000000000000#64)
    let b := idle (filterRegs 66 0x3FF0000000000000#64)
    let c := idle (filterRegs 2 0x7FF0000000000000#64)
    let d := idle { filterRegs 64 0x3FF0000000000000#64 with dst := 4033#32 }
    (a.status.busy = false ∧ a.regs.size.toNat % 2 = 1) ∧
    (2 ≤ b.regs.size.toNat ∧ b.regs.size.toNat % 2 = 0 ∧ b.cfg.maxDim < b.regs.size.toNat) ∧
    (2 ≤ c.regs.size.toNat ∧ c.regs.size.toNat ≤ c.cfg.maxDim ∧ f64Finite c.regs.fscale = false) ∧
    (d.regs.size.toNat ≤ d.cfg.maxDim ∧ f64Finite d.regs.fscale = true ∧ 63 < d.regs.size.toNat ∧
      d.cfg.pmSize ≤ (elemAddr d.regs.dst d.regs.stride 63).toNat) := by decide

/-- `IdwtFaults`: no layout; a scale that is not finite; a third row that starts beyond PM. -/
theorem test_witness_idwt_faults :
    let s := { framed with scale := framed.scale.set .v { (framed.scale.get .v) with hor := .all 0x7FF8000000000000#64 } }
    let t := { framed with cfg := { framed.cfg with pmSize := 64 } }
    ((idle Regs.reset).status.busy = false ∧ (idle Regs.reset).status.lvalid = false) ∧
    (s.status.busy = false ∧ (s.scale.get .v).hor.finite = false) ∧
    (t.status.busy = false ∧ t.status.lvalid = true ∧ (t.scale.get .y).hor.finite = true ∧
      (t.scale.get .y).ver.finite = true ∧
      (idwtSchedule t .y)[2]? = some { base := 64#32, n := 4, pitch := 1#32, scale := 0#64 } ∧
      (∀ g ∈ (idwtSchedule t .y).take 2, ∀ u, u < g.n → g.addr u < t.cfg.pmSize) ∧
      t.cfg.pmSize ≤ FilterApp.addr { base := 64#32, n := 4, pitch := 1#32, scale := 0#64 } 0) := by decide +kernel

/-- `RoundToBinary64IsNearest`, `RoundOverflow`: a number that rounds, and the least magnitude that overflows. -/
theorem test_witness_rounding :
    rne64 { mant := 2 ^ 53 + 1, exp := 0 } = .num { mant := 2 ^ 52, exp := 1 } ∧
    rne64 { mant := -(2 ^ 54 - 1), exp := 970 } = .inf true := by decide +kernel

/-- `HiddenStateUnobservable`: two idle states that differ in a working register and in the scratch. -/
theorem test_witness_hidden :
    let s := idle Regs.reset
    SameVisible s { s with work := { s.work with state := 9#32 }, scratch := { s.scratch with pred := [1#16] } } ∧
    step s = .next (after (step s)) := by
  refine ⟨⟨rfl, fun h => ?_, fun h => ?_⟩, rfl⟩ <;> exact absurd h (by decide)

end Sys2Proof.Tests
end

/-! SUPPORT. What the meanings of the instructions can do, said once: what a command's or a codeword's pseudocode leaves
alone, and every way in which `exec` answers a next state. -/

namespace Sys2Proof.Machine

/-! ### What the pseudocode of a command or a codeword leaves alone -/

/-- From `s` to `u` at most the working registers, the hidden scratch and PM with its log changed. -/
def BodyKept (s u : State) : Prop :=
  ∃ work scratch pm pmLog, u = { s with work := work, scratch := scratch, pm := pm, pmLog := pmLog }

theorem BodyKept.refl (s : State) : BodyKept s s := ⟨_, _, _, _, rfl⟩

theorem BodyKept.trans {s u v : State} (hu : BodyKept s u) (hv : BodyKept u v) : BodyKept s v := by
  obtain ⟨_, _, _, _, rfl⟩ := hu
  obtain ⟨_, _, _, _, rfl⟩ := hv
  exact ⟨_, _, _, _, rfl⟩

theorem BodyKept.status_eq {s u : State} (h : BodyKept s u) : u.status = s.status := by
  obtain ⟨_, _, _, _, rfl⟩ := h
  rfl

theorem BodyKept.ret_eq {s u : State} (h : BodyKept s u) : u.ret = s.ret := by
  obtain ⟨_, _, _, _, rfl⟩ := h
  rfl

theorem BodyKept.race_eq {s u : State} (h : BodyKept s u) : u.race = s.race := by
  obtain ⟨_, _, _, _, rfl⟩ := h
  rfl

/-- Wherever `f` starts, it ends, gone on or stopped, with all but the fields of `BodyKept` as they were. -/
def RunKeeps (f : State → Run) : Prop := ∀ s, (f s).EndsIn (BodyKept s)

theorem endsIn_mono {P Q : State → Prop} {r : Run} (hr : r.EndsIn P) (h : ∀ u, P u → Q u) : r.EndsIn Q := by
  cases r with
  | go u => exact h u hr
  | stop code u => exact h u hr

theorem endsIn_bodyKept_bind {s : State} {r : Run} {f : State → Run} (hr : r.EndsIn (BodyKept s)) (hf : RunKeeps f) :
    (r.bind f).EndsIn (BodyKept s) :=
  endsIn_bind hr (fun u hu => endsIn_mono (hf u) (fun _ => hu.trans))

theorem runKeeps_forUpTo {body : Nat → State → Run} (n : Nat) (hb : ∀ t, RunKeeps (body t)) :
    RunKeeps (Run.forUpTo n body) :=
  fun s => endsIn_forUpTo n s (.refl s) (fun t _ u hu => endsIn_mono (hb t u) (fun _ => hu.trans))

theorem runKeeps_skip (n : Nat) : RunKeeps (skip n) := by
  intro s
  rcases skip_cases n s with ⟨-, e⟩ | ⟨-, e⟩ <;> rw [e]
  · exact ⟨_, _, _, _, rfl⟩
  · exact .refl s

theorem runKeeps_sampRead (a : Word) {k : Sample → State → Run} (hk : ∀ v, RunKeeps (k v)) :
    RunKeeps (sampRead a k) := by
  intro s
  rcases Nat.lt_or_ge a.toNat s.cfg.pmSize with h | h
  · rw [sampRead_of_lt h]; exact hk _ s
  · rw [sampRead_of_ge h]; exact .refl s

theorem runKeeps_sampWrite (a : Word) (v : Sample) : RunKeeps (sampWrite a v) := by
  intro s
  rcases sampWrite_cases a v s with ⟨-, e⟩ | ⟨-, e⟩ <;> rw [e]
  · exact ⟨_, _, _, _, rfl⟩
  · exact .refl s

theorem runKeeps_emit (v : Int) : RunKeeps (emit v) := by
  intro s
  rcases emit_cases v s with ⟨-, e⟩ | ⟨-, e⟩ <;> rw [e]
  · exact ⟨_, _, _, _, rfl⟩
  · exact .refl s

theorem runKeeps_adapt (gain : Int) (x : Nat) : RunKeeps (adapt gain x) := by
  intro s
  rcases adapt_cases gain x s with ⟨-, -, e⟩ | ⟨-, e⟩ <;> rw [e]
  · exact ⟨_, _, _, _, rfl⟩
  · exact .refl s

theorem runKeeps_lowValue (escape : Nat) : RunKeeps (lowValue escape) :=
  fun s => endsIn_bodyKept_bind (runKeeps_emit _ s) (runKeeps_adapt _ _)

theorem runKeeps_highValue (cnt1 : Nat) : RunKeeps (highValue cnt1) :=
  fun s => endsIn_bodyKept_bind (runKeeps_emit _ s) (runKeeps_adapt _ _)

theorem runKeeps_zeroRun (rlen : Nat) : RunKeeps (zeroRun rlen) := by
  intro s
  unfold zeroRun
  split
  · exact .refl s
  · exact endsIn_bodyKept_bind (runKeeps_forUpTo rlen (fun _ => runKeeps_emit 0) s) (fun _ => ⟨_, _, _, _, rfl⟩)

theorem runKeeps_zeroRunCapped (rlen : Nat) : RunKeeps (zeroRunCapped rlen) := by
  intro s
  unfold zeroRunCapped
  split
  · exact .refl s
  · exact runKeeps_zeroRun rlen s

theorem runKeeps_predictFirst (a : Word) : RunKeeps (predictFirst a) :=
  runKeeps_sampRead a (fun _ s => endsIn_bodyKept_bind (runKeeps_sampWrite _ _ s) (fun _ => ⟨_, _, _, _, rfl⟩))

theorem runKeeps_predictNext (a : Word) (j : Nat) : RunKeeps (predictNext a j) := by
  refine runKeeps_sampRead _ (fun old s => endsIn_bodyKept_bind (runKeeps_sampWrite _ _ s) (fun u => ?_))
  have hset : BodyKept u (u.setPred j (s.predAt j + old)) := ⟨_, _, _, _, rfl⟩
  exact endsIn_mono (runKeeps_sampRead _ (fun _ => runKeeps_sampWrite _ _) _) (fun _ => hset.trans)

theorem runKeeps_predictRow (r : Nat) : RunKeeps (predictRow r) :=
  fun s => endsIn_bodyKept_bind (runKeeps_predictFirst _ s) (runKeeps_forUpTo _ (fun _ => runKeeps_predictNext _ _))

theorem runKeeps_predictBody : RunKeeps predictBody := by
  intro s
  unfold predictBody
  split_ifs
  · exact .refl s
  · exact .refl s
  · have hpred : BodyKept s { s with scratch := { s.scratch with pred := List.replicate s.regs.width.toNat 0#16 } } :=
      ⟨_, _, _, _, rfl⟩
    exact endsIn_mono (runKeeps_forUpTo _ runKeeps_predictRow _) (fun _ => hpred.trans)

theorem runKeeps_filterCells (base : Word) (n : Nat) (pitch : Word) (scale : BitVec 64) :
    RunKeeps (filterCells base n pitch scale) :=
  fun s => endsIn_mono (filterCells_frame base n pitch scale s) (fun _ h => ⟨_, _, _, _, h⟩)

theorem runKeeps_filt1dBody : RunKeeps filt1dBody := by
  intro s
  unfold filt1dBody
  simp only
  split_ifs
  · exact .refl s
  · exact .refl s
  · exact .refl s
  · exact runKeeps_filterCells _ _ _ _ s

theorem runKeeps_idwtLevel (p : Plane) (k : Nat) : RunKeeps (fun s => (idwtRows p k s).bind (idwtCols p k)) :=
  fun s => endsIn_bodyKept_bind (endsIn_mono (idwtRows_frame p k s) (fun _ h => ⟨_, _, _, _, h⟩))
    (fun u => endsIn_mono (idwtCols_frame p k u) (fun _ h => ⟨_, _, _, _, h⟩))

theorem runKeeps_idwtBody (p : Plane) : RunKeeps (idwtBody p) := by
  intro s
  unfold idwtBody
  split_ifs
  · exact .refl s
  · exact .refl s
  · exact runKeeps_forUpTo 4 (runKeeps_idwtLevel p) s

/-! ### The start of a coder command (R161, R162, R201, R203, R204) -/

/-- All the shared start checks can do. -/
theorem coderChecks_cases (s : State) : coderChecks s = .go s ∨ coderChecks s = .stop .badConfig s := by
  unfold coderChecks
  split_ifs <;> simp

/-- All the constants of `DECHIGH` can do: they write working registers, or reject `scale`. -/
theorem highConstants_cases (s : State) :
    (∃ work, highConstants s = .go { s with work := work }) ∨ (∃ code, highConstants s = .stop code s) := by
  unfold highConstants
  cases highWidth s.regs.hscale.toInt with
  | error code => exact .inr ⟨code, rfl⟩
  | ok nbits => exact .inl ⟨_, rfl⟩

/-- A start that, from `s`, clears the record of races and writes working registers, or faults with no effect. -/
def StartKeeps (start : State → Run) : Prop :=
  ∀ s, (∃ work, start s = .go { s with work := work, race := s.race.clear }) ∨ (∃ code, start s = .stop code s)

theorem startKeeps_declow : StartKeeps (fun s => (coderChecks s).bind (fun s => .go s.coderInit)) := by
  intro s
  beta_reduce
  rcases coderChecks_cases s with e | e <;> rw [e]
  · exact .inl ⟨_, rfl⟩
  · exact .inr ⟨_, rfl⟩

theorem startKeeps_dechigh :
    StartKeeps (fun s => ((coderChecks s).bind highConstants).bind (fun s => .go s.coderInit)) := by
  intro s
  beta_reduce
  rcases coderChecks_cases s with e | e <;> rw [e]
  · rw [bind_go]
    rcases highConstants_cases s with ⟨work, e'⟩ | ⟨code, e'⟩ <;> rw [e']
    · exact .inl ⟨_, rfl⟩
    · exact .inr ⟨_, rfl⟩
  · exact .inr ⟨_, rfl⟩

/-! ### Where the loop of a coder command goes -/

/-- A coder command waits for its next codeword, or ends with `RET` and normal completion. -/
def CoderGoesTo (u t : State) : Prop := (∃ e, e ≠ .idle ∧ t = { u with engine := e }) ∨ t = u.retire

theorem nextValue_goesTo (v : Variant) (u : State) : CoderGoesTo u (u.nextValue v) := by
  rcases nextValue_cases v u with ⟨-, e⟩ | ⟨-, e⟩ <;> rw [e]
  · exact .inl ⟨_, by simp, rfl⟩
  · exact .inr rfl

theorem afterValue_goesTo (v : Variant) (u : State) : CoderGoesTo u (u.afterValue v) := by
  rcases afterValue_cases v u with ⟨-, e⟩ | ⟨-, e⟩ <;> rw [e]
  · exact .inl ⟨_, by simp, rfl⟩
  · exact nextValue_goesTo v u

/-! ### Every next state of `exec` -/

/-- The commands that work on PM in one step. -/
def IsPlaneCommand (i : Instr) : Prop := i = .predict ∨ i = .filt1d ∨ ∃ p, i = .idwt p

/-- The next states that `exec i s` can answer, by the kind of instruction and by how it ends. -/
inductive ExecOutcome (i : Instr) (s : State) : State → Prop
  /-- A command while `BUSY = 1` is ignored (R41). -/
  | ignored (hi : i.isCodeword = false) (hb : s.status.busy = true) : ExecOutcome i s s
  /-- `LAYOUT` wrote its tables (R147). -/
  | layoutDone (hi : i = .layout) (pw ph : Tri Word) (band : Tri BandTable) :
      ExecOutcome i s (State.setLvalid { s.accept with pw := pw, ph := ph, band := band } true).complete
  /-- `LAYOUT` rejected `W`, `H` (R141). -/
  | layoutFault (hi : i = .layout) (code : ErrCode) : ExecOutcome i s ((s.accept.setLvalid false).raise code)
  /-- A command on PM ran to its end. -/
  | planeDone (hi : IsPlaneCommand i) {u : State} (hu : BodyKept s.accept u) : ExecOutcome i s u.complete
  /-- A command on PM faulted. -/
  | planeFault (hi : IsPlaneCommand i) {u : State} (hu : BodyKept s.accept u) (code : ErrCode) :
      ExecOutcome i s (u.raise code)
  /-- A coder command was initialised (R162, R204). -/
  | coderStart (hi : i = .declow ∨ i = .dechigh) (work : Work) {t : State}
      (ht : CoderGoesTo { s.accept with work := work, race := s.race.clear } t) : ExecOutcome i s t
  /-- A coder command failed its start checks (R161, R201, R203). -/
  | coderFault (hi : i = .declow ∨ i = .dechigh) (code : ErrCode) : ExecOutcome i s (s.accept.raise code)
  /-- A codeword ran to its end. -/
  | codewordDone (hi : i.isCodeword = true) {u t : State} (hu : BodyKept s u) (ht : CoderGoesTo u t) :
      ExecOutcome i s t
  /-- A codeword faulted. -/
  | codewordFault (hi : i.isCodeword = true) {u : State} (hu : BodyKept s u) (code : ErrCode) :
      ExecOutcome i s (u.raise code)

/-- All `LAYOUT` can do on an idle block. -/
theorem execLayout_cases {s t : State} (hb : s.status.busy = false) (h : execLayout s = .next t) :
    (∃ pw ph band, t = (State.setLvalid { s.accept with pw := pw, ph := ph, band := band } true).complete) ∨
    (∃ code, t = (s.accept.setLvalid false).raise code) := by
  obtain ⟨hb', -⟩ | ⟨-, rfl⟩ := runCommand_next.1 h
  · simp [hb] at hb'
  · unfold layoutBody
    simp only
    split_ifs
    · exact .inr ⟨_, rfl⟩
    · exact .inr ⟨_, rfl⟩
    · exact .inl ⟨_, _, _, rfl⟩

theorem execLayout_outcome {s t : State} (h : execLayout s = .next t) : ExecOutcome .layout s t := by
  obtain ⟨hb, rfl⟩ | ⟨hb, -⟩ := runCommand_next.1 h
  · exact .ignored rfl hb
  · obtain ⟨pw, ph, band, rfl⟩ | ⟨code, rfl⟩ := execLayout_cases hb h
    · exact .layoutDone rfl pw ph band
    · exact .layoutFault rfl code

/-- All a command on PM can do. -/
theorem runCommand_outcome {i : Instr} {body : State → Run} {s t : State} (hi : IsPlaneCommand i)
    (hbody : RunKeeps body) (h : runCommand body s = .next t) : ExecOutcome i s t := by
  obtain ⟨hb, rfl⟩ | ⟨hb, rfl⟩ := runCommand_next.1 h
  · refine .ignored ?_ hb
    obtain rfl | rfl | ⟨p, rfl⟩ := hi <;> rfl
  · have hk := hbody s.accept
    cases hr : body s.accept with
    | go u => rw [hr] at hk; exact .planeDone hi hk
    | stop code u => rw [hr] at hk; exact .planeFault hi hk code

/-- All a coder command can do. -/
theorem startCoder_outcome {i : Instr} {v : Variant} {start : State → Run} {s t : State}
    (hi : i = .declow ∨ i = .dechigh) (hstart : StartKeeps start) (h : startCoder v start s = .next t) :
    ExecOutcome i s t := by
  obtain ⟨hb, rfl⟩ | ⟨hb, ⟨u, hgo, rfl⟩ | ⟨code, u, hstop, rfl⟩⟩ := startCoder_next.1 h
  · refine .ignored ?_ hb
    obtain rfl | rfl := hi <;> rfl
  · obtain ⟨work, e⟩ | ⟨code, e⟩ := hstart s.accept
    · obtain rfl : _ = u := Run.go.inj (e.symm.trans hgo)
      exact .coderStart hi work (nextValue_goesTo v _)
    · exact nomatch e.symm.trans hgo
  · obtain ⟨work, e⟩ | ⟨code', e⟩ := hstart s.accept
    · exact nomatch e.symm.trans hstop
    · obtain ⟨rfl, rfl⟩ := Run.stop.inj (e.symm.trans hstop)
      exact .coderFault hi _

/-- All a codeword can do. -/
theorem execCodeword_outcome {i : Instr} {at_ : Engine} {len : Nat} {body : State → Run} {after : State → State}
    {s t : State} (hi : i.isCodeword = true) (hbody : RunKeeps body) (hafter : ∀ u, CoderGoesTo u (after u))
    (h : execCodeword at_ len body after s = .next t) : ExecOutcome i s t := by
  have hk : ((skip len s).bind body).EndsIn (BodyKept s) := endsIn_bodyKept_bind (runKeeps_skip len s) hbody
  obtain ⟨-, ⟨u, hgo, rfl⟩ | ⟨code, u, hstop, rfl⟩⟩ := execCodeword_next.1 h
  · rw [hgo] at hk
    exact .codewordDone hi hk (hafter u)
  · rw [hstop] at hk
    exact .codewordFault hi hk code

/-- Every next state of `exec` is one of the outcomes. -/
theorem exec_outcome {i : Instr} {s t : State} (h : exec i s = .next t) : ExecOutcome i s t := by
  cases i with
  | layout => exact execLayout_outcome h
  | declow => exact startCoder_outcome (.inl rfl) startKeeps_declow h
  | dechigh => exact startCoder_outcome (.inr rfl) startKeeps_dechigh h
  | predict => exact runCommand_outcome (.inl rfl) runKeeps_predictBody h
  | filt1d => exact runCommand_outcome (.inr (.inl rfl)) runKeeps_filt1dBody h
  | idwt p => exact runCommand_outcome (.inr (.inr ⟨p, rfl⟩)) (runKeeps_idwtBody p) h
  | lvS | lvL | lvX => exact execCodeword_outcome rfl (runKeeps_lowValue _) (afterValue_goesTo .low) h
  | lrS | lrL | lrX => exact execCodeword_outcome rfl (runKeeps_zeroRun _) (nextValue_goesTo .low) h
  | hvS | hvL | hvX => exact execCodeword_outcome rfl (runKeeps_highValue _) (afterValue_goesTo .high) h
  | hrS | hrL | hrX8 | hrX16 =>
    exact execCodeword_outcome rfl (runKeeps_zeroRunCapped _) (nextValue_goesTo .high) h

/-! ### Operand registers and the host's fields (R42, R43) -/

/-- From `s` to `t` no operand register, no scale, no byte of BS, no parameter and none of the host's fields changed. -/
structure OperandsKept (s t : State) : Prop where
  regs : t.regs = s.regs
  scale : t.scale = s.scale
  bs : t.bs = s.bs
  cfg : t.cfg = s.cfg
  host : t.host = s.host
  rdata : t.rdata = s.rdata

theorem OperandsKept.refl (s : State) : OperandsKept s s := ⟨rfl, rfl, rfl, rfl, rfl, rfl⟩

theorem OperandsKept.trans {s t u : State} (h : OperandsKept s t) (h' : OperandsKept t u) : OperandsKept s u :=
  ⟨h'.regs.trans h.regs, h'.scale.trans h.scale, h'.bs.trans h.bs, h'.cfg.trans h.cfg, h'.host.trans h.host,
    h'.rdata.trans h.rdata⟩

theorem OperandsKept.accept (s : State) : OperandsKept s s.accept := ⟨rfl, rfl, rfl, rfl, rfl, rfl⟩

theorem OperandsKept.complete (s : State) : OperandsKept s s.complete := ⟨rfl, rfl, rfl, rfl, rfl, rfl⟩

theorem OperandsKept.raise (s : State) (code : ErrCode) : OperandsKept s (s.raise code) :=
  ⟨rfl, rfl, rfl, rfl, rfl, rfl⟩

theorem BodyKept.operandsKept {s u : State} (h : BodyKept s u) : OperandsKept s u := by
  obtain ⟨_, _, _, _, rfl⟩ := h
  exact ⟨rfl, rfl, rfl, rfl, rfl, rfl⟩

theorem CoderGoesTo.operandsKept {u t : State} (h : CoderGoesTo u t) : OperandsKept u t := by
  obtain ⟨_, -, rfl⟩ | rfl := h <;> exact ⟨rfl, rfl, rfl, rfl, rfl, rfl⟩

theorem ExecOutcome.operandsKept {i : Instr} {s t : State} (h : ExecOutcome i s t) : OperandsKept s t := by
  cases h with
  | ignored => exact .refl s
  | layoutDone => exact ⟨rfl, rfl, rfl, rfl, rfl, rfl⟩
  | layoutFault => exact ⟨rfl, rfl, rfl, rfl, rfl, rfl⟩
  | planeDone _ hu => exact ((OperandsKept.accept s).trans hu.operandsKept).trans (.complete _)
  | planeFault _ hu code => exact ((OperandsKept.accept s).trans hu.operandsKept).trans (.raise _ code)
  | coderStart _ work ht =>
    have hinit : OperandsKept s { s.accept with work := work, race := s.race.clear } :=
      ⟨rfl, rfl, rfl, rfl, rfl, rfl⟩
    exact hinit.trans ht.operandsKept
  | coderFault _ code => exact (OperandsKept.accept s).trans (.raise _ code)
  | codewordDone _ hu ht => exact hu.operandsKept.trans ht.operandsKept
  | codewordFault _ hu code => exact hu.operandsKept.trans (.raise _ code)

/-- Settles O26: every outcome of `exec` keeps the operands. -/
theorem operandsUnmodified : Obligations.OperandsUnmodified := by
  intro i s t h
  obtain ⟨regs, scale, bs, cfg, host, rdata⟩ := (exec_outcome h).operandsKept
  exact ⟨regs, scale, bs, cfg, host, rdata⟩

/-! ### Completion and `RET` (R31, R341) -/

/-- The commands that write `RET` when they end (R31). -/
abbrev IsCoderCommand (i : Instr) : Prop := i.isCodeword = true ∨ i = .declow ∨ i = .dechigh

theorem not_isCoderCommand_layout : ¬IsCoderCommand .layout := by simp [IsCoderCommand, Instr.isCodeword]

theorem IsPlaneCommand.not_isCoderCommand {i : Instr} (h : IsPlaneCommand i) : ¬IsCoderCommand i := by
  obtain rfl | rfl | ⟨p, rfl⟩ := h <;> simp [IsCoderCommand, Instr.isCodeword]

theorem alignUp_mod (pos : Nat) : alignUp pos % 8 = 0 := Nat.mul_mod_left _ _

/-- What `NormalCompletion` says of one next state `t` of `exec i s`. -/
def Completes (i : Instr) (s t : State) : Prop :=
  (t.engine = .idle → t.status.fault = false →
    t.status.err = .none ∧ t.status.done = true ∧ t.status.busy = false ∧ t.status.sticky = s.status.sticky ∧
    (if i.isCodeword = true ∨ i = .declow ∨ i = .dechigh then
      t.work.pos % 8 = 0 ∧ (s.race.raced = false ∨ i.isCodeword = false → t.ret = BitVec.ofNat 32 (t.work.pos / 8))
    else t.ret = s.ret)) ∧
  (t.engine ≠ .idle ∨ t.status.fault = true → t.ret = s.ret)

/-- A fault, which keeps `RET`, is no normal completion. -/
theorem completes_raise {i : Instr} {s u : State} (code : ErrCode) (hret : u.ret = s.ret) :
    Completes i s (u.raise code) :=
  ⟨fun _ hf => by simp at hf, fun _ => hret⟩

/-- The end of a command that returns no byte count. -/
theorem completes_complete {i : Instr} {s u : State} (hi : ¬IsCoderCommand i) (hret : u.ret = s.ret)
    (hsticky : u.status.sticky = s.status.sticky) : Completes i s u.complete := by
  refine ⟨fun _ _ => ⟨rfl, rfl, rfl, hsticky, ?_⟩, fun _ => hret⟩
  rw [if_neg hi]
  exact hret

/-- A coder command that goes on keeps `RET`; one that ends writes it. -/
theorem completes_goesTo {i : Instr} {s u t : State} (hi : IsCoderCommand i) (ht : CoderGoesTo u t)
    (hret : u.ret = s.ret) (hsticky : u.status.sticky = s.status.sticky)
    (hrace : s.race.raced = false ∨ i.isCodeword = false → u.race.raced = false) : Completes i s t := by
  obtain ⟨e, he, rfl⟩ | rfl := ht
  · exact ⟨fun h => absurd h he, fun _ => hret⟩
  · refine ⟨fun _ _ => ⟨rfl, rfl, rfl, hsticky, ?_⟩, fun h => by simp at h⟩
    rw [if_pos hi]
    exact ⟨alignUp_mod _, fun h => by simp [hrace h]⟩

theorem ExecOutcome.completes {i : Instr} {s t : State} (h : ExecOutcome i s t)
    (hbusy : i.isCodeword = false → s.status.busy = false) : Completes i s t := by
  cases h with
  | ignored hi hb => simp [hbusy hi] at hb
  | layoutDone hi => exact completes_complete (hi ▸ not_isCoderCommand_layout) rfl rfl
  | layoutFault hi code => exact completes_raise code rfl
  | planeDone hi hu =>
    exact completes_complete hi.not_isCoderCommand hu.ret_eq (by rw [hu.status_eq]; rfl)
  | planeFault hi hu code => exact completes_raise code hu.ret_eq
  | coderStart hi work ht => exact completes_goesTo (.inr hi) ht rfl rfl (fun _ => rfl)
  | coderFault hi code => exact completes_raise code rfl
  | codewordDone hi hu ht =>
    exact completes_goesTo (.inl hi) ht hu.ret_eq (by rw [hu.status_eq])
      (fun h => by rw [hu.race_eq]; exact h.resolve_right (by simp [hi]))
  | codewordFault hi hu code => exact completes_raise code hu.ret_eq

/-- Settles O28: every outcome of `exec`, the ignored command apart, completes as stated. -/
theorem normalCompletion : Obligations.NormalCompletion :=
  fun _ _ _ _ hbusy h => (exec_outcome h).completes hbusy

/-! ### `LVALID` (R39) -/

theorem CoderGoesTo.lvalid_eq {u t : State} (h : CoderGoesTo u t) : t.status.lvalid = u.status.lvalid := by
  obtain ⟨_, -, rfl⟩ | rfl := h <;> rfl

theorem ExecOutcome.lvalid_eq {i : Instr} {s t : State} (h : ExecOutcome i s t) (hi : i ≠ .layout) :
    t.status.lvalid = s.status.lvalid := by
  cases h with
  | ignored => rfl
  | layoutDone hl => exact absurd hl hi
  | layoutFault hl => exact absurd hl hi
  | planeDone _ hu => simp [hu.status_eq]
  | planeFault _ hu => simp [hu.status_eq]
  | coderStart _ _ ht => exact ht.lvalid_eq
  | coderFault => rfl
  | codewordDone _ hu ht => rw [ht.lvalid_eq, hu.status_eq]
  | codewordFault _ hu => simp [hu.status_eq]

/-- `LAYOUT` leaves `LVALID` the negation of `FAULT` (R39). -/
theorem execLayout_lvalid {s t : State} (hb : s.status.busy = false) (h : exec .layout s = .next t) :
    t.status.lvalid = !t.status.fault := by
  obtain ⟨_, _, _, rfl⟩ | ⟨_, rfl⟩ := execLayout_cases hb h <;> rfl

theorem lvalid_ite {c : Prop} [Decidable c] {a b : State} {x : Bool} (ha : c → a.status.lvalid = x)
    (hb : ¬c → b.status.lvalid = x) : (if c then a else b).status.lvalid = x := by
  split
  · exact ha ‹c›
  · exact hb ‹¬c›

/-- A register write, `CMD` apart, clears `LVALID` at the offsets of `W` and `H`, the 13th and 14th of the writable
ones in the map, and keeps it at every other offset. -/
theorem regWrite_lvalid (s : State) (off : Nat) (v : Word) :
    (s.regWrite off v).status.lvalid = if off = 0x040 ∨ off = 0x044 then false else s.status.lvalid := by
  by_cases hwh : off = 0x040 ∨ off = 0x044
  · rw [if_pos hwh]
    obtain rfl | rfl := hwh <;> rfl
  · rw [if_neg hwh]
    unfold State.regWrite
    iterate 12 refine lvalid_ite (fun _ => rfl) (fun _ => ?_)
    refine lvalid_ite (fun hw => absurd (.inl hw) hwh) (fun _ => ?_)
    refine lvalid_ite (fun hh => absurd (.inr hh) hwh) (fun _ => ?_)
    iterate 7 refine lvalid_ite (fun _ => rfl) (fun _ => ?_)
    rfl

/-- An aligned register write other than to `CMD` on an idle block. -/
theorem hostRegWrite_of_idle {s : State} {addr v : Word} (ha : s.offset addr % 4 = 0) (hc : s.offset addr ≠ 0)
    (hb : s.status.busy = false) : hostRegWrite addr v s = .next (s.regWrite (s.offset addr) v) := by
  simp [hostRegWrite, ha, hc, hb]

/-- `IDWT` without a layout (R302). -/
theorem execIdwt_of_not_lvalid {s : State} (p : Plane) (hb : s.status.busy = false) (hl : s.status.lvalid = false) :
    exec (.idwt p) s = .next (s.accept.raise .badConfig) := by
  have hbody : idwtBody p s.accept = .stop .badConfig s.accept := if_pos hl
  exact runCommand_next.2 (.inr ⟨hb, by rw [hbody]; rfl⟩)

/-- Settles O29, one lemma for each thing that can touch `LVALID`. -/
theorem lvalidTracksDimensions : Obligations.LvalidTracksDimensions := by
  refine ⟨fun i s t h hi => (exec_outcome h).lvalid_eq hi, fun s t hb h => ?_,
    fun s addr v rest hhost ha hc hb => ?_, fun s rest hhost => ?_, fun s t p hb hl h => ?_⟩
  · rw [execLayout_lvalid hb h]
    exact ⟨fun hf => by rw [hf]; rfl, fun hf => by rw [hf]; rfl⟩
  · have hstep : step s = hostRegWrite addr v { s with host := rest } := by rw [step, hhost]; rfl
    exact ⟨_, hstep.trans (hostRegWrite_of_idle ha hc hb), regWrite_lvalid _ _ v⟩
  · exact ⟨_, by rw [step, hhost]; rfl, rfl⟩
  · obtain rfl : _ = t := Host.Outcome.next.inj ((execIdwt_of_not_lvalid p hb hl).symm.trans h)
    exact ⟨rfl, rfl⟩

/-! ### Reset (R52, R53, R371) -/

theorem Quad.get_all {α : Type} (a : α) (k : Nat) : (Quad.all a).get k = a := by
  unfold Quad.get; split <;> rfl

@[simp] theorem resetBlock_pw (s : State) : s.resetBlock.pw = .all 0#32 := rfl

@[simp] theorem resetBlock_ph (s : State) : s.resetBlock.ph = .all 0#32 := rfl

theorem resetBlock_scale (s : State) : s.resetBlock.scale = .all { hor := .all 0#64, ver := .all 0#64 } := rfl

theorem resetBlock_band (s : State) :
    s.resetBlock.band =
      .all { low := Band.zero, detail := .all { hl := Band.zero, lh := Band.zero, hh := Band.zero } } := rfl

theorem resetBlock_scaleWord (s : State) (o : Nat) : s.resetBlock.scaleWord o = 0#32 := by
  simp only [State.scaleWord, resetBlock_scale, Tri.all, ite_self, Quad.get_all]
  split <;> rfl

theorem Band.field_zero (f : Nat) : Band.zero.field f = 0#32 := by
  unfold Band.field; split <;> rfl

theorem BandTable.get_zero (b : Nat) :
    BandTable.get { low := Band.zero, detail := .all { hl := Band.zero, lh := Band.zero, hh := Band.zero } } b =
      Band.zero := by
  unfold BandTable.get
  simp only [Quad.get_all]
  split
  · rfl
  · split <;> rfl

theorem resetBlock_bandWord (s : State) (o : Nat) : s.resetBlock.bandWord o = 0#32 := by
  simp only [State.bandWord, resetBlock_band, Tri.all, ite_self, BandTable.get_zero, Band.field_zero]

theorem word_reset : Status.reset.word = 0#32 := by decide

/-- After a reset every offset, listed or not, reads 0 (R52, R53). -/
theorem resetBlock_regRead (s : State) (off : Nat) : s.resetBlock.regRead off = 0#32 := by
  simp only [State.regRead, resetBlock_status, word_reset, resetBlock_ret, resetBlock_regs, Regs.reset, Tri.all,
    resetBlock_pw, resetBlock_ph, resetBlock_scaleWord, resetBlock_bandWord, ite_self]

/-- Settles O17: the state after the step is that of `State.resetBlock`, whose every register reads 0. -/
theorem resetEffect : Obligations.ResetEffect := by
  intro s rest hhost
  have hstep : step s = .next (State.resetBlock { s with host := rest }) := by rw [step, hhost]; rfl
  exact ⟨_, hstep, resetBlock_regRead _, word_reset, rfl, rfl, rfl, rfl, rfl, rfl, rfl, rfl⟩

/-! ### The thirteen bands of a plane (R48)

Below, a plane is `16 * m` by `16 * n` samples. The first `3 * k + 1` bands tile the block of `2 ^ k * m` by `2 ^ k * n`
samples in its upper left corner: for `k = 0` that is band 0, and the three details of level `k` extend it to twice its
width and height. Four levels make the plane. -/

/-- The first `count` bands of the table tile the block of `a` by `b` samples: none of them leaves it, and each of its
samples lies in exactly one of them. -/
structure Tiles (t : BandTable) (count a b : Nat) : Prop where
  inside : ∀ i x y, i < count → (t.get i).contains x y → x < a ∧ y < b
  cover : ∀ x y, x < a → y < b → ∃! i, i < count ∧ (t.get i).contains x y

/-- Three details to the right, below and diagonal extend a tiled block to twice its width and height (R144). -/
theorem Tiles.extend {t : BandTable} {count a b : Nat} (h : Tiles t count a b)
    (hl : ∀ x y, (t.get count).contains x y ↔ a ≤ x ∧ x < 2 * a ∧ y < b)
    (lh : ∀ x y, (t.get (count + 1)).contains x y ↔ x < a ∧ b ≤ y ∧ y < 2 * b)
    (hh : ∀ x y, (t.get (count + 2)).contains x y ↔ a ≤ x ∧ x < 2 * a ∧ b ≤ y ∧ y < 2 * b) :
    Tiles t (count + 3) (2 * a) (2 * b) := by
  have bands : ∀ i x y, i < count + 3 ∧ (t.get i).contains x y ↔
      (i < count ∧ (t.get i).contains x y) ∨ (i = count ∧ a ≤ x ∧ x < 2 * a ∧ y < b) ∨
      (i = count + 1 ∧ x < a ∧ b ≤ y ∧ y < 2 * b) ∨
      (i = count + 2 ∧ a ≤ x ∧ x < 2 * a ∧ b ≤ y ∧ y < 2 * b) := by
    intro i x y
    have hi : i < count + 3 ↔ i < count ∨ i = count ∨ i = count + 1 ∨ i = count + 2 := by omega
    rw [hi, or_and_right, or_and_right, or_and_right, ← hl, ← lh, ← hh]
    refine or_congr_right (or_congr ?_ (or_congr ?_ ?_)) <;> exact and_congr_right (by rintro rfl; rfl)
  refine ⟨fun i x y hi hc => ?_, fun x y hx hy => ?_⟩
  · obtain ⟨hlt, hold⟩ | hnew := (bands i x y).1 ⟨hi, hc⟩
    · have := h.inside i x y hlt hold
      omega
    · omega
  · simp only [bands]
    by_cases hold : x < a ∧ y < b
    · obtain ⟨i, hi, huniq⟩ := h.cover x y hold.1 hold.2
      refine ⟨i, .inl hi, fun j hj => huniq j (hj.resolve_right ?_)⟩
      omega
    · have hout : ∀ i, ¬(i < count ∧ (t.get i).contains x y) := fun i hi => hold (h.inside i x y hi.1 hi.2)
      simp only [hout, false_or]
      rcases Nat.lt_or_ge y b with hyb | hyb
      · exact ⟨count, by omega, fun j hj => by omega⟩
      rcases Nat.lt_or_ge x a with hxa | hxa
      · exact ⟨count + 1, by omega, fun j hj => by omega⟩
      · exact ⟨count + 2, by omega, fun j hj => by omega⟩

/-- The bands of level `k` by their index (R144). -/
theorem get_ofPlane (w h : Word) {k : Nat} (hk : k < 4) :
    (BandTable.ofPlane w h).get (3 * k + 1) = (Details.ofPlane w h (4 - k)).hl ∧
    (BandTable.ofPlane w h).get (3 * k + 1 + 1) = (Details.ofPlane w h (4 - k)).lh ∧
    (BandTable.ofPlane w h).get (3 * k + 1 + 2) = (Details.ofPlane w h (4 - k)).hh := by
  interval_cases k <;> exact ⟨rfl, rfl, rfl⟩

/-- The shift of level `k` of a dimension that is a multiple of 16 (R143, R144). -/
theorem shiftRight_toNat {d : Word} {m k : Nat} (hd : d.toNat = 16 * m) (hk : k ≤ 4) :
    (d >>> (4 - k)).toNat = 2 ^ k * m := by
  have h16 : 16 = 2 ^ (4 - k) * 2 ^ k := by rw [← pow_add, Nat.sub_add_cancel hk]; norm_num
  rw [BitVec.toNat_ushiftRight, hd, Nat.shiftRight_eq_div_pow, h16, Nat.mul_assoc,
    Nat.mul_div_cancel_left _ (Nat.two_pow_pos _)]

theorem ofRect_contains (bw bh left top : Word) (x y : Nat) :
    (Band.ofRect bw bh left top).contains x y ↔
      left.toNat ≤ x ∧ x < left.toNat + bw.toNat ∧ top.toNat ≤ y ∧ y < top.toNat + bh.toNat := Iff.rfl

/-- The size register of a band holds its area, where 32 bits are enough for it (R146). -/
theorem ofRect_size (bw bh left top : Word) (h : bw.toNat * bh.toNat < 2 ^ 32) :
    (Band.ofRect bw bh left top).size.toNat = bw.toNat * bh.toNat := by
  change (bw * bh).toNat = _
  rw [BitVec.toNat_mul, Nat.mod_eq_of_lt h]

theorem low_ofPlane (w h : Word) : (BandTable.ofPlane w h).get 0 = Band.ofRect (w >>> 4) (h >>> 4) 0#32 0#32 := rfl

section Plane

variable {w h : Word} {m n : Nat} (hw : w.toNat = 16 * m) (hh : h.toNat = 16 * n)

include hw hh

/-- Band 0 is `m` by `n` samples (R143). -/
theorem low_dims : (w >>> 4).toNat = m ∧ (h >>> 4).toNat = n := by
  have hm := shiftRight_toNat hw (Nat.zero_le 4)
  have hn := shiftRight_toNat hh (Nat.zero_le 4)
  rw [pow_zero, Nat.one_mul] at hm hn
  exact ⟨hm, hn⟩

theorem low_contains (x y : Nat) : ((BandTable.ofPlane w h).get 0).contains x y ↔ x < m ∧ y < n := by
  obtain ⟨hm, hn⟩ := low_dims hw hh
  rw [low_ofPlane, ofRect_contains, hm, hn, BitVec.toNat_zero]
  omega

theorem tiles_low : Tiles (BandTable.ofPlane w h) 1 m n where
  inside i x y hi hc := by
    obtain rfl : i = 0 := by omega
    exact (low_contains hw hh x y).1 hc
  cover x y hx hy := ⟨0, ⟨by omega, (low_contains hw hh x y).2 ⟨hx, hy⟩⟩, fun j hj => by omega⟩

/-- Band 0 and the details of the first `k` levels tile their block. -/
theorem tiles_ofPlane {k : Nat} (hk : k ≤ 4) :
    Tiles (BandTable.ofPlane w h) (3 * k + 1) (2 ^ k * m) (2 ^ k * n) := by
  induction k with
  | zero => simpa using tiles_low hw hh
  | succ k ih =>
    obtain ⟨ehl, elh, ehh⟩ := get_ofPlane w h (show k < 4 by omega)
    have ha := shiftRight_toNat hw (show k ≤ 4 by omega)
    have hb := shiftRight_toNat hh (show k ≤ 4 by omega)
    have hstep := (ih (by omega)).extend
      (fun x y => by rw [ehl, Details.ofPlane, ofRect_contains, ha, hb, BitVec.toNat_zero]; omega)
      (fun x y => by rw [elh, Details.ofPlane, ofRect_contains, ha, hb, BitVec.toNat_zero]; omega)
      (fun x y => by rw [ehh, Details.ofPlane, ofRect_contains, ha, hb]; omega)
    rwa [pow_succ', Nat.mul_assoc, Nat.mul_assoc]

/-- The size of a band of level `k`, wherever it lies. -/
theorem level_size {k : Nat} (hk : k ≤ 4) (harea : 16 * m * (16 * n) < 2 ^ 32) (left top : Word) :
    (Band.ofRect (w >>> (4 - k)) (h >>> (4 - k)) left top).size.toNat = 2 ^ k * m * (2 ^ k * n) := by
  have ha := shiftRight_toNat hw hk
  have hb := shiftRight_toNat hh hk
  have hpow : 2 ^ k ≤ 16 := Nat.pow_le_pow_right (by omega) hk
  have hfit : 2 ^ k * m * (2 ^ k * n) ≤ 16 * m * (16 * n) :=
    Nat.mul_le_mul (Nat.mul_le_mul_right m hpow) (Nat.mul_le_mul_right n hpow)
  rw [ofRect_size _ _ _ _ (by rw [ha, hb]; omega), ha, hb]

/-- The sizes of band 0 and of the details of the first `k` levels add up to the area of their block. -/
theorem sum_size_ofPlane {k : Nat} (hk : k ≤ 4) (harea : 16 * m * (16 * n) < 2 ^ 32) :
    ∑ b ∈ Finset.range (3 * k + 1), ((BandTable.ofPlane w h).get b).size.toNat = 2 ^ k * m * (2 ^ k * n) := by
  induction k with
  | zero => rw [Finset.sum_range_one, low_ofPlane, level_size hw hh hk harea]
  | succ k ih =>
    obtain ⟨ehl, elh, ehh⟩ := get_ofPlane w h (show k < 4 by omega)
    have hsize := level_size hw hh (show k ≤ 4 by omega) harea
    rw [show 3 * (k + 1) + 1 = 3 * k + 1 + 1 + 1 + 1 by ring, Finset.sum_range_succ, Finset.sum_range_succ,
      Finset.sum_range_succ, ih (by omega), ehl, elh, ehh, Details.ofPlane, hsize, hsize, hsize]
    ring

end Plane

/-- The dimension of a plane is a positive multiple of 16, at most that of the frame (R141, R142). -/
theorem planeDims_get {d : Word} (hpos : 0 < d.toNat) (hmod : d.toNat % 32 = 0) (p : Plane) :
    ∃ m, 0 < m ∧ ((planeDims d).get p).toNat = 16 * m ∧ ((planeDims d).get p).toNat ≤ d.toNat := by
  have hhalf : (d >>> 1).toNat = d.toNat / 2 := by rw [BitVec.toNat_ushiftRight, Nat.shiftRight_one]
  cases p with
  | y => exact ⟨d.toNat / 16, by omega, by change d.toNat = _; omega, le_refl _⟩
  | u | v =>
    change ∃ m, 0 < m ∧ (d >>> 1).toNat = 16 * m ∧ (d >>> 1).toNat ≤ d.toNat
    exact ⟨d.toNat / 32, by omega, by omega, by omega⟩

theorem frameBands_get (w h : Word) (p : Plane) :
    (frameBands w h).get p = BandTable.ofPlane ((planeDims w).get p) ((planeDims h).get p) := by
  cases p <;> rfl

theorem maxDim_sq_lt {c : Config} (h : c.wf = true) : c.maxDim * c.maxDim < 2 ^ 31 := by
  simp only [Config.wf, Bool.and_eq_true, decide_eq_true_eq] at h
  obtain ⟨⟨⟨-, hsq⟩, -⟩, -⟩ := h
  exact hsq

/-- Settles O32: the layout invariant makes the table that of a plane of `16 * m` by `16 * n` samples, and its four
levels tile it. -/
theorem bandsTileThePlane : Obligations.BandsTileThePlane := by
  intro s p hcfg hinv hl
  obtain ⟨hw0, hh0, hw32, hh32, hwmax, hhmax, hpw, hph, hband⟩ := hinv hl
  obtain ⟨m, hm0, hm, hmle⟩ := planeDims_get hw0 hw32 p
  obtain ⟨n, hn0, hn, hnle⟩ := planeDims_get hh0 hh32 p
  have harea : 16 * m * (16 * n) < 2 ^ 32 :=
    calc 16 * m * (16 * n) ≤ s.cfg.maxDim * s.cfg.maxDim := Nat.mul_le_mul (by omega) (by omega)
      _ < 2 ^ 31 := maxDim_sq_lt hcfg
      _ < 2 ^ 32 := by norm_num
  rw [hpw, hph, hband, frameBands_get, hm, hn]
  obtain ⟨hinside, hcover⟩ : Tiles _ 13 (16 * m) (16 * n) := tiles_ofPlane hm hn (le_refl 4)
  obtain ⟨hwidth, hheight⟩ := low_dims hm hn
  exact ⟨sum_size_ofPlane hm hn (le_refl 4) harea, hcover, hinside,
    hm0.trans_eq hwidth.symm, hn0.trans_eq hheight.symm⟩

end Sys2Proof.Machine

namespace Sys2Proof.Machine

/-! ### `LAYOUT` (R141 to R147) -/

/-- An accepted `LAYOUT` runs its pseudocode (R95). -/
theorem exec_layout_of_idle {s : State} (hb : s.status.busy = false) :
    exec .layout s = .next (layoutBody s.accept).settle := runCommand_next.2 (.inr ⟨hb, rfl⟩)

/-- The first check of R141, on the form of `W` and `H`. -/
theorem layoutBody_badConfig {s : State}
    (h : s.regs.w.toNat = 0 ∨ s.regs.h.toNat = 0 ∨ s.regs.w.toNat % 32 ≠ 0 ∨ s.regs.h.toNat % 32 ≠ 0) :
    layoutBody s = .stop .badConfig (s.setLvalid false) := if_pos h

section Multiples

variable {s : State} (hw : 0 < s.regs.w.toNat) (hh : 0 < s.regs.h.toNat) (hw32 : s.regs.w.toNat % 32 = 0)
  (hh32 : s.regs.h.toNat % 32 = 0)

include hw hh hw32 hh32

/-- What is left to check of multiples of 32 is their size (R141); those that pass are laid out (R147). -/
theorem layoutBody_of_multiples :
    layoutBody s =
      if s.cfg.maxDim < s.regs.w.toNat ∨ s.cfg.maxDim < s.regs.h.toNat then .stop .outOfMemory (s.setLvalid false)
      else .go (State.setLvalid { s with
        pw := planeDims s.regs.w, ph := planeDims s.regs.h, band := frameBands s.regs.w s.regs.h } true) :=
  if_neg (by omega)

theorem layoutBody_outOfMemory (h : s.cfg.maxDim < s.regs.w.toNat ∨ s.cfg.maxDim < s.regs.h.toNat) :
    layoutBody s = .stop .outOfMemory (s.setLvalid false) :=
  (layoutBody_of_multiples hw hh hw32 hh32).trans (if_pos h)

theorem layoutBody_go (hwmax : s.regs.w.toNat ≤ s.cfg.maxDim) (hhmax : s.regs.h.toNat ≤ s.cfg.maxDim) :
    layoutBody s = .go (State.setLvalid { s with
      pw := planeDims s.regs.w, ph := planeDims s.regs.h, band := frameBands s.regs.w s.regs.h } true) :=
  (layoutBody_of_multiples hw hh hw32 hh32).trans (if_neg (by omega))

/-- The next state of a `LAYOUT` that passes both checks. -/
theorem exec_layout_of_legal (hb : s.status.busy = false) (hwmax : s.regs.w.toNat ≤ s.cfg.maxDim)
    (hhmax : s.regs.h.toNat ≤ s.cfg.maxDim) :
    exec .layout s = .next { s with
      status := { s.status.doneOf with lvalid := true }, engine := .idle
      pw := planeDims s.regs.w, ph := planeDims s.regs.h, band := frameBands s.regs.w s.regs.h } := by
  rw [exec_layout_of_idle hb, layoutBody_go (s := s.accept) hw hh hw32 hh32 hwmax hhmax]
  rfl

end Multiples

/-- Settles O31: each of the two checks stops the pseudocode with the tables untouched. -/
theorem layoutFaults : Obligations.LayoutFaults := by
  refine fun s hb => ⟨fun hform => ?_, fun hw hh hw32 hh32 hsize => ?_⟩
  · rw [exec_layout_of_idle hb, layoutBody_badConfig (s := s.accept) hform]
    rfl
  · rw [exec_layout_of_idle hb, layoutBody_outOfMemory (s := s.accept) hw hh hw32 hh32 hsize]
    rfl

theorem ushiftRight_toNat (d : Word) (sh : Nat) : (d >>> sh).toNat = d.toNat / 2 ^ sh := by
  rw [BitVec.toNat_ushiftRight, Nat.shiftRight_eq_div_pow]

/-- The three bands of level `k` have the same dimensions, wherever they lie (R144). -/
theorem get_ofPlane_level (w h : Word) {k b : Nat} (hk : k ≤ 3) (hlow : 3 * k + 1 ≤ b) (hhigh : b ≤ 3 * k + 3) :
    ∃ left top, (BandTable.ofPlane w h).get b = Band.ofRect (w >>> (4 - k)) (h >>> (4 - k)) left top := by
  obtain ⟨ehl, elh, ehh⟩ := get_ofPlane w h (Nat.lt_succ_of_le hk)
  obtain rfl | rfl | rfl : b = 3 * k + 1 ∨ b = 3 * k + 1 + 1 ∨ b = 3 * k + 1 + 2 := by omega
  · exact ⟨_, _, ehl⟩
  · exact ⟨_, _, elh⟩
  · exact ⟨_, _, ehh⟩

/-- Every band has the dimensions of its plane, shifted (R143, R144). -/
theorem get_ofPlane_eq_ofRect (w h : Word) {b : Nat} (hb : b ≤ 12) :
    ∃ (sh : Nat) (left top : Word), (BandTable.ofPlane w h).get b = Band.ofRect (w >>> sh) (h >>> sh) left top := by
  rcases Nat.eq_zero_or_pos b with rfl | hpos
  · exact ⟨4, _, _, low_ofPlane w h⟩
  · exact ⟨_, get_ofPlane_level w h (k := (b - 1) / 3) (by omega) (by omega) (by omega)⟩

/-- The size register of each band holds its area, where 32 bits are enough for that of the plane (R146). -/
theorem get_ofPlane_size {w h : Word} (harea : w.toNat * h.toNat < 2 ^ 32) {b : Nat} (hb : b ≤ 12) :
    ((BandTable.ofPlane w h).get b).size.toNat =
      ((BandTable.ofPlane w h).get b).width.toNat * ((BandTable.ofPlane w h).get b).height.toNat := by
  obtain ⟨sh, left, top, e⟩ := get_ofPlane_eq_ofRect w h hb
  have hle (d : Word) : (d >>> sh).toNat ≤ d.toNat := (ushiftRight_toNat d sh).trans_le (Nat.div_le_self _ _)
  rw [e]
  exact ofRect_size _ _ _ _ ((Nat.mul_le_mul (hle w) (hle h)).trans_lt harea)

/-- The area of every plane of a legal frame fits in 32 bits (R141, R142). -/
theorem planeDims_area_lt {c : Config} {w h : Word} (hcfg : c.wf = true) (hw : 0 < w.toNat) (hh : 0 < h.toNat)
    (hw32 : w.toNat % 32 = 0) (hh32 : h.toNat % 32 = 0) (hwmax : w.toNat ≤ c.maxDim) (hhmax : h.toNat ≤ c.maxDim)
    (p : Plane) : ((planeDims w).get p).toNat * ((planeDims h).get p).toNat < 2 ^ 32 := by
  obtain ⟨-, -, -, hwle⟩ := planeDims_get hw hw32 p
  obtain ⟨-, -, -, hhle⟩ := planeDims_get hh hh32 p
  calc ((planeDims w).get p).toNat * ((planeDims h).get p).toNat ≤ c.maxDim * c.maxDim :=
        Nat.mul_le_mul (hwle.trans hwmax) (hhle.trans hhmax)
    _ < 2 ^ 31 := maxDim_sq_lt hcfg
    _ < 2 ^ 32 := by norm_num

/-- Settles O30: the next state holds the table of every plane, whose bands are those of its levels. -/
theorem layoutResult : Obligations.LayoutResult := by
  intro s hcfg hb hw hh hw32 hh32 hwmax hhmax
  refine ⟨_, exec_layout_of_legal hw hh hw32 hh32 hb hwmax hhmax, rfl, rfl, rfl, ushiftRight_toNat _ 1,
    ushiftRight_toNat _ 1, rfl, rfl, fun p => ?_⟩
  have harea := planeDims_area_lt hcfg hw hh hw32 hh32 hwmax hhmax p
  dsimp only
  rw [frameBands_get]
  generalize (planeDims s.regs.w).get p = w, (planeDims s.regs.h).get p = h at harea
  refine ⟨fun b => get_ofPlane_size harea, ushiftRight_toNat w 4, ushiftRight_toNat h 4, rfl, rfl, fun k hk => ?_⟩
  have hwk := ushiftRight_toNat w (4 - k)
  have hhk := ushiftRight_toNat h (4 - k)
  obtain ⟨ehl, elh, ehh⟩ := get_ofPlane w h (Nat.lt_succ_of_le hk)
  refine ⟨fun b hlow hhigh => ?_, ?_⟩
  · obtain ⟨left, top, e⟩ := get_ofPlane_level w h hk hlow hhigh
    rw [e]
    exact ⟨hwk, hhk⟩
  · rw [ehl, elh, ehh]
    exact ⟨hwk, rfl, rfl, hhk, hwk, hhk⟩

end Sys2Proof.Machine

namespace Sys2Proof.Machine

/-! ### The start of a coder command: checks, `scale` and initialisation (R161, R162, R201, R203) -/

/-- The window or the width that the shared start checks reject (R161, R201). -/
theorem coderChecks_badConfig {s : State}
    (h : (s.regs.bsend.toNat < s.regs.bsptr.toNat ∨ s.cfg.bsSize < s.regs.bsend.toNat) ∨
      (0 < s.regs.size.toNat ∧ s.regs.width.toNat = 0)) :
    coderChecks s = .stop .badConfig s := by
  unfold coderChecks
  split_ifs with hwindow hwidth
  · rfl
  · rfl
  · exact absurd h (not_or.2 ⟨hwindow, hwidth⟩)

/-- Operands that pass the shared start checks (R161, R201). -/
theorem coderChecks_go {s : State}
    (hwindow : ¬(s.regs.bsend.toNat < s.regs.bsptr.toNat ∨ s.cfg.bsSize < s.regs.bsend.toNat))
    (hwidth : ¬(0 < s.regs.size.toNat ∧ s.regs.width.toNat = 0)) : coderChecks s = .go s :=
  (if_neg hwindow).trans (if_neg hwidth)

/-- `clz32` of a number of more than `k` bits (R9). -/
theorem clz32_le_of_two_pow_le {x k : Nat} (h : 2 ^ k ≤ x) : clz32 x ≤ 31 - k := by
  have hx : x ≠ 0 := by have := Nat.two_pow_pos k; omega
  have hlog : k ≤ Nat.log2 x := (Nat.le_log2 hx).2 h
  rw [clz32, if_neg hx]
  omega

/-- A `scale` outside 16 bits has a `t` of more than 15 bits (R203). -/
theorem two_pow_le_scaleBits {scale : Int} (h : 32768 ≤ scale ∨ scale ≤ -32769) : 2 ^ 15 ≤ scaleBits scale := by
  unfold scaleBits
  split_ifs <;> omega

theorem highWidth_zero : highWidth 0 = .error .idScaleZero := rfl

/-- A `scale` outside 16 bits needs more than 16 bits for `nbits` (R203). -/
theorem highWidth_idNbitsRange {scale : Int} (h : 32768 ≤ scale ∨ scale ≤ -32769) :
    highWidth scale = .error .idNbitsRange := by
  have ht := two_pow_le_scaleBits h
  have hclz : clz32 (scaleBits scale) ≤ 16 := clz32_le_of_two_pow_le ht
  rw [highWidth, if_neg (by omega), if_neg (by omega), if_pos (by omega)]

/-- A rejected `scale` stops the command with no effect (R203). -/
theorem highConstants_stop {s : State} {code : ErrCode} (h : highWidth s.regs.hscale.toInt = .error code) :
    highConstants s = .stop code s := by
  unfold highConstants
  rw [h]

/-- A start that stops with no effect of its own makes a fault that changes `STATUS` alone (R340). -/
theorem startCoder_startFault {v : Variant} {start : State → Run} {s : State} {code : ErrCode}
    (hb : s.status.busy = false) (h : start s.accept = .stop code s.accept) :
    ∃ t, startCoder v start s = .next t ∧ StartFault code s t :=
  ⟨_, startCoder_next.2 (.inr ⟨hb, .inr ⟨code, _, h, rfl⟩⟩), rfl⟩

/-- `DECLOW` starts with the shared checks and the initialisation (R161, R162). -/
theorem exec_declow (s : State) :
    exec .declow s = startCoder .low (fun s => (coderChecks s).bind (fun s => .go s.coderInit)) s := rfl

/-- `DECHIGH` computes its constants between the two (R201, R203, R204). -/
theorem exec_dechigh (s : State) :
    exec .dechigh s =
      startCoder .high (fun s => ((coderChecks s).bind highConstants).bind (fun s => .go s.coderInit)) s := rfl

/-- `DECLOW` faults where its start checks stop. -/
theorem exec_declow_startFault {s : State} {code : ErrCode} (hb : s.status.busy = false)
    (h : coderChecks s.accept = .stop code s.accept) : ∃ t, exec .declow s = .next t ∧ StartFault code s t := by
  rw [exec_declow]
  exact startCoder_startFault hb (by rw [h, bind_stop])

/-- `DECHIGH` faults where its start checks, or after them its constants, stop. -/
theorem exec_dechigh_startFault {s : State} {code : ErrCode} (hb : s.status.busy = false)
    (h : (coderChecks s.accept).bind highConstants = .stop code s.accept) :
    ∃ t, exec .dechigh s = .next t ∧ StartFault code s t := by
  rw [exec_dechigh]
  exact startCoder_startFault hb (by rw [h, bind_stop])

/-- Operands that pass the shared start checks leave the fault of `DECHIGH` to its `scale` (R345). -/
theorem exec_dechigh_scaleFault {s : State} {code : ErrCode} (hb : s.status.busy = false)
    (hwindow : ¬(s.regs.bsend.toNat < s.regs.bsptr.toNat ∨ s.cfg.bsSize < s.regs.bsend.toNat))
    (hwidth : ¬(0 < s.regs.size.toNat ∧ s.regs.width.toNat = 0))
    (h : highWidth s.regs.hscale.toInt = .error code) : ∃ t, exec .dechigh s = .next t ∧ StartFault code s t := by
  have hgo : coderChecks s.accept = .go s.accept := coderChecks_go hwindow hwidth
  have hstop : highConstants s.accept = .stop code s.accept := highConstants_stop h
  exact exec_dechigh_startFault hb (by rw [hgo, bind_go, hstop])

/-- Settles O35: the shared checks stop both commands, and past them `scale` stops `DECHIGH`. -/
theorem coderStartFaults : Obligations.CoderStartFaults := by
  intro s hb _
  refine ⟨fun hbad => ?_, fun hwindow hwidth hzero => ?_, fun hwindow hwidth hrange => ?_⟩
  · have hstop : coderChecks s.accept = .stop .badConfig s.accept := coderChecks_badConfig hbad
    exact ⟨exec_declow_startFault hb hstop, exec_dechigh_startFault hb (by rw [hstop, bind_stop])⟩
  · exact exec_dechigh_scaleFault hb hwindow hwidth (by rw [hzero, highWidth_zero])
  · exact exec_dechigh_scaleFault hb hwindow hwidth (highWidth_idNbitsRange hrange)

/-- A start that goes on comes to the loop test (R95). -/
theorem startCoder_go {v : Variant} {start : State → Run} {s u : State} (hb : s.status.busy = false)
    (h : start s.accept = .go u) : startCoder v start s = .next (u.nextValue v) :=
  startCoder_next.2 (.inr ⟨hb, .inl ⟨u, h, rfl⟩⟩)

/-- A `DECLOW` that passes its start checks comes to its loop test with its registers initialised (R162, R164). -/
theorem exec_declow_of_legal {s : State} (hb : s.status.busy = false)
    (hwindow : ¬(s.regs.bsend.toNat < s.regs.bsptr.toNat ∨ s.cfg.bsSize < s.regs.bsend.toNat))
    (hwidth : ¬(0 < s.regs.size.toNat ∧ s.regs.width.toNat = 0)) :
    exec .declow s = .next (s.accept.coderInit.nextValue .low) := by
  have hgo : coderChecks s.accept = .go s.accept := coderChecks_go hwindow hwidth
  rw [exec_declow]
  exact startCoder_go hb (by rw [hgo, bind_go])

/-- A command that the host did not race ends with `RET` its cursor in whole bytes (R178, R219). -/
theorem retire_of_not_raced {s : State} (h : s.race.raced = false) :
    s.retire = State.complete { s with
      work := { s.work with pos := alignUp s.work.pos }, ret := BitVec.ofNat 32 (alignUp s.work.pos / 8) } := by
  unfold State.retire
  rw [h, if_neg Bool.false_ne_true]

/-- A command that ends right after its initialisation returns 0: its cursor is at 0. -/
theorem coderInit_retire (s : State) : s.coderInit.retire = State.complete { s.coderInit with ret := 0#32 } := by
  have hpos : alignUp s.coderInit.work.pos = 0 := by
    change alignUp 0 = 0
    rfl
  rw [retire_of_not_raced rfl, hpos, Nat.zero_div]
  rfl

/-- Settles O33: the loop test after the initialisation, with `i = 0`, is whether `SIZE` is positive. -/
theorem declowStarts : Obligations.DeclowStarts := by
  intro s hb hptr hend hsize
  rw [exec_declow_of_legal hb (by omega) (by omega)]
  obtain ⟨hlt, e⟩ | ⟨hle, e⟩ := nextValue_cases .low s.accept.coderInit
  · have hpos : s.regs.size.toNat ≠ 0 := Nat.ne_of_gt hlt
    simp only [e, if_neg hpos]
    rfl
  · have hzero : s.regs.size.toNat = 0 := Nat.le_zero.1 hle
    simp only [e, coderInit_retire, if_pos hzero]
    rfl

end Sys2Proof.Machine

namespace Sys2Proof.Machine

/-! ### The samples of `PREDICT`, counted row by row (R270, R272) -/

/-- The address of sample number `k` of the region. -/
def State.sampleAddr (s : State) (k : Nat) : Word :=
  s.regionAddr (k / s.regs.width.toNat) (k % s.regs.width.toNat)

theorem exists_row_column {w : Nat} (hw : 0 < w) (m : Nat) : ∃ r j, j < w ∧ m = r * w + j :=
  ⟨m / w, m % w, Nat.mod_lt _ hw, (Nat.div_add_mod' m w).symm⟩

theorem row_of_sample {w r j : Nat} (hj : j < w) : (r * w + j) / w = r := by
  rw [Nat.mul_comm, Nat.mul_add_div (by omega), Nat.div_eq_of_lt hj, Nat.add_zero]

theorem column_of_sample {w r j : Nat} (hj : j < w) : (r * w + j) % w = j := by
  rw [Nat.mul_comm, Nat.mul_add_mod, Nat.mod_eq_of_lt hj]

theorem sample_lt_area {w h r j : Nat} (hr : r < h) (hj : j < w) : r * w + j < h * w :=
  calc r * w + j < (r + 1) * w := by rw [Nat.succ_mul]; omega
    _ ≤ h * w := Nat.mul_le_mul_right w hr

theorem row_lt_height {w h r j : Nat} (hm : r * w + j < h * w) : r < h :=
  Nat.lt_of_mul_lt_mul_right (a := w) (by omega)

theorem width_pos_of_lt_area {w h k : Nat} (hk : k < h * w) : 0 < w :=
  Nat.pos_of_ne_zero fun h0 => by simp [h0] at hk

theorem row_column_lt {w h k : Nat} (hk : k < h * w) : k / w < h ∧ k % w < w :=
  ⟨Nat.div_lt_of_lt_mul (Nat.mul_comm h w ▸ hk), Nat.mod_lt _ (width_pos_of_lt_area hk)⟩

theorem sampleAddr_eq {s : State} {r j : Nat} (hj : j < s.regs.width.toNat) :
    s.sampleAddr (r * s.regs.width.toNat + j) = s.regionAddr r j := by
  rw [State.sampleAddr, row_of_sample hj, column_of_sample hj]

theorem regionAddr_zero (s : State) (r : Nat) : s.regionAddr r 0 = elemAddr s.regs.dst s.regs.stride r :=
  BitVec.add_zero _

/-- The left neighbour lies one address lower. -/
theorem regionAddr_succ_sub_one (s : State) (r j : Nat) : s.regionAddr r (j + 1) - 1#32 = s.regionAddr r j := by
  have hsucc : s.regionAddr r (j + 1) = s.regionAddr r j + 1#32 := by
    rw [State.regionAddr, BitVec.ofNat_add, ← BitVec.add_assoc]
    rfl
  rw [hsucc, BitVec.add_sub_cancel]

/-! ### One more sample of `predictState` (R272) -/

/-- The column sum that sample `(j, r)` writes first and leaves in `pred[j]`, when the samples before it are done. -/
def State.columnSum (s : State) (r j : Nat) : Sample :=
  (predictState s (r * s.regs.width.toNat + j)).2 j +
    (predictFold s (r * s.regs.width.toNat + j)).read (s.regionAddr r j).toNat

/-- PM after the accesses of sample `(j, r)` whose column sum is `v`. -/
def State.predictCell (s : State) (r j : Nat) (v : Sample) (pm : Memory 16) : Memory 16 :=
  let once := pm.write (s.regionAddr r j).toNat v
  if j = 0 then once
  else once.write (s.regionAddr r j).toNat (v + once.read (s.regionAddr r (j - 1)).toNat)

theorem predictState_succ {s : State} {r j : Nat} (hj : j < s.regs.width.toNat) :
    predictState s (r * s.regs.width.toNat + j + 1) =
      (s.predictCell r j (s.columnSum r j) (predictFold s (r * s.regs.width.toNat + j)),
        Function.update (predictState s (r * s.regs.width.toNat + j)).2 j (s.columnSum r j)) := by
  rw [predictState, List.range_succ, List.foldl_concat, ← predictState]
  simp only [row_of_sample hj, column_of_sample hj]
  rfl

theorem predictFold_succ {s : State} {r j : Nat} (hj : j < s.regs.width.toNat) :
    predictFold s (r * s.regs.width.toNat + j + 1) =
      s.predictCell r j (s.columnSum r j) (predictFold s (r * s.regs.width.toNat + j)) := by
  rw [predictFold, predictState_succ hj]

theorem predictState_succ_pred {s : State} {r j : Nat} (hj : j < s.regs.width.toNat) :
    (predictState s (r * s.regs.width.toNat + j + 1)).2 =
      Function.update (predictState s (r * s.regs.width.toNat + j)).2 j (s.columnSum r j) := by
  rw [predictState_succ hj]

/-- A sample writes its own cell only. -/
theorem predictCell_read_ne {s : State} {r j a : Nat} (v : Sample) (pm : Memory 16)
    (ha : a ≠ (s.regionAddr r j).toNat) : (s.predictCell r j v pm).read a = pm.read a := by
  unfold State.predictCell
  dsimp only
  split_ifs
  · exact pm.read_write_ne v ha
  · rw [Memory.read_write_ne _ _ ha, Memory.read_write_ne _ _ ha]

theorem predictCell_wf (s : State) (r j : Nat) (v : Sample) {pm : Memory 16} (h : pm.wf = true) :
    (s.predictCell r j v pm).wf = true := by
  unfold State.predictCell
  dsimp only
  split_ifs
  · exact pm.wf_write _ _ h
  · exact Memory.wf_write _ _ _ (pm.wf_write _ _ h)

/-! ### `PREDICT` runs through `predictState` -/

/-- The first `m` samples all have a cell, and `u` is where `PREDICT`, accepted in `s`, stands when they are done. -/
structure PredictAt (s : State) (m : Nat) (u : State) : Prop where
  inside : ∀ k, k < m → (s.sampleAddr k).toNat < s.cfg.pmSize
  kept : u = { s with pm := u.pm, pmLog := u.pmLog, scratch := u.scratch }
  pm : u.pm = predictFold s m
  pred : u.scratch.pred = (List.range s.regs.width.toNat).map (predictState s m).2

theorem PredictAt.regs_eq {s u : State} {m : Nat} (h : PredictAt s m u) : u.regs = s.regs := by rw [h.kept]

theorem PredictAt.cfg_eq {s u : State} {m : Nat} (h : PredictAt s m u) : u.cfg = s.cfg := by rw [h.kept]

/-- Before the first sample the cache holds zeros (R272). -/
theorem predictAt_zero (s : State) :
    PredictAt s 0 { s with scratch := { s.scratch with pred := List.replicate s.regs.width.toNat 0#16 } } where
  inside k hk := absurd hk (Nat.not_lt_zero k)
  kept := rfl
  pm := rfl
  pred := by simp [predictState]

theorem map_range_set {α : Type} (f : Nat → α) (n j : Nat) (v : α) :
    ((List.range n).map f).set j v = (List.range n).map (Function.update f j v) :=
  List.ext_getElem (by simp) fun i _ _ => by
    simp [List.getElem_set, Function.update_apply, eq_comm]

section Sample

variable {s u : State} {r j : Nat} (h : PredictAt s (r * s.regs.width.toNat + j) u) (hj : j < s.regs.width.toNat)

include h hj

theorem PredictAt.predAt_add_read :
    u.predAt j + u.pm.read (s.regionAddr r j).toNat = s.columnSum r j := by
  rw [State.predAt, h.pred, h.pm, List.getD_eq_getElem _ _ (by simpa using hj), List.getElem_map, List.getElem_range]
  rfl

theorem PredictAt.inside_left (hpos : j ≠ 0) : (s.regionAddr r (j - 1)).toNat < s.cfg.pmSize := by
  have hleft := h.inside (r * s.regs.width.toNat + (j - 1)) (by omega)
  rwa [sampleAddr_eq (by omega)] at hleft

/-- The accesses of sample `(j, r)` lead from one sample count to the next. -/
theorem PredictAt.next (hin : (s.regionAddr r j).toNat < s.cfg.pmSize) {t : State}
    (hkept : t = { u with pm := t.pm, pmLog := t.pmLog, scratch := t.scratch })
    (hpm : t.pm = s.predictCell r j (s.columnSum r j) u.pm)
    (hpred : t.scratch.pred = u.scratch.pred.set j (s.columnSum r j)) :
    PredictAt s (r * s.regs.width.toNat + j + 1) t where
  inside k hk := by
    obtain hk | rfl := Nat.lt_succ_iff_lt_or_eq.1 hk
    · exact h.inside k hk
    · rwa [sampleAddr_eq hj]
  kept := by rw [hkept, h.kept]
  pm := by rw [hpm, h.pm, predictFold_succ hj]
  pred := by rw [hpred, h.pred, map_range_set, predictState_succ_pred hj]

end Sample

/-- How a part of `PREDICT` that is to bring it to sample `n` ends. -/
inductive PredictRan (s : State) (n : Nat) : Run → Prop
  /-- Every sample has its cell. -/
  | all {u : State} (h : PredictAt s n u) : PredictRan s n (.go u)
  /-- Sample `m` is the first without a cell (R66). -/
  | beyond {m : Nat} {u : State} (hm : m < n) (hge : s.cfg.pmSize ≤ (s.sampleAddr m).toNat) (h : PredictAt s m u) :
      PredictRan s n (.stop .memBounds u)

theorem PredictRan.bind {s : State} {n n' : Nat} {run : Run} {f : State → Run} (h : PredictRan s n run) (hle : n ≤ n')
    (hf : ∀ u, PredictAt s n u → PredictRan s n' (f u)) : PredictRan s n' (run.bind f) := by
  cases h with
  | all h => exact hf _ h
  | beyond hm hge h => exact .beyond (hm.trans_le hle) hge h

/-- A loop whose iteration `t` leads from sample `at_ t` to sample `at_ (t + 1)`. -/
theorem predictRan_forUpTo {s u : State} {body : Nat → State → Run} {at_ : Nat → Nat} (hmono : Monotone at_) (n : Nat)
    (hu : PredictAt s (at_ 0) u)
    (hbody : ∀ t, t < n → ∀ u, PredictAt s (at_ t) u → PredictRan s (at_ (t + 1)) (body t u)) :
    PredictRan s (at_ n) (Run.forUpTo n body u) := by
  induction n with
  | zero => exact .all hu
  | succ n ih =>
    rw [forUpTo_succ]
    exact (ih (fun t ht => hbody t (by omega))).bind (hmono n.le_succ) (hbody n n.lt_succ_self)

/-- Sample `(j, r)` is the first without a cell. -/
theorem PredictAt.ran_beyond {s u : State} {r j : Nat} (h : PredictAt s (r * s.regs.width.toNat + j) u)
    (hj : j < s.regs.width.toNat) (hge : s.cfg.pmSize ≤ (s.regionAddr r j).toNat) :
    PredictRan s (r * s.regs.width.toNat + j + 1) (.stop .memBounds u) :=
  .beyond (Nat.lt_succ_self _) (by rwa [sampleAddr_eq hj]) h

/-- The accesses of column 0 when its cell exists (R272); `v` is its column sum. -/
theorem predictFirst_of_lt {a : Word} {s : State} {v : Sample} (ha : a.toNat < s.cfg.pmSize)
    (hv : s.predAt 0 + s.pm.read a.toNat = v) : predictFirst a s = .go ((s.storeSample a v).setPred 0 v) := by
  subst hv
  simp only [predictFirst, sampRead_of_lt ha, sampWrite_of_lt ha, bind_go]

/-- The accesses of a later column when its cell `b` and the one to its left exist (R272); `v` is its column sum. -/
theorem predictNext_of_lt {a b left : Word} {j : Nat} {s : State} {v : Sample} (hb : a + BitVec.ofNat 32 j = b)
    (hl : b - 1#32 = left) (hblt : b.toNat < s.cfg.pmSize) (hllt : left.toNat < s.cfg.pmSize)
    (hv : s.predAt j + s.pm.read b.toNat = v) :
    predictNext a j s =
      .go (((s.storeSample b v).setPred j v).storeSample b (v + (s.pm.write b.toNat v).read left.toNat)) := by
  simp only [predictNext, hb, hl, hv, sampRead_of_lt hblt, sampWrite_of_lt hblt, bind_go]
  rw [sampRead_of_lt (s := (s.storeSample b v).setPred j v) hllt]
  exact sampWrite_of_lt (s := (s.storeSample b v).setPred j v) hblt

/-- The sample of column 0. -/
theorem predictRan_predictFirst {s u : State} {r : Nat} (hw : 0 < s.regs.width.toNat)
    (h : PredictAt s (r * s.regs.width.toNat + 0) u) :
    PredictRan s (r * s.regs.width.toNat + 0 + 1) (predictFirst (s.regionAddr r 0) u) := by
  rcases Nat.lt_or_ge (s.regionAddr r 0).toNat s.cfg.pmSize with hin | hge
  · rw [predictFirst_of_lt (by rwa [h.cfg_eq]) (h.predAt_add_read hw)]
    exact .all (h.next hw hin rfl rfl rfl)
  · rw [predictFirst, sampRead_of_ge (by rwa [h.cfg_eq])]
    exact h.ran_beyond hw hge

/-- The sample of a later column. -/
theorem predictRan_predictNext {s u : State} {r j : Nat} (hj : j + 1 < s.regs.width.toNat)
    (h : PredictAt s (r * s.regs.width.toNat + (j + 1)) u) :
    PredictRan s (r * s.regs.width.toNat + (j + 1) + 1) (predictNext (s.regionAddr r 0) (j + 1) u) := by
  have haddr : s.regionAddr r 0 + BitVec.ofNat 32 (j + 1) = s.regionAddr r (j + 1) := by rw [regionAddr_zero]; rfl
  rcases Nat.lt_or_ge (s.regionAddr r (j + 1)).toNat s.cfg.pmSize with hin | hge
  · have hleft : (s.regionAddr r j).toNat < s.cfg.pmSize := h.inside_left hj (Nat.succ_ne_zero j)
    rw [predictNext_of_lt haddr (regionAddr_succ_sub_one s r j) (by rwa [h.cfg_eq]) (by rwa [h.cfg_eq])
      (h.predAt_add_read hj)]
    exact .all (h.next hj hin rfl rfl rfl)
  · rw [predictNext, haddr, sampRead_of_ge (by rwa [h.cfg_eq])]
    exact h.ran_beyond hj hge

/-- One row (R272). -/
theorem predictRan_predictRow {s u : State} {r : Nat} (hw : 0 < s.regs.width.toNat)
    (h : PredictAt s (r * s.regs.width.toNat) u) :
    PredictRan s ((r + 1) * s.regs.width.toNat) (predictRow r u) := by
  have hend : (r + 1) * s.regs.width.toNat = r * s.regs.width.toNat + (s.regs.width.toNat - 1 + 1) := by
    rw [Nat.succ_mul, Nat.sub_add_cancel hw]
  rw [predictRow, h.regs_eq, ← regionAddr_zero, hend]
  refine (predictRan_predictFirst hw h).bind (by omega) (fun v hv => ?_)
  exact predictRan_forUpTo (at_ := fun t => r * s.regs.width.toNat + (t + 1)) (fun _ _ _ => by dsimp only; omega) _ hv
    (fun t ht _ ht' => predictRan_predictNext (by omega) ht')

/-- All the pseudocode of `PREDICT` can do on a region that is not empty and not too wide (R271, R272). -/
theorem predictRan_predictBody {s : State} (hmax : s.regs.width.toNat ≤ s.cfg.maxDim)
    (hw : s.regs.width.toNat ≠ 0) (hh : s.regs.height.toNat ≠ 0) :
    PredictRan s (s.regs.height.toNat * s.regs.width.toNat) (predictBody s) := by
  rw [predictBody, if_neg (by omega), if_neg (by omega)]
  exact predictRan_forUpTo (at_ := fun r => r * s.regs.width.toNat)
    (fun _ _ hle => Nat.mul_le_mul_right _ hle) _ ((Nat.zero_mul _).symm ▸ predictAt_zero s)
    (fun r _ _ hr => predictRan_predictRow (Nat.pos_of_ne_zero hw) hr)

/-- An accepted `PREDICT` runs its pseudocode (R95). -/
theorem exec_predict_of_idle {s : State} (hb : s.status.busy = false) :
    exec .predict s = .next (predictBody s.accept).settle := runCommand_next.2 (.inr ⟨hb, rfl⟩)

theorem predictBody_outOfMemory {s : State} (h : s.cfg.maxDim < s.regs.width.toNat) :
    predictBody s = .stop .outOfMemory s := if_pos h

/-- An empty region (R271). -/
theorem predictBody_empty {s : State} (hmax : s.regs.width.toNat ≤ s.cfg.maxDim)
    (h : s.regs.width.toNat = 0 ∨ s.regs.height.toNat = 0) : predictBody s = .go s :=
  (if_neg (by omega)).trans (if_pos h)

theorem PredictAt.onlyPlane_complete {s u : State} {m : Nat} (h : PredictAt s.accept m u) :
    OnlyPlane s u.complete ∧ u.complete.status = s.status.doneOf := by
  rw [h.kept]
  exact ⟨rfl, rfl⟩

theorem PredictAt.onlyPlane_raise {s u : State} {m : Nat} (h : PredictAt s.accept m u) (code : ErrCode) :
    OnlyPlane s (u.raise code) ∧ (u.raise code).status = s.status.faultOf code := by
  rw [h.kept]
  exact ⟨rfl, rfl⟩

/-- The first sample without a cell is where `PREDICT` faults. -/
theorem PredictRan.stop_of_beyond {s : State} {n m : Nat} {run : Run} (h : PredictRan s n run) (hm : m < n)
    (hge : s.cfg.pmSize ≤ (s.sampleAddr m).toNat) (hin : ∀ k, k < m → (s.sampleAddr k).toNat < s.cfg.pmSize) :
    ∃ u, run = .stop .memBounds u ∧ PredictAt s m u := by
  cases h with
  | all h => exact absurd (h.inside m hm) (by omega)
  | @beyond m' u hm' hge' h =>
    obtain hlt | rfl | hgt := Nat.lt_trichotomy m m'
    · exact absurd (h.inside m hlt) (by omega)
    · exact ⟨u, rfl, h⟩
    · exact absurd (hin m' hgt) (by omega)

theorem PredictRan.go_of_inside {s : State} {n : Nat} {run : Run} (h : PredictRan s n run)
    (hin : ∀ k, k < n → (s.sampleAddr k).toNat < s.cfg.pmSize) : ∃ u, run = .go u ∧ PredictAt s n u := by
  cases h with
  | all h => exact ⟨_, rfl, h⟩
  | beyond hm hge => exact absurd (hin _ hm) (by omega)

/-- Settles O50: the two checks stop the pseudocode at once, and past them it runs up to the first sample beyond PM. -/
theorem predictChecks : Obligations.PredictChecks := by
  refine fun s hb => ⟨fun hwide => ?_, fun hmax hempty => ?_, fun m hmax hm hge hin => ?_⟩
  · rw [exec_predict_of_idle hb, predictBody_outOfMemory (s := s.accept) hwide]
    rfl
  · rw [exec_predict_of_idle hb, predictBody_empty (s := s.accept) hmax hempty]
    rfl
  · have hw : s.regs.width.toNat ≠ 0 := fun h0 => by simp [h0] at hm
    have hh : s.regs.height.toNat ≠ 0 := fun h0 => by simp [h0] at hm
    rw [Nat.mul_comm] at hm
    obtain ⟨u, hrun, hu⟩ := (predictRan_predictBody (s := s.accept) hmax hw hh).stop_of_beyond hm hge hin
    obtain ⟨honly, hstatus⟩ := hu.onlyPlane_raise .memBounds
    exact ⟨u.raise .memBounds, by rw [exec_predict_of_idle hb, hrun]; rfl, honly, hstatus, hu.pm⟩

end Sys2Proof.Machine

namespace Sys2Proof.Machine

/-! ### What `PREDICT` leaves on a region inside PM (R74, R272) -/

/-- On a region inside PM, empty or not, `PREDICT` completes with the PM of `predictFold`. -/
theorem exec_predict_of_inside {s : State} (hb : s.status.busy = false) (hmax : s.regs.width.toNat ≤ s.cfg.maxDim)
    (hin : ∀ k, k < s.regs.height.toNat * s.regs.width.toNat → (s.sampleAddr k).toNat < s.cfg.pmSize) :
    ∃ t, exec .predict s = .next t ∧ OnlyPlane s t ∧ t.status = s.status.doneOf ∧
      t.pm = predictFold s (s.regs.height.toNat * s.regs.width.toNat) := by
  by_cases hempty : s.regs.width.toNat = 0 ∨ s.regs.height.toNat = 0
  · have harea : s.regs.height.toNat * s.regs.width.toNat = 0 := by
      obtain h0 | h0 := hempty <;> simp [h0]
    refine ⟨s.accept.complete, ?_, rfl, rfl, ?_⟩
    · rw [exec_predict_of_idle hb, predictBody_empty (s := s.accept) hmax hempty]
      rfl
    · rw [harea]
      rfl
  · obtain ⟨hw, hh⟩ := not_or.1 hempty
    obtain ⟨u, hrun, hu⟩ := (predictRan_predictBody (s := s.accept) hmax hw hh).go_of_inside hin
    obtain ⟨honly, hstatus⟩ := hu.onlyPlane_complete
    exact ⟨u.complete, by rw [exec_predict_of_idle hb, hrun]; rfl, honly, hstatus, hu.pm⟩

/-! ### The cumulative sums of the old samples (R274) -/

/-- The sum of the first `n` old samples of column `j`. -/
def State.oldColumnSum (s : State) (n j : Nat) : Sample :=
  ∑ r ∈ Finset.range n, s.pm.read (s.regionAddr r j).toNat

/-- The two-dimensional inclusive sum of the old samples, column by column. -/
def State.oldRegionSum (s : State) (r j : Nat) : Sample :=
  ∑ j' ∈ Finset.range (j + 1), s.oldColumnSum (r + 1) j'

theorem oldColumnSum_succ (s : State) (n j : Nat) :
    s.oldColumnSum (n + 1) j = s.oldColumnSum n j + s.pm.read (s.regionAddr n j).toNat := Finset.sum_range_succ _ _

theorem oldRegionSum_zero (s : State) (r : Nat) : s.oldRegionSum r 0 = s.oldColumnSum (r + 1) 0 :=
  Finset.sum_range_one _

theorem oldRegionSum_succ (s : State) (r j : Nat) :
    s.oldRegionSum r (j + 1) = s.oldColumnSum (r + 1) (j + 1) + s.oldRegionSum r j :=
  Finset.sum_range_succ_comm _ _

theorem ofInt_eq_cast (x : Int) : BitVec.ofInt 16 x = (x : Sample) := rfl

theorem cast_toInt (v : Sample) : ((v.toInt : Int) : Sample) = v := BitVec.ofInt_toInt

/-- Wrapping the exact sum once is wrapping every addition (R273). -/
theorem ofInt_sum_eq_oldRegionSum (s : State) (r j : Nat) :
    BitVec.ofInt 16
      (∑ r' ∈ Finset.range (r + 1), ∑ j' ∈ Finset.range (j + 1), (s.pm.read (s.regionAddr r' j').toNat).toInt) =
    s.oldRegionSum r j := by
  rw [ofInt_eq_cast, Finset.sum_comm, State.oldRegionSum]
  push_cast
  simp only [cast_toInt, State.oldColumnSum]

/-! ### `predictState` computes them where the cells are distinct (R274) -/

/-- The samples of the region lie in distinct cells. -/
def State.SamplesDistinct (s : State) : Prop :=
  ∀ k k', k < s.regs.height.toNat * s.regs.width.toNat → k' < s.regs.height.toNat * s.regs.width.toNat →
    (s.sampleAddr k).toNat = (s.sampleAddr k').toNat → k = k'

/-- What PM and the column sums hold when the first `m` samples are done: the cumulative sums up to there, the old values
from there on, and for each column the sum of its samples so far; `(j, r)` is the next sample of its column. -/
structure CumulativeSums (s : State) (m : Nat) : Prop where
  wf : (predictFold s m).wf = true
  done : ∀ k, k < m → (predictFold s m).read (s.sampleAddr k).toNat =
    s.oldRegionSum (k / s.regs.width.toNat) (k % s.regs.width.toNat)
  todo : ∀ k, m ≤ k → k < s.regs.height.toNat * s.regs.width.toNat →
    (predictFold s m).read (s.sampleAddr k).toNat = s.pm.read (s.sampleAddr k).toNat
  pred : ∀ r j, j < s.regs.width.toNat → m ≤ r * s.regs.width.toNat + j →
    r * s.regs.width.toNat + j < m + s.regs.width.toNat → (predictState s m).2 j = s.oldColumnSum r j

/-- Before the first sample each column is at row 0, where nothing is summed. -/
theorem cumulativeSums_zero {s : State} (hwf : s.pm.wf = true) : CumulativeSums s 0 where
  wf := hwf
  done k hk := absurd hk (Nat.not_lt_zero k)
  todo k _ _ := rfl
  pred r j _ _ hlt := by
    have hr : r < 1 := row_lt_height (w := s.regs.width.toNat) (j := j) (by omega)
    rw [Nat.lt_one_iff.1 hr]
    rfl

/-- The cell of column 0 takes the column sum; any other cell takes it with its left neighbour added. -/
theorem predictCell_read_same {s : State} {r j : Nat} (v : Sample) {pm : Memory 16} (hwf : pm.wf = true)
    (hleft : j ≠ 0 → (s.regionAddr r (j - 1)).toNat ≠ (s.regionAddr r j).toNat) :
    (s.predictCell r j v pm).read (s.regionAddr r j).toNat =
      if j = 0 then v else v + pm.read (s.regionAddr r (j - 1)).toNat := by
  unfold State.predictCell
  dsimp only
  split_ifs with hj
  · exact pm.read_write_same _ v hwf
  · rw [Memory.read_write_same _ _ _ (pm.wf_write _ v hwf), pm.read_write_ne v (hleft hj)]

section Step

variable {s : State} {r j : Nat} (hd : s.SamplesDistinct) (h : CumulativeSums s (r * s.regs.width.toNat + j))
  (hj : j < s.regs.width.toNat) (hr : r < s.regs.height.toNat)

include hd hj hr in
/-- Every other sample of the region lies in another cell. -/
theorem sampleAddr_ne {k : Nat} (hk : k < s.regs.height.toNat * s.regs.width.toNat)
    (hne : k ≠ r * s.regs.width.toNat + j) : (s.sampleAddr k).toNat ≠ (s.regionAddr r j).toNat := by
  rw [← sampleAddr_eq hj]
  exact fun heq => hne (hd _ _ hk (sample_lt_area hr hj) heq)

include h hj hr

/-- The column sum of a sample is that of its column in the old region. -/
theorem CumulativeSums.columnSum_eq : s.columnSum r j = s.oldColumnSum (r + 1) j := by
  have hcell := h.todo _ (le_refl _) (sample_lt_area hr hj)
  rw [sampleAddr_eq hj] at hcell
  rw [State.columnSum, hcell, h.pred r j hj (le_refl _) (by omega), oldColumnSum_succ]

include hd

/-- The cell of a sample takes its cumulative sum. -/
theorem CumulativeSums.read_predictCell :
    (s.predictCell r j (s.columnSum r j) (predictFold s (r * s.regs.width.toNat + j))).read (s.regionAddr r j).toNat =
      s.oldRegionSum r j := by
  have harea := sample_lt_area hr hj
  cases j with
  | zero => rw [predictCell_read_same _ h.wf (absurd rfl), if_pos rfl, h.columnSum_eq hj hr, oldRegionSum_zero]
  | succ j =>
    have hj' : j < s.regs.width.toNat := by omega
    have hne := sampleAddr_ne hd hj hr (k := r * s.regs.width.toNat + j) (by omega) (by omega)
    have hdone := h.done (r * s.regs.width.toNat + j) (by omega)
    rw [sampleAddr_eq hj'] at hne hdone
    rw [row_of_sample hj', column_of_sample hj'] at hdone
    rw [predictCell_read_same _ h.wf (fun _ => hne), if_neg (Nat.succ_ne_zero j), h.columnSum_eq hj hr,
      Nat.add_sub_cancel, hdone, oldRegionSum_succ]

/-- One sample more. -/
theorem CumulativeSums.next : CumulativeSums s (r * s.regs.width.toNat + j + 1) where
  wf := by
    rw [predictFold_succ hj]
    exact predictCell_wf _ _ _ _ h.wf
  done k hk := by
    have harea := sample_lt_area hr hj
    rw [predictFold_succ hj]
    obtain hk | rfl := Nat.lt_succ_iff_lt_or_eq.1 hk
    · rw [predictCell_read_ne _ _ (sampleAddr_ne hd hj hr (by omega) (by omega)), h.done k hk]
    · rw [sampleAddr_eq hj, h.read_predictCell hd hj hr, row_of_sample hj, column_of_sample hj]
  todo k hle hk := by
    rw [predictFold_succ hj, predictCell_read_ne _ _ (sampleAddr_ne hd hj hr hk (by omega)), h.todo k (by omega) hk]
  pred r' j' hj' hle hlt := by
    rw [predictState_succ_pred hj]
    obtain rfl | hne := eq_or_ne j' j
    · have hlow : r < r' := Nat.lt_of_mul_lt_mul_right (a := s.regs.width.toNat) (by omega)
      have hhigh : r' < r + 2 :=
        Nat.lt_of_mul_lt_mul_right (a := s.regs.width.toNat) (by rw [Nat.add_mul]; omega)
      obtain rfl : r' = r + 1 := by omega
      rw [Function.update_self, h.columnSum_eq hj hr]
    · have hskip : r' * s.regs.width.toNat + j' ≠ r * s.regs.width.toNat + j + s.regs.width.toNat := by
        intro heq
        have hcol := congrArg (· % s.regs.width.toNat) heq
        simp only [Nat.add_mod_right, column_of_sample hj, column_of_sample hj'] at hcol
        exact hne hcol
      rw [Function.update_of_ne hne]
      exact h.pred r' j' hj' (by omega) (by omega)

end Step

theorem cumulativeSums {s : State} (hwf : s.pm.wf = true) (hd : s.SamplesDistinct) (m : Nat)
    (hm : m ≤ s.regs.height.toNat * s.regs.width.toNat) : CumulativeSums s m := by
  induction m with
  | zero => exact cumulativeSums_zero hwf
  | succ m ih =>
    obtain ⟨r, j, hj, rfl⟩ := exists_row_column (width_pos_of_lt_area hm) m
    exact (ih (by omega)).next hd hj (row_lt_height hm)

/-- A cell that no sample lies in keeps its value, distinct cells or not. -/
theorem predictFold_read_of_outside {s : State} {a : Nat} (m : Nat)
    (hm : m ≤ s.regs.height.toNat * s.regs.width.toNat) (ha : ∀ k, k < m → (s.sampleAddr k).toNat ≠ a) :
    (predictFold s m).read a = s.pm.read a := by
  induction m with
  | zero => rfl
  | succ m ih =>
    obtain ⟨r, j, hj, rfl⟩ := exists_row_column (width_pos_of_lt_area hm) m
    have hne := ha _ (Nat.lt_succ_self _)
    rw [sampleAddr_eq hj] at hne
    rw [predictFold_succ hj, predictCell_read_ne _ _ hne.symm, ih (by omega) (fun k hk => ha k (by omega))]

/-! ### Regions with distinct cells -/

section NoWrap

variable {s : State} (hstride : s.regs.width.toNat ≤ s.regs.stride.toNat)
  (hwrap : s.regs.dst.toNat + (s.regs.height.toNat - 1) * s.regs.stride.toNat + s.regs.width.toNat ≤ 2 ^ 32)

include hwrap

/-- Without wrap the addresses are those of the integers (R66, R270), all below the end of the last row. -/
theorem regionAddr_toNat {r j : Nat} (hr : r < s.regs.height.toNat) (hj : j < s.regs.width.toNat) :
    (s.regionAddr r j).toNat = s.regs.dst.toNat + r * s.regs.stride.toNat + j ∧
    (s.regionAddr r j).toNat <
      s.regs.dst.toNat + (s.regs.height.toNat - 1) * s.regs.stride.toNat + s.regs.width.toNat := by
  have hrow : r * s.regs.stride.toNat ≤ (s.regs.height.toNat - 1) * s.regs.stride.toNat :=
    Nat.mul_le_mul_right _ (by omega)
  have hr32 : r < 2 ^ 32 := hr.trans s.regs.height.isLt
  have hj32 : j < 2 ^ 32 := hj.trans s.regs.width.isLt
  rw [State.regionAddr, BitVec.toNat_add, BitVec.toNat_add, BitVec.toNat_mul, BitVec.toNat_ofNat, BitVec.toNat_ofNat,
    Nat.mod_eq_of_lt hr32, Nat.mod_eq_of_lt hj32]
  omega

include hstride

/-- Rows that are at least as far apart as they are long do not overlap. -/
theorem samplesDistinct : s.SamplesDistinct := by
  intro k k' hk hk' heq
  have hw := width_pos_of_lt_area hk
  obtain ⟨r, j, hj, rfl⟩ := exists_row_column hw k
  obtain ⟨r', j', hj', rfl⟩ := exists_row_column hw k'
  obtain ⟨haddr, -⟩ := regionAddr_toNat hwrap (row_lt_height hk) hj
  obtain ⟨haddr', -⟩ := regionAddr_toNat hwrap (row_lt_height hk') hj'
  rw [sampleAddr_eq hj, sampleAddr_eq hj', haddr, haddr', Nat.add_assoc, Nat.add_assoc] at heq
  have hoffset := Nat.add_left_cancel heq
  have hrow : r = r' := by
    rw [← row_of_sample (r := r) (hj.trans_le hstride), hoffset, row_of_sample (hj'.trans_le hstride)]
  subst hrow
  omega

end NoWrap

/-- Settles O48: `PREDICT` leaves the PM of `predictFold`, which holds the cumulative sums once all samples are done. -/
theorem predictIsPrefixSum : Obligations.PredictIsPrefixSum := by
  intro s hb hwf hmax hstride hwrap hpm
  have hin : ∀ k, k < s.regs.height.toNat * s.regs.width.toNat → (s.sampleAddr k).toNat < s.cfg.pmSize := by
    intro k hk
    obtain ⟨hr, hj⟩ := row_column_lt hk
    obtain ⟨-, hend⟩ := regionAddr_toNat hwrap hr hj
    exact hend.trans_le hpm
  obtain ⟨t, hexec, honly, hstatus, ht⟩ := exec_predict_of_inside hb hmax hin
  refine ⟨t, hexec, honly, hstatus, fun r j hr hj => ?_, fun a ha => ?_⟩
  · have hsums := cumulativeSums hwf (samplesDistinct hstride hwrap) _ (le_refl _)
    have hdone := hsums.done _ (sample_lt_area hr hj)
    rwa [sampleAddr_eq hj, row_of_sample hj, column_of_sample hj, ← ofInt_sum_eq_oldRegionSum, ← ht] at hdone
  · rw [ht]
    refine predictFold_read_of_outside _ (le_refl _) (fun k hk => ?_)
    obtain ⟨hr, hj⟩ := row_column_lt hk
    exact ha _ _ hr hj

end Sys2Proof.Machine

namespace Sys2Proof.Machine

/-! ### The faults of `FILT1D` (R291, R298) -/

/-- An accepted `FILT1D` whose pseudocode stops where it started changes `STATUS` alone (R340). -/
theorem exec_filt1d_stop {s : State} {code : ErrCode} (hb : s.status.busy = false)
    (h : filt1dBody s.accept = .stop code s.accept) :
    exec .filt1d s = .next { s with status := s.status.faultOf code, engine := .idle } :=
  runCommand_next.2 (.inr ⟨hb, by rw [h]; rfl⟩)

/-- The first check of R291, on the form of `N`. -/
theorem filt1dBody_badSize {s : State} (h : s.regs.size.toNat < 2 ∨ s.regs.size.toNat % 2 = 1) :
    filt1dBody s = .stop .badConfig s := if_pos h

/-- A filter application with a cell beyond PM stops at its reads, before the scratch is filled or a cell written
(R298). -/
theorem filterCells_of_ge {base : Word} {n : Nat} {pitch : Word} {scale : BitVec 64} {s : State} {t : Nat} (ht : t < n)
    (h : s.cfg.pmSize ≤ (elemAddr base pitch t).toNat) : filterCells base n pitch scale s = .stop .memBounds s := by
  rw [filterCells, readVec_of_ge n t ht h]

section EvenSize

variable {s : State} (htwo : 2 ≤ s.regs.size.toNat) (heven : s.regs.size.toNat % 2 = 0)

include htwo heven

/-- What is left to do for an `N` of the right form: its size, the scale (R291), and the filter (R298). -/
theorem filt1dBody_of_even :
    filt1dBody s =
      if s.cfg.maxDim < s.regs.size.toNat then .stop .outOfMemory s
      else if f64Finite s.regs.fscale = false then .stop .badConfig s
      else filterCells s.regs.dst s.regs.size.toNat s.regs.stride s.regs.fscale s :=
  if_neg (by omega)

theorem filt1dBody_outOfMemory (h : s.cfg.maxDim < s.regs.size.toNat) : filt1dBody s = .stop .outOfMemory s :=
  (filt1dBody_of_even htwo heven).trans (if_pos h)

variable (hmax : s.regs.size.toNat ≤ s.cfg.maxDim)

include hmax

theorem filt1dBody_badScale (h : f64Finite s.regs.fscale = false) : filt1dBody s = .stop .badConfig s := by
  rw [filt1dBody_of_even htwo heven, if_neg (by omega), if_pos h]

theorem filt1dBody_filterCells (h : f64Finite s.regs.fscale = true) :
    filt1dBody s = filterCells s.regs.dst s.regs.size.toNat s.regs.stride s.regs.fscale s := by
  rw [filt1dBody_of_even htwo heven, if_neg (by omega), if_neg (by simp [h])]

end EvenSize

/-- Settles O53: each check, and past the checks the read of a cell beyond PM, stops the pseudocode where it started. -/
theorem filt1dFaults : Obligations.Filt1dFaults := by
  refine fun s hb => ⟨fun hsize => ?_, fun htwo heven hbig => ?_, fun htwo heven hmax hscale => ?_,
    fun t htwo heven hmax hscale ht hge => ?_⟩
  · exact exec_filt1d_stop hb (filt1dBody_badSize (s := s.accept) hsize)
  · exact exec_filt1d_stop hb (filt1dBody_outOfMemory (s := s.accept) htwo heven hbig)
  · exact exec_filt1d_stop hb (filt1dBody_badScale (s := s.accept) htwo heven hmax hscale)
  · exact exec_filt1d_stop hb
      ((filt1dBody_filterCells (s := s.accept) htwo heven hmax hscale).trans (filterCells_of_ge ht hge))

end Sys2Proof.Machine

namespace Sys2Proof.Machine

/-! ### A `BinValue` as a rational number (R11)

`trunc`, `above` and `below` are computed on integers, by the sign of the exponent; the two lemmas on `toRat` turn each
of their branches into a statement about the number. -/

theorem toRat_of_exp_nonneg {x : BinValue} (h : 0 ≤ x.exp) : x.toRat = ((x.mant * 2 ^ x.exp.toNat : Int) : ℚ) := by
  obtain ⟨n, hn⟩ := Int.eq_ofNat_of_zero_le h
  simp [BinValue.toRat, hn]

theorem toRat_of_exp_neg {x : BinValue} (h : ¬0 ≤ x.exp) :
    x.toRat = (x.mant : ℚ) / ((2 ^ (-x.exp).toNat : Nat) : ℚ) := by
  obtain ⟨n, hn⟩ := Int.eq_ofNat_of_zero_le (a := -x.exp) (by omega)
  obtain hexp : x.exp = -(n : Int) := by omega
  simp [BinValue.toRat, hexp, div_eq_mul_inv]

theorem toRat_nonneg_iff {x : BinValue} : 0 ≤ x.toRat ↔ 0 ≤ x.mant := by
  rw [BinValue.toRat, mul_nonneg_iff_of_pos_right (zpow_pos two_pos _), Int.cast_nonneg_iff]

theorem above_iff {x : BinValue} {k : Int} : x.above k = true ↔ (k : ℚ) < x.toRat := by
  by_cases h : 0 ≤ x.exp
  · simp only [BinValue.above, if_pos h, decide_eq_true_eq, toRat_of_exp_nonneg h, Int.cast_lt]
  · rw [toRat_of_exp_neg h, lt_div_iff₀ (by positivity)]
    simp only [BinValue.above, if_neg h, decide_eq_true_eq]
    norm_cast

theorem below_iff {x : BinValue} {k : Int} : x.below k = true ↔ x.toRat < (k : ℚ) := by
  by_cases h : 0 ≤ x.exp
  · simp only [BinValue.below, if_pos h, decide_eq_true_eq, toRat_of_exp_nonneg h, Int.cast_lt]
  · rw [toRat_of_exp_neg h, div_lt_iff₀ (by positivity)]
    simp only [BinValue.below, if_neg h, decide_eq_true_eq]
    norm_cast

/-- Dropping the fraction of a non-negative number. -/
theorem trunc_of_nonneg {x : BinValue} (hx : 0 ≤ x.toRat) : x.trunc = ⌊x.toRat⌋ := by
  by_cases h : 0 ≤ x.exp
  · rw [toRat_of_exp_nonneg h, Int.floor_intCast, BinValue.trunc, if_pos h]
  · rw [toRat_of_exp_neg h, Rat.floor_intCast_div_natCast, BinValue.trunc, if_neg h,
      Int.tdiv_eq_ediv_of_nonneg (toRat_nonneg_iff.1 hx)]
    norm_cast

/-- Dropping the fraction of a negative number. -/
theorem trunc_of_neg {x : BinValue} (hx : x.toRat < 0) : x.trunc = ⌈x.toRat⌉ := by
  have hmant : x.mant < 0 := not_le.1 (fun h => absurd (toRat_nonneg_iff.2 h) (not_le.2 hx))
  by_cases h : 0 ≤ x.exp
  · rw [toRat_of_exp_nonneg h, Int.ceil_intCast, BinValue.trunc, if_pos h]
  · rw [toRat_of_exp_neg h, Rat.ceil_intCast_div_natCast, BinValue.trunc, if_neg h, ← neg_neg x.mant, Int.neg_tdiv,
      Int.tdiv_eq_ediv_of_nonneg (by omega)]
    simp only [neg_neg]
    norm_cast

theorem trunc_ofInt (k : Int) : (BinValue.ofInt k).trunc = k := by simp [BinValue.trunc, BinValue.ofInt]

/-! ### `clip16` and `trunc` (R9, R295) -/

theorem clip16_of_gt {x : BinValue} (h : 32767 < x.toRat) : clip16 (.num x) = BinValue.ofInt 32767 :=
  if_pos (above_iff.2 (by exact_mod_cast h))

theorem clip16_of_lt {x : BinValue} (h : x.toRat < -32768) : clip16 (.num x) = BinValue.ofInt (-32768) := by
  have habove : ¬x.above 32767 = true := fun h' => by
    have hgt := above_iff.1 h'
    norm_num at hgt
    linarith
  exact (if_neg habove).trans (if_pos (below_iff.2 (by exact_mod_cast h)))

theorem clip16_of_mem {x : BinValue} (hlow : -32768 ≤ x.toRat) (hhigh : x.toRat ≤ 32767) : clip16 (.num x) = x := by
  have habove : ¬x.above 32767 = true := fun h => absurd (above_iff.1 h) (not_lt.2 (by exact_mod_cast hhigh))
  have hbelow : ¬x.below (-32768) = true := fun h => absurd (below_iff.1 h) (not_lt.2 (by exact_mod_cast hlow))
  exact (if_neg habove).trans (if_neg hbelow)

/-- A non-negative number: only the upper bound can clip. -/
theorem trunc_clip16_of_nonneg {x : BinValue} (hx : 0 ≤ x.toRat) :
    (clip16 (.num x)).trunc = min 32767 ⌊x.toRat⌋ := by
  obtain hgt | hle := lt_or_ge 32767 x.toRat
  · have hfloor : 32767 ≤ ⌊x.toRat⌋ := Int.le_floor.2 (by exact_mod_cast hgt.le)
    rw [clip16_of_gt hgt, trunc_ofInt, min_eq_left hfloor]
  · have hfloor : ⌊x.toRat⌋ ≤ 32767 := by exact_mod_cast (Int.floor_le x.toRat).trans hle
    rw [clip16_of_mem (by linarith) hle, trunc_of_nonneg hx, min_eq_right hfloor]

/-- A negative number: only the lower bound can clip. -/
theorem trunc_clip16_of_neg {x : BinValue} (hx : x.toRat < 0) :
    (clip16 (.num x)).trunc = max (-32768) ⌈x.toRat⌉ := by
  obtain hlt | hge := lt_or_ge x.toRat (-32768)
  · have hceil : ⌈x.toRat⌉ ≤ -32768 := Int.ceil_le.2 (by exact_mod_cast hlt.le)
    rw [clip16_of_lt hlt, trunc_ofInt, max_eq_left hceil]
  · have hceil : -32768 ≤ ⌈x.toRat⌉ := by exact_mod_cast hge.trans (Int.le_ceil x.toRat)
    rw [clip16_of_mem hge (by linarith), trunc_of_neg hx, max_eq_right hceil]

/-- Settles O59: by the sign of the number, which decides the one bound that can clip it. -/
theorem clipAndTruncate : Obligations.ClipAndTruncate := by
  refine ⟨fun x => ?_, trunc_ofInt 32767, trunc_ofInt (-32768)⟩
  obtain hx | hx := le_or_gt 0 x.toRat
  · have hfloor : 0 ≤ ⌊x.toRat⌋ := Int.floor_nonneg.2 hx
    rw [trunc_clip16_of_nonneg hx, if_pos hx]
    omega
  · have hceil : ⌈x.toRat⌉ ≤ 0 := Int.ceil_le.2 (by exact_mod_cast hx.le)
    rw [trunc_clip16_of_neg hx, if_neg (not_le.2 hx)]
    omega

end Sys2Proof.Machine

namespace Sys2Proof.Machine

/-! ### An illegal command word (R94, R340, R343) -/

/-- `CMD` is the register at the base of the block (R29). -/
theorem offset_regBase (s : State) : s.offset s.cfg.regBase = 0 := by
  rw [State.offset, BitVec.sub_self, BitVec.toNat_zero]

/-- A step in which the host writes to `CMD` runs the word written (R41). -/
theorem step_cmdWrite {s : State} {w : Word} {rest : List HostOp} (h : s.host = .wr s.cfg.regBase w :: rest) :
    step s = execCommandWord w { s with host := rest } := by
  have hoff : State.offset { s with host := rest } s.cfg.regBase = 0 := offset_regBase s
  have hstep : step s = hostRegWrite s.cfg.regBase w { s with host := rest } := by rw [step, h]; rfl
  rw [hstep, hostRegWrite, if_neg (by rw [hoff]; decide), if_pos hoff]

/-- An idle block accepts a word that selects no command and faults at once (R343). -/
theorem execCommandWord_illegal {s : State} {w : Word} (hb : s.status.busy = false)
    (hw : ∀ i, decodeCommand w ≠ .ok i) : execCommandWord w s = .next (s.accept.raise .illegalCmd) := by
  rw [execCommandWord]
  cases hd : decodeCommand w with
  | ok i => exact absurd hd (hw i)
  | error e => exact if_neg (by simp [hb])

/-- No command runs on a block that is not `BUSY` (R30). -/
theorem State.statusInv.engine_eq_idle {s : State} (h : s.statusInv) (hb : s.status.busy = false) :
    s.engine = .idle := by
  obtain ⟨hbusy, -⟩ := h
  by_contra he
  simp [hbusy.2 he] at hb

/-- On an idle block, accepting a command and raising a fault changes `STATUS` alone (R95, R340). -/
theorem accept_raise_of_idle {s : State} (code : ErrCode) (he : s.engine = .idle) :
    s.accept.raise code = { s with status := s.status.faultOf code } := by
  have hraise : s.accept.raise code = { s with status := s.status.faultOf code, engine := .idle } := rfl
  rw [hraise, he]

/-- Settles O9: `CMD` runs the word, the word selects no command, and the fault completion that follows has no engine
to stop. -/
theorem illegalCommandWord : Obligations.IllegalCommandWord := by
  intro s w rest hhost hinv hb hw
  have hrun : step s = .next (State.raise (State.accept { s with host := rest }) .illegalCmd) :=
    (step_cmdWrite hhost).trans (execCommandWord_illegal hb hw)
  exact ⟨_, hrun, accept_raise_of_idle _ (hinv.engine_eq_idle hb), rfl⟩

end Sys2Proof.Machine

namespace Sys2Proof.Machine

/-! ### Counting the PM writes of a run (log entry 20)

Whether and from where the PM writes are counted makes no difference to what a piece of pseudocode does: the log it ends
with is the log it began with and its own writes on top.

Where a piece reads its operands off the state, the lemma for fixed operands is applied at that state (`fun s => _ s`):
the operands do not depend on the log, so at `s` both speak of the same run. -/

/-- The state with another log of its PM writes. -/
def State.withLog (s : State) (log : Option (List (Nat × Sample))) : State := { s with pmLog := log }

@[simp] theorem withLog_regs (s : State) (log : Option (List (Nat × Sample))) : (s.withLog log).regs = s.regs := rfl

/-- A run whose end state has another log of its PM writes. -/
def Run.withLog (log : Option (List (Nat × Sample))) : Run → Run
  | .go s => .go (s.withLog log)
  | .stop code s => .stop code (s.withLog log)

@[simp] theorem withLog_go (log : Option (List (Nat × Sample))) (s : State) :
    (Run.go s).withLog log = .go (s.withLog log) := rfl

@[simp] theorem withLog_stop (log : Option (List (Nat × Sample))) (code : ErrCode) (s : State) :
    (Run.stop code s).withLog log = .stop code (s.withLog log) := rfl

/-- A log, where one is kept, after further writes: the last one comes first. -/
def logWrites (writes : List (Nat × Sample)) (log : Option (List (Nat × Sample))) : Option (List (Nat × Sample)) :=
  log.map (fun old => writes.reverse ++ old)

@[simp] theorem logWrites_nil (log : Option (List (Nat × Sample))) : logWrites [] log = log := by
  simp [logWrites]

theorem logWrites_append (xs ys : List (Nat × Sample)) (log : Option (List (Nat × Sample))) :
    logWrites (xs ++ ys) log = logWrites ys (logWrites xs log) := by
  simp [logWrites, Function.comp_def]

/-- A change of state that neither writes PM nor reads or changes the log. -/
structure LeavesPM (φ : State → State) : Prop where
  cfg : ∀ s, (φ s).cfg = s.cfg
  pm : ∀ s, (φ s).pm = s.pm
  withLog : ∀ s log, φ (s.withLog log) = (φ s).withLog log

theorem LeavesPM.id : LeavesPM (fun s => s) := ⟨fun _ => rfl, fun _ => rfl, fun _ _ => rfl⟩

/-- Working registers computed without the log. -/
theorem leavesPM_work (w : State → Work) (h : ∀ s log, w (s.withLog log) = w s) :
    LeavesPM (fun s => { s with work := w s }) :=
  ⟨fun _ => rfl, fun _ => rfl, fun s log => by rw [h s log]; rfl⟩

/-- Scratch computed without the log. -/
theorem leavesPM_scratch (f : State → Scratch) (h : ∀ s log, f (s.withLog log) = f s) :
    LeavesPM (fun s => { s with scratch := f s }) :=
  ⟨fun _ => rfl, fun _ => rfl, fun s log => by rw [h s log]; rfl⟩

theorem leavesPM_engine (e : Engine) : LeavesPM (fun s => { s with engine := e }) :=
  ⟨fun _ => rfl, fun _ => rfl, fun _ _ => rfl⟩

theorem leavesPM_accept : LeavesPM State.accept := ⟨fun _ => rfl, fun _ => rfl, fun _ _ => rfl⟩

theorem leavesPM_complete : LeavesPM State.complete := ⟨fun _ => rfl, fun _ => rfl, fun _ _ => rfl⟩

theorem leavesPM_retire : LeavesPM State.retire := ⟨fun _ => rfl, fun _ => rfl, fun _ _ => rfl⟩

theorem leavesPM_raise (code : ErrCode) : LeavesPM (fun s => s.raise code) :=
  ⟨fun _ => rfl, fun _ => rfl, fun _ _ => rfl⟩

theorem leavesPM_coderInit : LeavesPM State.coderInit := ⟨fun _ => rfl, fun _ => rfl, fun _ _ => rfl⟩

theorem leavesPM_setLvalid (b : Bool) : LeavesPM (fun s => s.setLvalid b) :=
  ⟨fun _ => rfl, fun _ => rfl, fun _ _ => rfl⟩

theorem leavesPM_afterZeros (rlen : Nat) : LeavesPM (afterZeros rlen) := ⟨fun _ => rfl, fun _ => rfl, fun _ _ => rfl⟩

theorem leavesPM_setPred (j : Nat) (v : Sample) : LeavesPM (fun s => s.setPred j v) :=
  ⟨fun _ => rfl, fun _ => rfl, fun _ _ => rfl⟩

theorem leavesPM_ite {c : State → Prop} [∀ s, Decidable (c s)] {φ ψ : State → State}
    (hc : ∀ s log, c (s.withLog log) = c s) (hφ : LeavesPM φ) (hψ : LeavesPM ψ) :
    LeavesPM (fun s => if c s then φ s else ψ s) where
  cfg s := by split_ifs; exacts [hφ.cfg s, hψ.cfg s]
  pm s := by split_ifs; exacts [hφ.pm s, hψ.pm s]
  withLog s log := by simp only [hc]; split_ifs; exacts [hφ.withLog s log, hψ.withLog s log]

theorem leavesPM_nextValue (v : Variant) : LeavesPM (State.nextValue v) :=
  leavesPM_ite (fun _ _ => rfl) (leavesPM_engine (.value v)) leavesPM_retire

theorem leavesPM_afterValue (v : Variant) : LeavesPM (State.afterValue v) :=
  leavesPM_ite (fun _ _ => rfl) (leavesPM_engine (.run v)) (leavesPM_nextValue v)

/-! ### The PM writes from one state to another -/

/-- From `s` to `u` PM took exactly these writes, all of cells that exist. -/
structure Wrote (s : State) (writes : List (Nat × Sample)) (u : State) : Prop where
  cfg : u.cfg = s.cfg
  pm : u.pm = s.pm.replay writes
  inside : ∀ c ∈ writes, c.1 < s.cfg.pmSize

theorem LeavesPM.wrote {φ : State → State} (h : LeavesPM φ) (s : State) : Wrote s [] (φ s) :=
  ⟨h.cfg s, h.pm s, by simp⟩

theorem Wrote.trans {s u v : State} {xs ys : List (Nat × Sample)} (hu : Wrote s xs u) (hv : Wrote u ys v) :
    Wrote s (xs ++ ys) v where
  cfg := hv.cfg.trans hu.cfg
  pm := by rw [hv.pm, hu.pm, Memory.replay_append]
  inside c hc := by
    obtain hx | hy := List.mem_append.1 hc
    · exact hu.inside c hx
    · rw [← hu.cfg]; exact hv.inside c hy

theorem Wrote.leavesPM {φ : State → State} {s u : State} {writes : List (Nat × Sample)} (h : Wrote s writes u)
    (hφ : LeavesPM φ) : Wrote s writes (φ u) := by
  simpa using h.trans (hφ.wrote u)

/-- Wherever `f` starts, there are writes that it makes before it ends, gone on or stopped, and that it adds to the log if
one is kept; the log has no other effect. -/
def RunLogs (f : State → Run) : Prop :=
  ∀ s, ∃ writes, (f s).EndsIn (Wrote s writes) ∧ ∀ log, f (s.withLog log) = (f s).withLog (logWrites writes log)

/-! ### Sequencing and the single operations -/

theorem runLogs_go {φ : State → State} (h : LeavesPM φ) : RunLogs (fun s => .go (φ s)) :=
  fun s => ⟨[], h.wrote s, fun log => by simp [h.withLog]⟩

theorem runLogs_stop {φ : State → State} (code : ErrCode) (h : LeavesPM φ) : RunLogs (fun s => .stop code (φ s)) :=
  fun s => ⟨[], h.wrote s, fun log => by simp [h.withLog]⟩

theorem RunLogs.of_go {f : State → Run} {s u : State} (hf : RunLogs f) (h : f s = .go u) :
    ∃ writes, Wrote s writes u ∧ ∀ log, f (s.withLog log) = .go (u.withLog (logWrites writes log)) := by
  obtain ⟨writes, hw, hlog⟩ := hf s
  rw [h] at hw
  exact ⟨writes, hw, fun log => by rw [hlog, h, withLog_go]⟩

theorem RunLogs.of_stop {f : State → Run} {code : ErrCode} {s u : State} (hf : RunLogs f) (h : f s = .stop code u) :
    ∃ writes, Wrote s writes u ∧ ∀ log, f (s.withLog log) = .stop code (u.withLog (logWrites writes log)) := by
  obtain ⟨writes, hw, hlog⟩ := hf s
  rw [h] at hw
  exact ⟨writes, hw, fun log => by rw [hlog, h, withLog_stop]⟩

/-- A sequence makes the writes of its first piece and, if that went on, then those of its second. -/
theorem runLogs_bind {f g : State → Run} (hf : RunLogs f) (hg : RunLogs g) : RunLogs (fun s => (f s).bind g) := by
  intro s
  cases hr : f s with
  | stop code u =>
    obtain ⟨xs, hxs, hlog⟩ := hf.of_stop hr
    exact ⟨xs, by simpa [hr] using hxs, fun log => by simp [hr, hlog]⟩
  | go u =>
    obtain ⟨xs, hxs, hflog⟩ := hf.of_go hr
    obtain ⟨ys, hys, hglog⟩ := hg u
    exact ⟨xs ++ ys, by simpa [hr] using endsIn_mono hys (fun _ => hxs.trans),
      fun log => by simp [hr, hflog, hglog, logWrites_append]⟩

theorem runLogs_comp {f : State → Run} {φ : State → State} (hφ : LeavesPM φ) (hf : RunLogs f) :
    RunLogs (fun s => f (φ s)) :=
  runLogs_bind (runLogs_go hφ) hf

/-- A test that does not read the log. -/
theorem runLogs_ite {c : State → Prop} [∀ s, Decidable (c s)] {f g : State → Run}
    (hc : ∀ s log, c (s.withLog log) = c s) (hf : RunLogs f) (hg : RunLogs g) :
    RunLogs (fun s => if c s then f s else g s) := by
  intro s
  by_cases h : c s
  · simpa [hc, h] using hf s
  · simpa [hc, h] using hg s

theorem runLogs_forUpTo {body : Nat → State → Run} (n : Nat) (hb : ∀ t, RunLogs (body t)) :
    RunLogs (Run.forUpTo n body) := by
  induction n with
  | zero => exact runLogs_go .id
  | succ n ih => exact runLogs_bind ih (hb n)

theorem runLogs_skip (n : Nat) : RunLogs (skip n) :=
  runLogs_ite (fun _ _ => rfl) (runLogs_stop _ .id)
    (runLogs_go (leavesPM_work (fun s => { s.work with pos := s.work.pos + n }) (fun _ _ => rfl)))

theorem runLogs_sampRead (a : Word) {k : Sample → State → Run} (hk : ∀ v, RunLogs (k v)) : RunLogs (sampRead a k) :=
  runLogs_ite (fun _ _ => rfl) (fun s => hk (s.pm.read a.toNat) s) (runLogs_stop _ .id)

/-- A sample write makes one write, and none when its cell does not exist (R66). -/
theorem runLogs_sampWrite (a : Word) (v : Sample) : RunLogs (sampWrite a v) := by
  intro s
  obtain ⟨h, e⟩ | ⟨h, e⟩ := sampWrite_cases a v s
  · refine ⟨[(a.toNat, v)], ?_, fun log => ?_⟩
    · rw [e]; exact ⟨rfl, rfl, by simpa using h⟩
    · rw [e]; exact sampWrite_of_lt (s := s.withLog log) h
  · refine ⟨[], ?_, fun log => ?_⟩
    · rw [e]; exact LeavesPM.id.wrote s
    · rw [e, logWrites_nil]; exact sampWrite_of_ge (s := s.withLog log) h

/-! ### The pseudocode of the codewords -/

theorem runLogs_emit (v : Int) : RunLogs (emit v) :=
  fun s => runLogs_bind (runLogs_sampWrite s.emitAddr (s.coefSample v))
    (runLogs_go (leavesPM_work (fun s => s.work.advance s.regs.width s.regs.stride) (fun _ _ => rfl))) s

theorem runLogs_adapt (gain : Int) (x : Nat) : RunLogs (adapt gain x) :=
  runLogs_ite (fun _ _ => rfl) (runLogs_stop _ .id)
    (runLogs_go (leavesPM_work
      (fun s => { s.work with state := BitVec.ofInt 32 (adapted gain s.work.state.toNat x), flag := false })
      (fun _ _ => rfl)))

theorem runLogs_lowValue (escape : Nat) : RunLogs (lowValue escape) :=
  fun s => runLogs_bind (runLogs_emit _) (runLogs_adapt _ (escape + s.work.flag.toNat)) s

theorem runLogs_highValue (cnt1 : Nat) : RunLogs (highValue cnt1) :=
  fun s => runLogs_bind (runLogs_emit _) (runLogs_adapt s.regs.hd.toInt (s.work.flag.toNat + cnt1)) s

theorem runLogs_zeroRun (rlen : Nat) : RunLogs (zeroRun rlen) :=
  runLogs_ite (fun _ _ => rfl) (runLogs_stop _ .id)
    (runLogs_bind (runLogs_forUpTo rlen (fun _ => runLogs_emit 0)) (runLogs_go (leavesPM_afterZeros rlen)))

theorem runLogs_zeroRunCapped (rlen : Nat) : RunLogs (zeroRunCapped rlen) :=
  runLogs_ite (fun _ _ => rfl) (runLogs_stop _ .id) (runLogs_zeroRun rlen)

/-! ### The pseudocode of the commands -/

theorem runLogs_layoutBody : RunLogs layoutBody :=
  runLogs_ite (fun _ _ => rfl) (runLogs_stop _ (leavesPM_setLvalid false))
    (runLogs_ite (fun _ _ => rfl) (runLogs_stop _ (leavesPM_setLvalid false))
      (runLogs_go ⟨fun _ => rfl, fun _ => rfl, fun _ _ => rfl⟩))

theorem runLogs_coderChecks : RunLogs coderChecks :=
  runLogs_ite (fun _ _ => rfl) (runLogs_stop _ .id)
    (runLogs_ite (fun _ _ => rfl) (runLogs_stop _ .id) (runLogs_go .id))

theorem runLogs_highConstants : RunLogs highConstants := by
  intro s
  unfold highConstants
  simp only [withLog_regs]
  cases highWidth s.regs.hscale.toInt with
  | error code => exact runLogs_stop code .id s
  | ok nbits =>
    exact runLogs_go (leavesPM_work (fun s => { s.work with nbits := nbits, length := Config.highTotal - nbits })
      (fun _ _ => rfl)) s

theorem runLogs_predictFirst (a : Word) : RunLogs (predictFirst a) :=
  runLogs_sampRead a (fun old s =>
    runLogs_bind (runLogs_sampWrite a (s.predAt 0 + old)) (runLogs_go (leavesPM_setPred 0 (s.predAt 0 + old))) s)

theorem runLogs_predictNext (a : Word) (j : Nat) : RunLogs (predictNext a j) :=
  runLogs_sampRead _ (fun old s =>
    runLogs_bind (runLogs_sampWrite _ (s.predAt j + old))
      (runLogs_comp (leavesPM_setPred j (s.predAt j + old))
        (runLogs_sampRead _ (fun left => runLogs_sampWrite _ (s.predAt j + old + left)))) s)

theorem runLogs_predictRow (r : Nat) : RunLogs (predictRow r) :=
  fun s => runLogs_bind (runLogs_predictFirst (elemAddr s.regs.dst s.regs.stride r))
    (runLogs_forUpTo (s.regs.width.toNat - 1)
      (fun t => runLogs_predictNext (elemAddr s.regs.dst s.regs.stride r) (t + 1))) s

theorem runLogs_predictBody : RunLogs predictBody :=
  runLogs_ite (fun _ _ => rfl) (runLogs_stop _ .id)
    (runLogs_ite (fun _ _ => rfl) (runLogs_go .id)
      (fun s => runLogs_comp
        (leavesPM_scratch (fun s => { s.scratch with pred := List.replicate s.regs.width.toNat 0#16 }) (fun _ _ => rfl))
        (runLogs_forUpTo s.regs.height.toNat runLogs_predictRow) s))

theorem readVec_withLog (s : State) (log : Option (List (Nat × Sample))) (base pitch : Word) (n : Nat) :
    (s.withLog log).readVec base pitch n = s.readVec base pitch n := by
  induction n with
  | zero => rfl
  | succ n ih => rw [State.readVec, ih]; rfl

theorem runLogs_writeVec (base pitch : Word) (out : List Sample) : RunLogs (writeVec base pitch out) :=
  runLogs_forUpTo out.length (fun _ => runLogs_sampWrite _ _)

/-- A filter application reads its vector without a write, and then writes all of it (R298). -/
theorem runLogs_filterCells (base : Word) (n : Nat) (pitch : Word) (scale : BitVec 64) :
    RunLogs (filterCells base n pitch scale) := by
  intro s
  unfold filterCells
  simp only [readVec_withLog]
  cases s.readVec base pitch n with
  | none => exact runLogs_stop .memBounds .id s
  | some xs =>
    exact runLogs_comp
      (leavesPM_scratch (fun s =>
        { s.scratch with low := padLow (xs.take (n / 2)), high := padHigh (xs.drop (n / 2)) }) (fun _ _ => rfl))
      (runLogs_writeVec _ _ _) s

theorem runLogs_filt1dBody : RunLogs filt1dBody :=
  runLogs_ite (fun _ _ => rfl) (runLogs_stop _ .id)
    (runLogs_ite (fun _ _ => rfl) (runLogs_stop _ .id)
      (runLogs_ite (fun _ _ => rfl) (runLogs_stop _ .id)
        (fun s => runLogs_filterCells s.regs.dst s.regs.size.toNat s.regs.stride s.regs.fscale s)))

theorem runLogs_idwtRows (p : Plane) (k : Nat) : RunLogs (idwtRows p k) :=
  fun s => runLogs_forUpTo (levelSize (s.ph.get p) k) (fun r u =>
    runLogs_filterCells (elemAddr (u.regs.pbase.get p) (u.regs.pstride.get p) r) (levelSize (u.pw.get p) k) 1#32
      ((u.scale.get p).ver.get k) u) s

theorem runLogs_idwtCols (p : Plane) (k : Nat) : RunLogs (idwtCols p k) :=
  fun s => runLogs_forUpTo (levelSize (s.pw.get p) k) (fun x u =>
    runLogs_filterCells (elemAddr (u.regs.pbase.get p) 1#32 x) (levelSize (u.ph.get p) k) (u.regs.pstride.get p)
      ((u.scale.get p).hor.get k) u) s

theorem runLogs_idwtBody (p : Plane) : RunLogs (idwtBody p) :=
  runLogs_ite (fun _ _ => rfl) (runLogs_stop _ .id)
    (runLogs_ite (fun _ _ => rfl) (runLogs_stop _ .id)
      (runLogs_forUpTo 4 (fun k => runLogs_bind (runLogs_idwtRows p k) (runLogs_idwtCols p k))))

/-! ### The shells, and every instruction -/

/-- Wherever `f` answers a next state, there are writes that it makes on the way and that it adds to the log if one is
kept; the log has no other effect. -/
def ExecLogs (f : State → Host.Outcome State Fault Refusal) : Prop :=
  ∀ s t, f s = .next t →
    ∃ writes, Wrote s writes t ∧ ∀ log, f (s.withLog log) = .next (t.withLog (logWrites writes log))

theorem runCommand_logs {body : State → Run} (hbody : RunLogs body) : ExecLogs (runCommand body) := by
  intro s t h
  obtain ⟨hb, rfl⟩ | ⟨hb, rfl⟩ := runCommand_next.1 h
  · exact ⟨[], LeavesPM.id.wrote t, fun log => runCommand_next.2 (.inl ⟨hb, by simp⟩)⟩
  · have hlogs := runLogs_comp leavesPM_accept hbody
    cases hr : body s.accept with
    | go u =>
      obtain ⟨writes, hw, hlog⟩ := hlogs.of_go hr
      exact ⟨writes, hw.leavesPM leavesPM_complete, fun log => runCommand_next.2 (.inr ⟨hb, by rw [hlog]; rfl⟩)⟩
    | stop code u =>
      obtain ⟨writes, hw, hlog⟩ := hlogs.of_stop hr
      exact ⟨writes, hw.leavesPM (leavesPM_raise code), fun log => runCommand_next.2 (.inr ⟨hb, by rw [hlog]; rfl⟩)⟩

theorem startCoder_logs (v : Variant) {start : State → Run} (hstart : RunLogs start) :
    ExecLogs (startCoder v start) := by
  intro s t h
  have hlogs := runLogs_comp leavesPM_accept hstart
  obtain ⟨hb, rfl⟩ | ⟨hb, ⟨u, hgo, rfl⟩ | ⟨code, u, hstop, rfl⟩⟩ := startCoder_next.1 h
  · exact ⟨[], LeavesPM.id.wrote t, fun log => startCoder_next.2 (.inl ⟨hb, by simp⟩)⟩
  · obtain ⟨writes, hw, hlog⟩ := hlogs.of_go hgo
    exact ⟨writes, hw.leavesPM (leavesPM_nextValue v), fun log =>
      startCoder_next.2 (.inr ⟨hb, .inl ⟨_, hlog log, ((leavesPM_nextValue v).withLog u _).symm⟩⟩)⟩
  · obtain ⟨writes, hw, hlog⟩ := hlogs.of_stop hstop
    exact ⟨writes, hw.leavesPM (leavesPM_raise code), fun log =>
      startCoder_next.2 (.inr ⟨hb, .inr ⟨code, _, hlog log, rfl⟩⟩)⟩

theorem execCodeword_logs (at_ : Engine) (len : Nat) {body : State → Run} {after : State → State}
    (hbody : RunLogs body) (hafter : LeavesPM after) : ExecLogs (execCodeword at_ len body after) := by
  intro s t h
  have hlogs := runLogs_bind (runLogs_skip len) hbody
  obtain ⟨he, ⟨u, hgo, rfl⟩ | ⟨code, u, hstop, rfl⟩⟩ := execCodeword_next.1 h
  · obtain ⟨writes, hw, hlog⟩ := hlogs.of_go hgo
    exact ⟨writes, hw.leavesPM hafter, fun log =>
      execCodeword_next.2 ⟨he, .inl ⟨_, hlog log, (hafter.withLog u _).symm⟩⟩⟩
  · obtain ⟨writes, hw, hlog⟩ := hlogs.of_stop hstop
    exact ⟨writes, hw.leavesPM (leavesPM_raise code), fun log =>
      execCodeword_next.2 ⟨he, .inr ⟨code, _, hlog log, rfl⟩⟩⟩

/-- Every instruction makes the same writes whether they are counted or not. -/
theorem exec_logs (i : Instr) : ExecLogs (exec i) := by
  intro s
  cases i with
  | layout => exact runCommand_logs runLogs_layoutBody s
  | declow => exact startCoder_logs .low (runLogs_bind runLogs_coderChecks (runLogs_go leavesPM_coderInit)) s
  | dechigh =>
    exact startCoder_logs .high
      (runLogs_bind (runLogs_bind runLogs_coderChecks runLogs_highConstants) (runLogs_go leavesPM_coderInit)) s
  | predict => exact runCommand_logs runLogs_predictBody s
  | filt1d => exact runCommand_logs runLogs_filt1dBody s
  | idwt p => exact runCommand_logs (runLogs_idwtBody p) s
  | lvS | lvL | lvX => exact execCodeword_logs _ _ (runLogs_lowValue _) (leavesPM_afterValue .low) s
  | lrS | lrL | lrX => exact execCodeword_logs _ _ (runLogs_zeroRun _) (leavesPM_nextValue .low) s
  | hvS | hvL | hvX => exact execCodeword_logs _ _ (runLogs_highValue _) (leavesPM_afterValue .high) s
  | hrS | hrL | hrX8 | hrX16 =>
    exact execCodeword_logs _ _ (runLogs_zeroRunCapped _) (leavesPM_nextValue .high) s

/-! ### An instruction that the step runs answers a next state -/

/-- Where a coder command stands when a codeword of this kind is due (R102). -/
def engineOfKind : Kind → Engine
  | .lowValue => .value .low
  | .lowRun => .run .low
  | .highValue => .value .high
  | .highRun => .run .high

/-- Where the block stands when this instruction runs: a command starts on an idle block. -/
def engineOf : Instr → Engine
  | .layout | .declow | .dechigh | .predict | .filt1d | .idwt _ => .idle
  | .lvS _ | .lvL _ _ | .lvX _ => .value .low
  | .lrS _ | .lrL _ _ | .lrX _ => .run .low
  | .hvS _ | .hvL _ _ | .hvX _ => .value .high
  | .hrS _ | .hrL _ _ | .hrX8 _ | .hrX16 _ => .run .high

theorem engineOf_decodeCodeword (c : Ctx) (bits : List Bool) :
    engineOf (decodeCodeword c bits) = engineOfKind c.kind := by
  obtain ⟨kind, n, nbits⟩ := c
  unfold decodeCodeword
  simp only
  split_ifs
  · cases kind <;> rfl
  · cases kind <;> rfl
  · cases kind with
    | highRun => unfold escapeForm; simp only; split_ifs <;> rfl
    | _ => rfl

theorem engine_of_ctx {s : State} {c : Ctx} (h : s.ctx = some c) : s.engine = engineOfKind c.kind := by
  unfold State.ctx at h
  split at h
  · cases h
  all_goals obtain rfl := Option.some.inj h; assumption

theorem decodeCommand_isCodeword {w : Word} {i : Instr} (h : decodeCommand w = .ok i) : i.isCodeword = false := by
  unfold decodeCommand at h
  split_ifs at h
  split at h <;> cases h <;> rfl

theorem startCoder_total (v : Variant) (start : State → Run) (s : State) : ∃ t, startCoder v start s = .next t := by
  unfold startCoder
  split
  · exact ⟨_, rfl⟩
  · split <;> exact ⟨_, rfl⟩

theorem execCodeword_total {at_ : Engine} (len : Nat) (body : State → Run) (after : State → State) {s : State}
    (he : s.engine = at_) : ∃ t, execCodeword at_ len body after s = .next t := by
  unfold execCodeword
  rw [if_pos he]
  split <;> exact ⟨_, rfl⟩

/-- A command always answers a next state, and a codeword does where its command waits for it (R102). -/
theorem exec_total {i : Instr} {s : State} (h : i.isCodeword = true → s.engine = engineOf i) :
    ∃ t, exec i s = .next t := by
  cases i with
  | layout | predict | filt1d | idwt => exact runCommand_total _ s
  | declow => rw [exec_declow]; exact startCoder_total _ _ s
  | dechigh => rw [exec_dechigh]; exact startCoder_total _ _ s
  | _ => exact execCodeword_total _ _ _ (h rfl)

/-! ### A reset inside a unit of work (R370, R371; log entry 20) -/

/-- Only what the work does while its writes are counted matters. -/
theorem resetDuring_congr {n : Nat} {work work' : State → Host.Outcome State Fault Refusal} {s : State}
    (h : work (s.withLog (some [])) = work' (s.withLog (some []))) : resetDuring n work s = resetDuring n work' s := by
  have h' : work { s with pmLog := some [] } = work' { s with pmLog := some [] } := h
  rw [resetDuring, resetDuring, h']

theorem resetDuring_next {n : Nat} {work : State → Host.Outcome State Fault Refusal} {s u : State}
    {writes : List (Nat × Sample)} (h : work (s.withLog (some [])) = .next (u.withLog (some writes.reverse))) :
    resetDuring n work s = .next { s.resetBlock with pm := s.pm.replay (writes.take n) } := by
  have h' : work { s with pmLog := some [] } = .next { u with pmLog := some writes.reverse } := h
  simp [resetDuring, h']

theorem step_cmdThenReset {s : State} {w : Word} {n : Nat} {rest : List HostOp} {i : Instr}
    (hhost : s.host = .cmdThenReset w n :: rest) (hi : decodeCommand w = .ok i) :
    step s = resetDuring n (exec i) { s with host := rest } := by
  have hstep : step s = resetDuring n (execCommandWord w) { s with host := rest } := by rw [step, hhost]; rfl
  rw [hstep]
  refine resetDuring_congr ?_
  rw [execCommandWord, hi]

theorem blockStep_of_ctx {s : State} {c : Ctx} (hc : s.ctx = some c) :
    blockStep s = exec (decodeCodeword c s.window) s := by
  rw [blockStep, State.fetch, hc]
  rfl

theorem step_tickThenReset {s : State} {n : Nat} {rest : List HostOp} {c : Ctx}
    (hhost : s.host = .tickThenReset n :: rest) (hc : s.ctx = some c) :
    step s = resetDuring n (exec (decodeCodeword c s.window)) { s with host := rest } := by
  have hstep : step s = resetDuring n blockStep { s with host := rest } := by rw [step, hhost]; rfl
  rw [hstep]
  exact resetDuring_congr (blockStep_of_ctx (s := State.withLog { s with host := rest } (some [])) hc)

/-- Settles O18: the instruction answers a next state and makes the same writes when they are counted; the reset keeps
the first `n` of the count. -/
theorem resetAbandonsCommand : Obligations.ResetAbandonsCommand := by
  intro s i n rest _ hrun
  have hwork : (∃ u, exec i { s with host := rest } = .next u) ∧
      step s = resetDuring n (exec i) { s with host := rest } := by
    obtain ⟨w, hhost, hi⟩ | ⟨c, hhost, hc, rfl⟩ := hrun
    · exact ⟨exec_total (by simp [decodeCommand_isCodeword hi]), step_cmdThenReset hhost hi⟩
    · have he : s.engine = engineOf (decodeCodeword c s.window) := by rw [engine_of_ctx hc, engineOf_decodeCodeword]
      exact ⟨exec_total (fun _ => he), step_tickThenReset hhost hc⟩
  obtain ⟨⟨u, hu⟩, hstep⟩ := hwork
  obtain ⟨writes, hw, hlog⟩ := exec_logs i _ u hu
  have hcount : exec i (State.withLog { s with host := rest } (some [])) =
      .next (u.withLog (some writes.reverse)) := by
    simpa [logWrites] using hlog (some [])
  exact ⟨u, _, writes, hu, hw.pm, hcount, hw.inside, hstep.trans (resetDuring_next hcount), rfl,
    fun a ha => Memory.read_replay_ne _ _ a (fun c hc => (ha c hc).symm)⟩

end Sys2Proof.Machine

/-! SUPPORT. Encoding: bit strings by their bits, the decoder on each form of codeword, command words. -/

namespace Sys2Proof

/-! ### Bit strings, read bit by bit; a missing bit is 0 (R97) -/

theorem getD_drop (bs : List Bool) (k t : Nat) : (bs.drop k).getD t false = bs.getD (k + t) false := by
  simp [List.getD_eq_getElem?_getD, List.getElem?_drop]

theorem length_bitsMSB (n v : Nat) : (bitsMSB n v).length = n := by
  induction n with
  | zero => rfl
  | succ n ih => simp [bitsMSB, ih]

theorem peekBits_succ (n : Nat) (bs : List Bool) :
    peekBits (n + 1) bs = (bs.getD 0 false).toNat * 2 ^ n + peekBits n (bs.drop 1) := by
  cases bs with
  | nil => cases n <;> simp [peekBits]
  | cons b bs => rfl

theorem peekBits_lt (n : Nat) (bs : List Bool) : peekBits n bs < 2 ^ n := by
  induction n generalizing bs with
  | zero => simp [peekBits]
  | succ n ih =>
    have hb : (bs.getD 0 false).toNat * 2 ^ n ≤ 1 * 2 ^ n := Nat.mul_le_mul_right _ (Bool.toNat_le _)
    have hrest := ih (bs.drop 1)
    rw [peekBits_succ, pow_succ]
    omega

theorem peekBits_congr {n : Nat} {bs bs' : List Bool} (h : ∀ t, t < n → bs.getD t false = bs'.getD t false) :
    peekBits n bs = peekBits n bs' := by
  induction n generalizing bs bs' with
  | zero => rfl
  | succ n ih =>
    have htail : peekBits n (bs.drop 1) = peekBits n (bs'.drop 1) :=
      ih (fun t ht => by rw [getD_drop, getD_drop]; exact h _ (by omega))
    rw [peekBits_succ, peekBits_succ, h 0 (by omega), htail]

/-- Writing a number in `n` bits and reading it back. -/
theorem peekBits_bitsMSB_append (n v : Nat) (rest : List Bool) : peekBits n (bitsMSB n v ++ rest) = v % 2 ^ n := by
  induction n with
  | zero => simp [peekBits, Nat.mod_one]
  | succ n ih =>
    rw [bitsMSB, List.cons_append, peekBits, ih, Nat.mod_pow_succ, Nat.toNat_testBit]
    ring

theorem peekBits_bitsMSB_of_lt {n v : Nat} (h : v < 2 ^ n) (rest : List Bool) :
    peekBits n (bitsMSB n v ++ rest) = v := by
  rw [peekBits_bitsMSB_append, Nat.mod_eq_of_lt h]

/-- Bit `t` of a string, counted from the left, is bit `n - 1 - t` of the number its first `n` bits make. -/
theorem testBit_peekBits {n t : Nat} (bs : List Bool) (h : t < n) :
    (peekBits n bs).testBit (n - 1 - t) = bs.getD t false := by
  induction n generalizing bs t with
  | zero => omega
  | succ n ih =>
    rw [peekBits_succ, Nat.mul_comm, Nat.testBit_two_pow_mul_add _ (peekBits_lt n _)]
    cases t with
    | zero => cases bs.getD 0 false <;> simp
    | succ t =>
      have e : n + 1 - 1 - (t + 1) = n - 1 - t := by omega
      rw [if_pos (by omega), e, ih _ (by omega), getD_drop, Nat.add_comm]

theorem getD_bitsMSB {n t : Nat} (v : Nat) (h : t < n) : (bitsMSB n v).getD t false = v.testBit (n - 1 - t) := by
  induction n generalizing t with
  | zero => omega
  | succ n ih =>
    cases t with
    | zero => simp [bitsMSB]
    | succ t =>
      have e : n + 1 - 1 - (t + 1) = n - 1 - t := by omega
      rw [e, ← ih (by omega), bitsMSB, List.getD_cons_succ]

/-- A number of at most 1 has 0 bits before its last one. -/
theorem getD_of_peekBits_le_one {n t : Nat} {bs : List Bool} (h : peekBits n bs ≤ 1) (ht : t + 1 < n) :
    bs.getD t false = false := by
  have hpow : 2 ^ 1 ≤ 2 ^ (n - 1 - t) := Nat.pow_le_pow_right (by omega) (by omega)
  rw [← testBit_peekBits bs (n := n) (by omega)]
  exact Nat.testBit_lt_two_pow (by omega)

theorem peekBits_le_one {n : Nat} {bs : List Bool} (h : ∀ t, t + 1 < n → bs.getD t false = false) :
    peekBits n bs ≤ 1 := by
  cases n with
  | zero => simp [peekBits]
  | succ n =>
    induction n generalizing bs with
    | zero => exact Nat.lt_succ_iff.1 (peekBits_lt 1 bs)
    | succ n ih =>
      have htail := ih (bs := bs.drop 1) (fun t ht => by rw [getD_drop]; exact h _ (by omega))
      rw [peekBits_succ, h 0 (by omega), Bool.toNat_false, Nat.zero_mul, Nat.zero_add]
      exact htail

/-! ### Unary counts (R100) -/

theorem unaryBits_succ (cap : Nat) (bs : List Bool) :
    unaryBits (cap + 1) bs = if bs.getD 0 false then unaryBits cap (bs.drop 1) + 1 else 0 := by
  cases bs with
  | nil => rfl
  | cons b bs => cases b <;> rfl

/-- The count is the number `k` of leading 1 bits: `k` of them, and then a 0 unless `k` is the cap. -/
theorem unaryBits_eq_iff {cap k : Nat} {bs : List Bool} :
    unaryBits cap bs = k ↔
      k ≤ cap ∧ (∀ t, t < k → bs.getD t false = true) ∧ (k < cap → bs.getD k false = false) := by
  induction cap generalizing bs k with
  | zero =>
    simp only [unaryBits, nonpos_iff_eq_zero, Nat.not_lt_zero, false_implies, and_true]
    refine ⟨fun h => ⟨h.symm, fun t ht => by omega⟩, fun h => h.1.symm⟩
  | succ cap ih =>
    rw [unaryBits_succ]
    cases hb : bs.getD 0 false with
    | false =>
      rw [if_neg Bool.false_ne_true]
      refine ⟨?_, fun ⟨_, hones, _⟩ => ?_⟩
      · rintro rfl
        exact ⟨by omega, fun t ht => by omega, fun _ => hb⟩
      · by_contra hk
        exact absurd (hones 0 (by omega)) (by rw [hb]; decide)
    | true =>
      rw [if_pos rfl]
      cases k with
      | zero => exact ⟨fun h => by omega, fun ⟨_, _, hz⟩ => absurd (hz (by omega)) (by rw [hb]; decide)⟩
      | succ k =>
        rw [Nat.succ_inj, ih, Nat.succ_le_succ_iff, Nat.succ_lt_succ_iff]
        simp only [getD_drop, Nat.add_comm 1]
        refine and_congr_right fun _ => and_congr_left fun _ => ⟨fun h t ht => ?_, fun h t ht => h _ (by omega)⟩
        cases t with
        | zero => exact hb
        | succ t => exact h t (by omega)

/-- What the count says of the bits. -/
theorem unaryBits_spec (cap : Nat) (bs : List Bool) :
    unaryBits cap bs ≤ cap ∧ (∀ t, t < unaryBits cap bs → bs.getD t false = true) ∧
      (unaryBits cap bs < cap → bs.getD (unaryBits cap bs) false = false) := unaryBits_eq_iff.1 rfl

theorem unaryBits_replicate {cap k : Nat} (h : k < cap) (rest : List Bool) :
    unaryBits cap (List.replicate k true ++ false :: rest) = k := by
  refine unaryBits_eq_iff.2 ⟨h.le, fun t ht => ?_, fun _ => ?_⟩
  · rw [List.getD_append _ _ _ _ (by simpa using ht)]
    simp [ht]
  · rw [List.getD_append_right _ _ _ _ (by simp)]
    simp

theorem unaryBits_replicate_cap (cap : Nat) (rest : List Bool) :
    unaryBits cap (List.replicate cap true ++ rest) = cap := by
  refine unaryBits_eq_iff.2 ⟨le_refl _, fun t ht => ?_, fun h => by omega⟩
  rw [List.getD_append _ _ _ _ (by simpa using ht)]
  simp [ht]

/-! ### The decoder on each form (R103 to R107) -/

section Forms

variable (c : Ctx) {bits : List Bool} (rest : List Bool)

theorem decodeCodeword_short {k : Nat} (hk : unaryBits c.cap bits = k) (hlt : k < c.cap)
    (hv : peekBits c.n (bits.drop (k + 1)) ≤ 1) : decodeCodeword c bits = shortForm c.kind k := by
  subst hk
  rw [decodeCodeword, if_pos hlt, if_pos hv]

theorem decodeCodeword_long {k v : Nat} (hk : unaryBits c.cap bits = k) (hlt : k < c.cap)
    (hv : peekBits c.n (bits.drop (k + 1)) = v) (h2 : 2 ≤ v) : decodeCodeword c bits = longForm c.kind k v := by
  subst hk hv
  rw [decodeCodeword, if_pos hlt, if_neg (by omega)]

theorem decodeCodeword_escape (hk : unaryBits c.cap bits = c.cap) :
    decodeCodeword c bits = escapeForm c (bits.drop c.cap) := by
  rw [decodeCodeword, if_neg (by omega)]

theorem drop_after_terminator (k : Nat) (ys : List Bool) :
    (List.replicate k true ++ false :: ys).drop (k + 1) = ys := by
  rw [List.drop_append]
  simp

theorem decodeCodeword_shortBits {k : Nat} (hk : k < c.cap) :
    decodeCodeword c (shortBits c.n k ++ rest) = shortForm c.kind k := by
  rw [shortBits, List.append_assoc, List.cons_append]
  refine decodeCodeword_short c (unaryBits_replicate hk _) hk ?_
  rw [drop_after_terminator]
  refine peekBits_le_one (fun t ht => ?_)
  rw [List.getD_append _ _ _ _ (by simp; omega)]
  simp

theorem decodeCodeword_longBits {k v : Nat} (hk : k < c.cap) (h2 : 2 ≤ v) (hv : v ≤ c.mask) :
    decodeCodeword c (longBits c.n k v ++ rest) = longForm c.kind k v := by
  have hlt : v < 2 ^ c.n := by
    have := Nat.two_pow_pos c.n
    rw [Ctx.mask] at hv
    omega
  rw [longBits, List.append_assoc, List.cons_append]
  refine decodeCodeword_long c (unaryBits_replicate hk _) hk ?_ h2
  rw [drop_after_terminator, peekBits_bitsMSB_of_lt hlt]

theorem decodeCodeword_escapeBits (payload : List Bool) :
    decodeCodeword c (escapeBits c.cap payload ++ rest) = escapeForm c (payload ++ rest) := by
  rw [escapeBits, List.append_assoc, decodeCodeword_escape c (unaryBits_replicate_cap _ _)]
  congr 1
  rw [List.drop_append]
  simp

end Forms

theorem length_shortBits {n : Nat} (k : Nat) (hn : 1 ≤ n) : (shortBits n k).length = k + n := by
  simp only [shortBits, List.length_append, List.length_cons, List.length_replicate]
  omega

theorem length_longBits (n k v : Nat) : (longBits n k v).length = k + 1 + n := by
  simp only [longBits, List.length_append, List.length_cons, List.length_replicate, length_bitsMSB]
  omega

theorem length_escapeBits (cap : Nat) (payload : List Bool) : (escapeBits cap payload).length = cap + payload.length := by
  simp [escapeBits]

/-- What a short form of a context needs (R103). -/
theorem admitsShort_iff {c : Ctx} {kind : Kind} {k : Nat} : c.admitsShort kind k = true ↔ c.kind = kind ∧ k < c.cap := by
  simp [Ctx.admitsShort]

/-- What a long form of a context needs (R103). -/
theorem admitsLong_iff {c : Ctx} {kind : Kind} {k v : Nat} :
    c.admitsLong kind k v = true ↔ c.kind = kind ∧ k < c.cap ∧ 2 ≤ v ∧ v ≤ c.mask := by
  simp [Ctx.admitsLong, and_assoc]

/-- What `DecodeEncodeRoundTrip` says of one encoding. -/
def RoundTrips (c : Ctx) (i : Instr) (rest : List Bool) : Words → Prop
  | .command w => decodeCommand w = .ok i
  | .stream bits => bits.length = i.bitLength c ∧ decodeCodeword c (bits ++ rest) = i

section RoundTrip

variable {c : Ctx} (hc : c.wf = true) (rest : List Bool)

include hc in
theorem roundTrips_short {kind : Kind} {k : Nat} (h : c.admitsShort kind k = true) :
    (shortBits c.n k).length = k + c.n ∧ decodeCodeword c (shortBits c.n k ++ rest) = shortForm kind k := by
  obtain ⟨rfl, hk⟩ := admitsShort_iff.1 h
  obtain ⟨hn, -, -⟩ := Laws.Length.bounds hc
  exact ⟨length_shortBits k hn, decodeCodeword_shortBits c rest hk⟩

theorem roundTrips_long {kind : Kind} {k v : Nat} (h : c.admitsLong kind k v = true) :
    (longBits c.n k v).length = k + 1 + c.n ∧ decodeCodeword c (longBits c.n k v ++ rest) = longForm kind k v := by
  obtain ⟨rfl, hk, h2, hv⟩ := admitsLong_iff.1 h
  exact ⟨length_longBits c.n k v, decodeCodeword_longBits c rest hk h2 hv⟩

theorem roundTrips_escape {cap : Nat} (hcap : c.cap = cap) {payload : List Bool} {len : Nat} {i : Instr}
    (hlen : cap + payload.length = len) (hi : escapeForm c (payload ++ rest) = i) :
    (escapeBits cap payload).length = len ∧ decodeCodeword c (escapeBits cap payload ++ rest) = i := by
  subst hcap
  exact ⟨(length_escapeBits _ _).trans hlen, (decodeCodeword_escapeBits c rest payload).trans hi⟩

theorem ofNat_peekBits_bitsMSB {m : Nat} (e : BitVec m) :
    BitVec.ofNat m (peekBits m (bitsMSB m e.toNat ++ rest)) = e := by
  rw [peekBits_bitsMSB_of_lt e.isLt, BitVec.ofNat_toNat, BitVec.setWidth_eq]

theorem roundTrips_command {i : Instr} (h : i.isCodeword = false) : RoundTrips c i rest (encode c i) := by
  cases i with
  | idwt p => cases p <;> rfl
  | layout | declow | dechigh | predict | filt1d => rfl
  | _ => cases h

include hc in
/-- Every form lies on the branch of the decoder that gives it back. -/
theorem roundTrips_encode {i : Instr} (h : i.wf c = true) : RoundTrips c i rest (encode c i) := by
  cases i with
  | layout | declow | dechigh | predict | filt1d | idwt => exact roundTrips_command rest rfl
  | lvS | lrS | hvS | hrS => exact roundTrips_short hc rest h
  | lvL | lrL | hvL | hrL => exact roundTrips_long rest h
  | lvX e =>
    have hkind : c.kind = .lowValue := by simpa [Instr.wf] using h
    refine roundTrips_escape rest (by simp [Ctx.cap, hkind]) (by rw [length_bitsMSB]; rfl) ?_
    simp [escapeForm, hkind, ofNat_peekBits_bitsMSB]
  | lrX r =>
    have hkind : c.kind = .lowRun := by simpa [Instr.wf] using h
    refine roundTrips_escape rest (by simp [Ctx.cap, hkind]) (by rw [length_bitsMSB]; rfl) ?_
    simp [escapeForm, hkind, ofNat_peekBits_bitsMSB]
  | hvX e =>
    obtain ⟨hkind, he⟩ : c.kind = .highValue ∧ e < 2 ^ c.nbits := by simpa [Instr.wf] using h
    obtain ⟨-, hnbits⟩ : ((1 ≤ c.n ∧ c.n ≤ 14) ∧ 1 ≤ c.nbits) ∧ c.nbits ≤ 16 := by simpa [Ctx.wf, hkind] using hc
    refine roundTrips_escape rest (by simp [Ctx.cap, hkind]) ?_ ?_
    · rw [length_bitsMSB]; simp only [Instr.bitLength, Config.highTotal]; omega
    · simp [escapeForm, hkind, peekBits_bitsMSB_of_lt he]
  | hrX8 u =>
    have hkind : c.kind = .highRun := by simpa [Instr.wf] using h
    refine roundTrips_escape rest (by simp [Ctx.cap, hkind]) (by rw [List.length_cons, length_bitsMSB]; rfl) ?_
    simp [escapeForm, hkind, peekBits, ofNat_peekBits_bitsMSB]
  | hrX16 u =>
    have hkind : c.kind = .highRun := by simpa [Instr.wf] using h
    refine roundTrips_escape rest (by simp [Ctx.cap, hkind]) (by rw [List.length_cons, length_bitsMSB]; rfl) ?_
    simp [escapeForm, hkind, peekBits, ofNat_peekBits_bitsMSB]

end RoundTrip

/-- Settles O1: `RoundTrips` is the statement's own case distinction. -/
theorem decodeEncodeRoundTrip : Obligations.DecodeEncodeRoundTrip :=
  fun _ _ rest hc h => roundTrips_encode hc rest h

/-! ### Every bit string begins with a codeword (R107, R108) -/

/-- The string, continued by 0 bits, begins with these bits. -/
def BeginsWith (bits enc : List Bool) : Prop := ∀ t, t < enc.length → enc.getD t false = bits.getD t false

theorem beginsWith_append {bits xs ys : List Bool} (hx : BeginsWith bits xs)
    (hy : BeginsWith (bits.drop xs.length) ys) : BeginsWith bits (xs ++ ys) := by
  intro t ht
  rcases Nat.lt_or_ge t xs.length with h | h
  · rw [List.getD_append _ _ _ _ h, hx t h]
  · have ht' := hy (t - xs.length) (by rw [List.length_append] at ht; omega)
    rw [List.getD_append_right _ _ _ _ h, ht', getD_drop, Nat.add_sub_cancel' h]

theorem beginsWith_replicate {bits : List Bool} {n : Nat} {b : Bool} (h : ∀ t, t < n → bits.getD t false = b) :
    BeginsWith bits (List.replicate n b) := by
  intro t ht
  have ht' : t < n := by simpa using ht
  rw [h t ht']
  simp [ht']

theorem beginsWith_cons {bits ys : List Bool} {b : Bool} (hb : bits.getD 0 false = b)
    (hy : BeginsWith (bits.drop 1) ys) : BeginsWith bits (b :: ys) :=
  beginsWith_append (xs := [b]) (fun t ht => by
    obtain rfl : t = 0 := by simpa using ht
    exact hb.symm) hy

/-- A string begins with the digits of the number its first bits make. -/
theorem beginsWith_bitsMSB (n : Nat) (bits : List Bool) : BeginsWith bits (bitsMSB n (peekBits n bits)) := by
  intro t ht
  rw [length_bitsMSB] at ht
  rw [getD_bitsMSB _ ht, testBit_peekBits _ ht]

theorem beginsWith_ofNat_peekBits (m : Nat) (bits : List Bool) :
    BeginsWith bits (bitsMSB m (BitVec.ofNat m (peekBits m bits)).toNat) := by
  rw [BitVec.toNat_ofNat, Nat.mod_eq_of_lt (peekBits_lt m bits)]
  exact beginsWith_bitsMSB m bits

theorem encode_shortForm (c : Ctx) (kind : Kind) (k : Nat) :
    encode c (shortForm kind k) = .stream (shortBits c.n k) := by cases kind <;> rfl

theorem encode_longForm (c : Ctx) (kind : Kind) (k v : Nat) :
    encode c (longForm kind k v) = .stream (longBits c.n k v) := by cases kind <;> rfl

theorem wf_shortForm (c : Ctx) (kind : Kind) (k : Nat) : (shortForm kind k).wf c = c.admitsShort kind k := by
  cases kind <;> rfl

theorem wf_longForm (c : Ctx) (kind : Kind) (k v : Nat) : (longForm kind k v).wf c = c.admitsLong kind k v := by
  cases kind <;> rfl

/-- A codeword of the context whose encoding the string begins with. -/
structure IsFirstCodeword (c : Ctx) (bits : List Bool) (i : Instr) : Prop where
  wf : i.wf c = true
  isCodeword : i.isCodeword = true
  begins : ∃ enc, encode c i = .stream enc ∧ BeginsWith bits enc

section First

variable {c : Ctx} {bits : List Bool}

theorem isFirstCodeword_short {k : Nat} (hk : k < c.cap) (hones : BeginsWith bits (List.replicate k true))
    (hzero : bits.getD k false = false) (hv : peekBits c.n (bits.drop (k + 1)) ≤ 1) :
    IsFirstCodeword c bits (shortForm c.kind k) where
  wf := (wf_shortForm c c.kind k).trans (admitsShort_iff.2 ⟨rfl, hk⟩)
  isCodeword := by cases c.kind <;> rfl
  begins := by
    refine ⟨_, encode_shortForm c c.kind k, beginsWith_append hones ?_⟩
    rw [List.length_replicate]
    refine beginsWith_cons (by rwa [getD_drop]) (beginsWith_replicate (fun t ht => ?_))
    rw [List.drop_drop]
    exact getD_of_peekBits_le_one hv (by omega)

theorem isFirstCodeword_long {k : Nat} (hk : k < c.cap) (hones : BeginsWith bits (List.replicate k true))
    (hzero : bits.getD k false = false) (hv : 2 ≤ peekBits c.n (bits.drop (k + 1))) :
    IsFirstCodeword c bits (longForm c.kind k (peekBits c.n (bits.drop (k + 1)))) where
  wf := by
    have hlt := peekBits_lt c.n (bits.drop (k + 1))
    rw [wf_longForm]
    exact admitsLong_iff.2 ⟨rfl, hk, hv, by rw [Ctx.mask]; omega⟩
  isCodeword := by cases c.kind <;> rfl
  begins := by
    refine ⟨_, encode_longForm c c.kind k _, beginsWith_append hones ?_⟩
    rw [List.length_replicate]
    refine beginsWith_cons (by rwa [getD_drop]) ?_
    rw [List.drop_drop]
    exact beginsWith_bitsMSB _ _

theorem getD_zero_of_peekBits_one (bs : List Bool) : bs.getD 0 false = decide (peekBits 1 bs = 1) := by
  rw [peekBits_succ]
  cases bs.getD 0 false <;> simp [peekBits]

theorem isFirstCodeword_escape (hones : BeginsWith bits (List.replicate c.cap true)) :
    IsFirstCodeword c bits (escapeForm c (bits.drop c.cap)) := by
  have hbegins : ∀ payload, BeginsWith (bits.drop c.cap) payload → BeginsWith bits (escapeBits c.cap payload) :=
    fun payload h => beginsWith_append hones (by rwa [List.length_replicate])
  cases hkind : c.kind with
  | lowValue =>
    rw [show c.cap = Config.shortCap by simp [Ctx.cap, hkind]] at hbegins ⊢
    rw [escapeForm, hkind]
    exact ⟨by simp [Instr.wf, hkind], rfl, _, rfl, hbegins _ (beginsWith_ofNat_peekBits 16 _)⟩
  | lowRun =>
    rw [show c.cap = Config.shortCap by simp [Ctx.cap, hkind]] at hbegins ⊢
    rw [escapeForm, hkind]
    exact ⟨by simp [Instr.wf, hkind], rfl, _, rfl, hbegins _ (beginsWith_ofNat_peekBits 16 _)⟩
  | highValue =>
    rw [show c.cap = Config.highTotal - c.nbits by simp [Ctx.cap, hkind]] at hbegins ⊢
    rw [escapeForm, hkind]
    exact ⟨by simp [Instr.wf, hkind, peekBits_lt], rfl, _, rfl, hbegins _ (beginsWith_bitsMSB _ _)⟩
  | highRun =>
    rw [show c.cap = Config.shortCap by simp [Ctx.cap, hkind]] at hbegins ⊢
    rw [escapeForm, hkind]
    have hselector := getD_zero_of_peekBits_one (bits.drop Config.shortCap)
    dsimp only
    split_ifs with h
    · exact ⟨by simp [Instr.wf, hkind], rfl, _, rfl,
        hbegins _ (beginsWith_cons (by simpa [h] using hselector) (beginsWith_ofNat_peekBits 16 _))⟩
    · exact ⟨by simp [Instr.wf, hkind], rfl, _, rfl,
        hbegins _ (beginsWith_cons (by simpa [h] using hselector) (beginsWith_ofNat_peekBits 8 _))⟩

/-- What the decoder reads is a codeword the string begins with. -/
theorem isFirstCodeword_decodeCodeword (c : Ctx) (bits : List Bool) :
    IsFirstCodeword c bits (decodeCodeword c bits) := by
  obtain ⟨hle, hones, hzero⟩ := unaryBits_spec c.cap bits
  have hbegins := beginsWith_replicate hones
  rcases hle.lt_or_eq with hlt | hcap
  · rcases Nat.lt_or_ge 1 (peekBits c.n (bits.drop (unaryBits c.cap bits + 1))) with hv | hv
    · rw [decodeCodeword_long c rfl hlt rfl hv]
      exact isFirstCodeword_long hlt hbegins (hzero hlt) hv
    · rw [decodeCodeword_short c rfl hlt hv]
      exact isFirstCodeword_short hlt hbegins (hzero hlt) hv
  · rw [decodeCodeword_escape c hcap]
    exact isFirstCodeword_escape (hcap ▸ hbegins)

end First

/-- The decoder reads no more than the bits, missing ones as 0 (R97). -/
theorem decodeCodeword_congr (c : Ctx) {bits bits' : List Bool} (h : ∀ t, bits.getD t false = bits'.getD t false) :
    decodeCodeword c bits = decodeCodeword c bits' := by
  have hpeek : ∀ n k, peekBits n (bits.drop k) = peekBits n (bits'.drop k) :=
    fun n k => peekBits_congr (fun t _ => by rw [getD_drop, getD_drop, h])
  have hunary : unaryBits c.cap bits = unaryBits c.cap bits' := by
    obtain ⟨hle, hones, hzero⟩ := unaryBits_spec c.cap bits'
    exact unaryBits_eq_iff.2 ⟨hle, fun t ht => by rw [h, hones t ht], fun hlt => by rw [h, hzero hlt]⟩
  simp only [decodeCodeword, escapeForm, hunary, hpeek, List.drop_drop]

/-- Settles O2: the decoder's answer is a codeword the string begins with, and any such codeword is what the decoder
reads off its encoding. -/
theorem everyBitStringDecodes : Obligations.EveryBitStringDecodes := by
  intro c bits hc
  obtain ⟨hwf, hcode, hbegins⟩ := isFirstCodeword_decodeCodeword c bits
  refine ⟨hwf, hcode, hbegins, fun i enc hi henc heq => ?_⟩
  have hrt := roundTrips_encode hc (bits.drop enc.length) hi
  rw [henc] at hrt
  obtain ⟨-, hdecode⟩ := hrt
  rw [← hdecode]
  refine decodeCodeword_congr c (fun t => ?_)
  rcases Nat.lt_or_ge t enc.length with h | h
  · rw [List.getD_append _ _ _ _ h, heq t h]
  · rw [List.getD_append_right _ _ _ _ h, getD_drop, Nat.add_sub_cancel' h]

/-! ### Sample words and command words (R92, R94) -/

/-- Settles O4: six words to evaluate. -/
theorem sampleWordsDecode : Obligations.SampleWordsDecode := by
  unfold Obligations.SampleWordsDecode
  decide

theorem exists_plane {P : Plane → Prop} : (∃ p, P p) ↔ P .y ∨ P .u ∨ P .v := by
  refine ⟨?_, ?_⟩
  · rintro ⟨_ | _ | _, h⟩
    · exact .inl h
    · exact .inr (.inl h)
    · exact .inr (.inr h)
  · rintro (h | h | h)
    · exact ⟨_, h⟩
    · exact ⟨_, h⟩
    · exact ⟨_, h⟩

theorem forall_plane {P : Plane → Prop} : (∀ p, P p) ↔ P .y ∧ P .u ∧ P .v := by
  refine ⟨fun h => ⟨h _, h _, h _⟩, ?_⟩
  rintro ⟨hy, hu, hv⟩ (_ | _ | _)
  · exact hy
  · exact hu
  · exact hv

/-- Does a word select a command? -/
def selects (w : BitVec 32) : Bool :=
  match decodeCommand w with
  | .ok _ => true
  | .error _ => false

theorem selects_eq_false_iff {w : BitVec 32} : selects w = false ↔ ∀ i, decodeCommand w ≠ .ok i := by
  unfold selects
  cases decodeCommand w <;> simp

/-- A word with its reserved bits 0 is made of its opcode and its plane (R91). -/
theorem eq_commandWord {w : BitVec 32} (h : w.extractLsb' 6 26 = 0#26) :
    w = commandWord (w.extractLsb' 0 4) (w.extractLsb' 4 2) := by
  have h' := congrArg BitVec.toNat h
  refine BitVec.eq_of_toNat_eq ?_
  simp only [commandWord, BitVec.toNat_append, BitVec.extractLsb'_toNat, Nat.shiftRight_eq_div_pow,
    BitVec.toNat_ofNat, ← Nat.shiftLeft_add_eq_or_of_lt (Nat.mod_lt _ (Nat.two_pow_pos _))] at h' ⊢
  simp only [Nat.shiftLeft_eq]
  omega

/-- A word with a reserved bit set selects nothing, and no row of the table matches it (R94). -/
theorem ne_of_reserved {w mask : BitVec 32} {row : BitVec 32} (h : w.extractLsb' 6 26 ≠ 0#26)
    (hmask : mask.extractLsb' 6 26 = BitVec.allOnes 26) (hrow : row.extractLsb' 6 26 = 0#26) : w &&& mask ≠ row := by
  rintro rfl
  refine h ?_
  rw [BitVec.extractLsb'_and, hmask, BitVec.and_allOnes] at hrow
  exact hrow

/-- Settles O3: with a reserved bit set nothing is selected or matched; without, the word is made of one of the 64
pairs of an opcode and a plane. -/
theorem commandWordTable : Obligations.CommandWordTable := by
  intro w
  rw [← selects_eq_false_iff, exists_plane, forall_plane]
  by_cases h : w.extractLsb' 6 26 = 0#26
  · rw [eq_commandWord h]
    generalize w.extractLsb' 0 4 = op, w.extractLsb' 4 2 = plane
    revert op plane
    decide +kernel
  · have herr : decodeCommand w = .error (.illegalCommand w) := if_neg h
    simp [herr, selects, h, ne_of_reserved h]

end Sys2Proof

namespace Sys2Proof.Machine

/-! ### The suffix widths (R106, R165) -/

theorem log2_eq {x m : Nat} (hlow : 2 ^ m ≤ x) (hhigh : x < 2 ^ (m + 1)) : Nat.log2 x = m := by
  have hpos := Nat.two_pow_pos m
  exact (Nat.log2_eq_iff (by omega)).2 ⟨hlow, hhigh⟩

/-- The value width between two thresholds of R165. -/
theorem valueWidth_eq {st m : Nat} (hm : 1 ≤ m) (hm' : m ≤ 13) (hlow : 256 * (2 ^ m - 3) ≤ st)
    (hhigh : st < 256 * (2 ^ (m + 1) - 3)) : valueWidth st = m := by
  have hpow : 2 ^ 1 ≤ 2 ^ m := Nat.pow_le_pow_right (by omega) hm
  have hlog : Nat.log2 (st / 256 + 3) = m := by
    rw [pow_succ] at hhigh
    exact log2_eq (by omega) (by rw [pow_succ]; omega)
  rw [valueWidth, hlog, Config.widthMax]
  omega

theorem valueWidth_of_ge {st : Nat} (h : 4193536 ≤ st) : valueWidth st = 14 := by
  have hlog : 14 ≤ Nat.log2 (st / 256 + 3) := (Nat.le_log2 (by omega)).2 (by omega)
  rw [valueWidth, Config.widthMax]
  omega

/-- Settles O5: 64 values to evaluate, and the interval of each logarithm. -/
theorem suffixWidths : Obligations.SuffixWidths := by
  refine ⟨?_, fun st m hm hm' hlow hhigh => valueWidth_eq hm hm' hlow hhigh, fun st h => valueWidth_of_ge h⟩
  decide +kernel

/-- The widths of R106 for values. -/
theorem valueWidth_bounds (st : Nat) : 1 ≤ valueWidth st ∧ valueWidth st ≤ 14 := by
  have hlog : 1 ≤ Nat.log2 (st / 256 + 3) := (Nat.le_log2 (by omega)).2 (by omega)
  rw [valueWidth, Config.widthMax]
  omega

/-- The widths of R106 for runs, which are read at a `state` of at most 63. -/
theorem runWidth_bounds {st : Nat} (h : st ≤ 63) : 3 ≤ runWidth st ∧ runWidth st ≤ 8 := by
  revert st
  decide +kernel

/-! ### The bit reader, a piece at a time (R96 to R100) -/

/-- The state with the bit cursor elsewhere. -/
def State.withPos (s : State) (pos : Nat) : State := { s with work := { s.work with pos := pos } }

@[simp] theorem withPos_pos (s : State) (p : Nat) : (s.withPos p).work.pos = p := rfl

@[simp] theorem withPos_limit (s : State) (p : Nat) : (s.withPos p).limit = s.limit := rfl

@[simp] theorem withPos_withPos (s : State) (p q : Nat) : (s.withPos p).withPos q = s.withPos q := rfl

/-- The stream does not depend on the cursor. -/
theorem withPos_bit (s : State) (p k : Nat) : (s.withPos p).bit k = s.bit k := rfl

theorem withPos_bitsFrom (s : State) (p q n : Nat) : (s.withPos p).bitsFrom q n = s.bitsFrom q n := rfl

theorem getD_bitsFrom (s : State) (p : Nat) {n t : Nat} (h : t < n) :
    (s.bitsFrom p n).getD t false = s.bit (p + t) := by
  simp [State.bitsFrom, h]

theorem bitsFrom_succ (s : State) (p n : Nat) : s.bitsFrom p (n + 1) = s.bit p :: s.bitsFrom (p + 1) n := by
  simp [State.bitsFrom, List.range_succ_eq_map, Function.comp_def, Nat.add_assoc, Nat.add_comm 1]

/-- Peeking after the first `k` bits of the window reads on in the window. -/
theorem peek_withPos (s : State) {k n : Nat} (h : k + n ≤ fetchBits) :
    (s.withPos (s.work.pos + k)).peek n = peekBits n (s.window.drop k) := by
  refine peekBits_congr (fun t ht => ?_)
  rw [getD_drop, State.window, getD_bitsFrom _ _ ht, getD_bitsFrom _ _ (by omega), withPos_bit, withPos_pos,
    Nat.add_assoc]

/-- `r` reads `len` bits at the cursor of `s` and goes on with `k`; where they do not fit, it raises
`ID_BITS_EXHAUSTED` with nothing but the cursor changed. -/
def Reads (s : State) (len : Nat) (r : Run) (k : State → Run) : Prop :=
  (s.work.pos + len ≤ s.limit → r = k (s.withPos (s.work.pos + len))) ∧
  (s.limit < s.work.pos + len → ∃ p, r = .stop .idBitsExhausted (s.withPos p))

theorem reads_skip (s : State) (n : Nat) (k : State → Run) : Reads s n ((skip n s).bind k) k := by
  obtain ⟨h, e⟩ | ⟨h, e⟩ := skip_cases n s <;> rw [e]
  · exact ⟨fun _ => rfl, fun h' => by omega⟩
  · exact ⟨fun h' => by omega, fun _ => ⟨s.work.pos, rfl⟩⟩

/-- One piece and then another. -/
theorem Reads.trans {s : State} {a b : Nat} {r : Run} {k k' : State → Run} (h : Reads s a r k)
    (h' : s.work.pos + a ≤ s.limit → Reads (s.withPos (s.work.pos + a)) b (k (s.withPos (s.work.pos + a))) k') :
    Reads s (a + b) r k' := by
  refine ⟨fun hfit => ?_, fun hover => ?_⟩
  · rw [h.1 (by omega), (h' (by omega)).1 (by simpa [Nat.add_assoc] using hfit)]
    simp [Nat.add_assoc]
  · rcases Nat.lt_or_ge s.limit (s.work.pos + a) with hlt | hge
    · exact h.2 hlt
    · obtain ⟨p, hp⟩ := (h' hge).2 (by simpa [Nat.add_assoc] using hover)
      exact ⟨p, by rw [h.1 hge, hp]; rfl⟩

/-- The bits a unary count takes: the terminating 0 is among them unless the count is the cap (R100). -/
def unaryLength (cap count : Nat) : Nat := if count < cap then count + 1 else cap

theorem peek_one (s : State) : s.peek 1 = (s.bit s.work.pos).toNat := by
  simp [State.peek, State.bitsFrom, peekBits]

/-- `unary` gives the count of the decoder, where the cursor is within the limit or there is a bit to read. -/
theorem reads_unary {cap m : Nat} (hm : cap ≤ m) (cnt : Nat) (k : Nat → State → Run) (s : State)
    (hs : s.work.pos ≤ s.limit ∨ cap ≠ 0) :
    Reads s (unaryLength cap (unaryBits cap (s.bitsFrom s.work.pos m))) (unary cap cnt k s)
      (k (cnt + unaryBits cap (s.bitsFrom s.work.pos m))) := by
  induction cap generalizing m cnt s with
  | zero => exact ⟨fun _ => rfl, fun h => by simp [unaryLength, unaryBits] at h; omega⟩
  | succ cap ih =>
    obtain ⟨m, rfl⟩ : ∃ m', m = m' + 1 := ⟨m - 1, by omega⟩
    rw [bitsFrom_succ]
    have hread := reads_skip s 1 (fun u => if s.peek 1 = 0 then k cnt u else unary cap (cnt + 1) k u)
    cases hb : s.bit s.work.pos with
    | false =>
      have hpeek : s.peek 1 = 0 := by rw [peek_one, hb]; rfl
      simp only [hpeek, if_true] at hread
      simpa [unaryBits, unaryLength, unary, readBits, hpeek] using hread
    | true =>
      have hpeek : ¬s.peek 1 = 0 := by rw [peek_one, hb]; decide
      simp only [hpeek, if_false] at hread
      have hnext := hread.trans (fun hle => ih (m := m) (by omega) (cnt + 1) (s.withPos (s.work.pos + 1)) (.inl hle))
      simp only [withPos_pos, withPos_bitsFrom] at hnext
      have hlen : 1 + unaryLength cap (unaryBits cap (s.bitsFrom (s.work.pos + 1) m)) =
          unaryLength (cap + 1) (unaryBits cap (s.bitsFrom (s.work.pos + 1) m) + 1) := by
        simp only [unaryLength, Nat.succ_lt_succ_iff]
        split_ifs <;> omega
      simp only [unary, readBits, hpeek, if_false, unaryBits]
      rwa [hlen, Nat.add_right_comm, Nat.add_assoc] at hnext

/-! ### The reader of a codeword agrees with the decoder (R179, R220) -/

theorem bitLength_shortForm (c : Ctx) (k : Nat) : (shortForm c.kind k).bitLength c = k + c.n := by
  cases c.kind <;> rfl

theorem bitLength_longForm (c : Ctx) (k v : Nat) : (longForm c.kind k v).bitLength c = k + 1 + c.n := by
  cases c.kind <;> rfl

/-- An escape form, read after the capped ones (R103). -/
def readEscape (c : Ctx) (fin : Instr → State → Run) (s : State) : Run :=
  match c.kind with
  | .lowValue => readBits 16 (fun e => fin (.lvX (BitVec.ofNat 16 e))) s
  | .lowRun => readBits 16 (fun e => fin (.lrX (BitVec.ofNat 16 e))) s
  | .highValue => readBits c.nbits (fun e => fin (.hvX e)) s
  | .highRun =>
    readBits 1
      (fun b s =>
        if b = 1 then readBits 16 (fun u => fin (.hrX16 (BitVec.ofNat 16 u))) s
        else readBits 8 (fun u => fin (.hrX8 (BitVec.ofNat 8 u))) s) s

theorem readCodeword_eq (c : Ctx) (fin : Instr → State → Run) (s : State) :
    readCodeword c fin s =
      unary c.cap 0
        (fun k s =>
          if k < c.cap then
            if s.peek c.n ≤ 1 then (skip (c.n - 1) s).bind (fin (shortForm c.kind k))
            else (skip c.n s).bind (fin (longForm c.kind k (s.peek c.n)))
          else readEscape c fin s) s := rfl

theorem cap_le {c : Ctx} (hc : c.wf = true) : c.cap ≤ 24 ∧ c.cap ≠ 0 := by
  obtain ⟨kind, n, nbits⟩ := c
  cases kind <;> simp [Ctx.wf, Ctx.cap, Config.shortCap, Config.highTotal] at hc ⊢
  omega

/-- Reading `n` bits after the first `k` bits of the window. -/
theorem reads_readBits (s : State) {k n : Nat} (h : k + n ≤ fetchBits) (fin : Nat → State → Run) :
    Reads (s.withPos (s.work.pos + k)) n (readBits n fin (s.withPos (s.work.pos + k)))
      (fin (peekBits n (s.window.drop k))) := by
  rw [readBits, peek_withPos s h]
  exact reads_skip _ n _

/-- The escape forms: their payload, and for a high run its selector bit before it. -/
theorem reads_escape {c : Ctx} (hc : c.wf = true) (fin : Instr → State → Run) (s : State) :
    ∃ len, c.cap + len = (escapeForm c (s.window.drop c.cap)).bitLength c ∧
      Reads (s.withPos (s.work.pos + c.cap)) len (readEscape c fin (s.withPos (s.work.pos + c.cap)))
        (fin (escapeForm c (s.window.drop c.cap))) := by
  unfold readEscape escapeForm
  cases hkind : c.kind with
  | lowValue | lowRun =>
    have hcap : c.cap = 8 := by simp [Ctx.cap, hkind, Config.shortCap]
    exact ⟨16, by rw [hcap]; rfl, reads_readBits s (by rw [hcap]; decide) _⟩
  | highValue =>
    have hcap : c.cap = 25 - c.nbits := by simp [Ctx.cap, hkind, Config.highTotal]
    obtain ⟨-, hn⟩ : ((1 ≤ c.n ∧ c.n ≤ 14) ∧ 1 ≤ c.nbits) ∧ c.nbits ≤ 16 := by simpa [Ctx.wf, hkind] using hc
    exact ⟨c.nbits, by rw [hcap]; simp only [Instr.bitLength, Config.highTotal]; omega,
      reads_readBits s (by rw [hcap, fetchBits]; omega) _⟩
  | highRun =>
    have hcap : c.cap = 8 := by simp [Ctx.cap, hkind, Config.shortCap]
    have hselector := reads_readBits s (k := c.cap) (n := 1) (by rw [hcap]; decide)
      (fun b u => if b = 1 then readBits 16 (fun v => fin (.hrX16 (BitVec.ofNat 16 v))) u
        else readBits 8 (fun v => fin (.hrX8 (BitVec.ofNat 8 v))) u)
    have hpayload : ∀ n (fin : Nat → State → Run), n ≤ 16 →
        Reads (s.withPos (s.work.pos + (c.cap + 1))) n (readBits n fin (s.withPos (s.work.pos + (c.cap + 1))))
          (fin (peekBits n ((s.window.drop c.cap).drop 1))) := fun n fin hn => by
      rw [List.drop_drop]
      exact reads_readBits s (by rw [hcap, fetchBits]; omega) fin
    dsimp only
    split_ifs with hbit
    · refine ⟨1 + 16, by rw [hcap]; rfl, hselector.trans (fun _ => ?_)⟩
      simp only [hbit, if_true]
      exact hpayload 16 _ (by omega)
    · refine ⟨1 + 8, by rw [hcap]; rfl, hselector.trans (fun _ => ?_)⟩
      simp only [hbit, if_false]
      exact hpayload 8 _ (by omega)

/-- The reader of a codeword takes the bits of the codeword the decoder reads, and goes on with it. -/
theorem reads_readCodeword {c : Ctx} (hc : c.wf = true) (fin : Instr → State → Run) (s : State) :
    Reads s ((decodeCodeword c s.window).bitLength c) (readCodeword c fin s) (fin (decodeCodeword c s.window)) := by
  obtain ⟨hcap, hcap0⟩ := cap_le hc
  obtain ⟨hn, hn14, -⟩ := Laws.Length.bounds hc
  have hunary : Reads s (unaryLength c.cap (unaryBits c.cap s.window)) _ _ :=
    readCodeword_eq c fin s ▸ reads_unary (m := fetchBits) (by rw [fetchBits]; omega) 0 _ s (.inr hcap0)
  have hwindow : s.bitsFrom s.work.pos fetchBits = s.window := rfl
  rw [hwindow, Nat.zero_add] at hunary
  generalize hk : unaryBits c.cap s.window = k at hunary
  rcases Nat.lt_or_ge k c.cap with hlt | hge
  · rw [unaryLength, if_pos hlt] at hunary
    simp only [hlt, if_true] at hunary
    have hpeek := peek_withPos s (k := k + 1) (n := c.n) (by rw [fetchBits]; omega)
    rcases Nat.lt_or_ge 1 (peekBits c.n (s.window.drop (k + 1))) with hv | hv
    · rw [decodeCodeword_long c hk hlt rfl hv, bitLength_longForm]
      refine hunary.trans (fun _ => ?_)
      rw [hpeek, if_neg (by omega)]
      exact reads_skip _ _ _
    · rw [decodeCodeword_short c hk hlt hv, bitLength_shortForm]
      have hlen : k + c.n = k + 1 + (c.n - 1) := by omega
      rw [hlen]
      refine hunary.trans (fun _ => ?_)
      rw [hpeek, if_pos hv]
      exact reads_skip _ _ _
  · obtain rfl : k = c.cap := le_antisymm (hk ▸ (unaryBits_spec _ _).1) hge
    rw [unaryLength, if_neg (lt_irrefl _)] at hunary
    simp only [lt_irrefl, if_false] at hunary
    obtain ⟨len, hlen, hescape⟩ := reads_escape hc fin s
    rw [decodeCodeword_escape c hk, ← hlen]
    exact hunary.trans (fun _ => hescape)

/-- Settles O6: `Reads` of the whole codeword. -/
theorem readerAgreesWithDecoder : Obligations.ReaderAgreesWithDecoder :=
  fun _ fin s hc => reads_readCodeword hc fin s

end Sys2Proof.Machine

/-! SUPPORT. The register map (R28, R29) and the host's accesses to the block. -/

namespace Sys2Proof.Machine

/-! ### Planes, levels and the halves of a scale -/

theorem Tri.get_set {α : Type} (t : Tri α) (p q : Plane) (a : α) :
    (t.set p a).get q = if q = p then a else t.get q := by
  cases p <;> cases q <;> rfl

theorem Quad.get_set {α : Type} (x : Quad α) {k l : Nat} (hk : k < 4) (hl : l < 4) (a : α) :
    (x.set k a).get l = if l = k then a else x.get l := by
  interval_cases k <;> interval_cases l <;> rfl

/-- One half of a scale, as the register map reads it (R45). -/
def half (x : BitVec 64) (high : Bool) : Word := if high then x.extractLsb' 32 32 else x.extractLsb' 0 32

theorem half_append (x : BitVec 64) : half x true ++ half x false = x := by
  refine BitVec.eq_of_getLsbD_eq (fun i hi => ?_)
  rw [BitVec.getLsbD_append]
  rcases Nat.lt_or_ge i 32 with h | h
  · simp [half, h]
  · simp only [half, if_true, BitVec.getLsbD_extractLsb', Nat.not_lt.2 h, decide_false, Bool.false_eq_true, if_false,
      Nat.add_sub_cancel' h, show i - 32 < 32 by omega, decide_true, Bool.true_and]

theorem half_high_append (a b : Word) : half (a ++ b) true = a := by
  have hb := b.isLt
  have ha := a.isLt
  refine BitVec.eq_of_toNat_eq ?_
  simp only [half, if_true, BitVec.extractLsb'_toNat, BitVec.toNat_append, ← Nat.shiftLeft_add_eq_or_of_lt hb,
    Nat.shiftRight_eq_div_pow]
  rw [Nat.shiftLeft_eq]
  omega

theorem half_low_append (a b : Word) : half (a ++ b) false = b := by
  have hb := b.isLt
  refine BitVec.eq_of_toNat_eq ?_
  simp only [half, Bool.false_eq_true, if_false, BitVec.extractLsb'_toNat, BitVec.toNat_append,
    ← Nat.shiftLeft_add_eq_or_of_lt hb, Nat.shiftRight_eq_div_pow]
  rw [Nat.shiftLeft_eq]
  omega

theorem half_putHalf (x : BitVec 64) (high high' : Bool) (v : Word) :
    half (putHalf x high v) high' = if high' = high then v else half x high' := by
  cases high <;> cases high'
  · exact half_low_append (half x true) v
  · exact half_high_append (half x true) v
  · exact half_low_append v (half x false)
  · exact half_high_append v (half x false)

/-- The plane of entry `n` of `SCALE` (R45). -/
def planeAt (n : Nat) : Plane := if n / 8 = 0 then .y else if n / 8 = 1 then .u else .v

/-- Entry `n` of `SCALE`, `n = (2p + dir) * 4 + k` (R45). -/
def scaleAt (t : Tri ScaleSet) (n : Nat) : BitVec 64 :=
  (if n / 4 % 2 = 0 then (t.get (planeAt n)).hor else (t.get (planeAt n)).ver).get (n % 4)

/-- `SCALE` with another entry `n`. -/
def setScaleAt (t : Tri ScaleSet) (n : Nat) (x : BitVec 64) : Tri ScaleSet :=
  t.set (planeAt n)
    (if n / 4 % 2 = 0 then { t.get (planeAt n) with hor := (t.get (planeAt n)).hor.set (n % 4) x }
     else { t.get (planeAt n) with ver := (t.get (planeAt n)).ver.set (n % 4) x })

theorem planeAt_eq_iff {m n : Nat} (hm : m < 24) (hn : n < 24) : planeAt m = planeAt n ↔ m / 8 = n / 8 := by
  unfold planeAt
  split_ifs <;> simp <;> omega

theorem scaleAt_setScaleAt (t : Tri ScaleSet) {m n : Nat} (hm : m < 24) (hn : n < 24) (x : BitVec 64) :
    scaleAt (setScaleAt t n x) m = if m = n then x else scaleAt t m := by
  have hplane := planeAt_eq_iff hm hn
  rw [scaleAt, setScaleAt, Tri.get_set]
  by_cases hp : planeAt m = planeAt n
  · rw [if_pos hp]
    have hmn : m / 4 % 2 = n / 4 % 2 → (m % 4 = n % 4 ↔ m = n) := by rw [hplane] at hp; omega
    have hget (q : Quad (BitVec 64)) : (q.set (n % 4) x).get (m % 4) = if m % 4 = n % 4 then x else q.get (m % 4) :=
      Quad.get_set q (Nat.mod_lt _ (by omega)) (Nat.mod_lt _ (by omega)) x
    rw [scaleAt, hp]
    by_cases hdir : n / 4 % 2 = 0
    · rw [if_pos hdir]
      by_cases hdir' : m / 4 % 2 = 0
      · simp only [if_pos hdir', hget, hmn (hdir'.trans hdir.symm)]
      · rw [if_neg hdir', if_neg hdir', if_neg (by omega)]
    · rw [if_neg hdir]
      by_cases hdir' : m / 4 % 2 = 0
      · rw [if_pos hdir', if_pos hdir', if_neg (by omega)]
      · simp only [if_neg hdir', hget, hmn (by omega)]
  · have hne : m ≠ n := by rintro rfl; exact hp rfl
    rw [if_neg hp, if_neg hne, scaleAt]

theorem scaleWord_eq (s : State) (o : Nat) : s.scaleWord o = half (scaleAt s.scale (o / 8)) (o / 4 % 2 == 1) := by
  have hset : (if o / 8 / 8 = 0 then s.scale.p0 else if o / 8 / 8 = 1 then s.scale.p1 else s.scale.p2) =
      s.scale.get (planeAt (o / 8)) := by
    unfold planeAt
    split_ifs <;> rfl
  simp only [State.scaleWord, hset, half, scaleAt]
  rcases Nat.mod_two_eq_zero_or_one (o / 4) with h | h <;> simp [h]

theorem setScaleWord_eq (s : State) (o : Nat) (v : Word) :
    s.setScaleWord o v =
      { s with scale := setScaleAt s.scale (o / 8) (putHalf (scaleAt s.scale (o / 8)) (o / 4 % 2 == 1) v) } := by
  simp only [State.setScaleWord, setScaleAt, scaleAt, planeAt]
  split_ifs <;> rfl

/-- A word of `SCALE` after a write of one of them. -/
theorem scaleWord_setScaleWord (s : State) {o o' : Nat} (ho : o < 0xC0) (ho' : o' < 0xC0) (ha : o % 4 = 0)
    (ha' : o' % 4 = 0) (v : Word) : (s.setScaleWord o v).scaleWord o' = if o' = o then v else s.scaleWord o' := by
  rw [scaleWord_eq, scaleWord_eq, setScaleWord_eq, scaleAt_setScaleAt _ (by omega) (by omega)]
  by_cases hn : o' / 8 = o / 8
  · have hhalf : ((o' / 4 % 2 == 1) = (o / 4 % 2 == 1)) ↔ o' = o := by
      rw [Bool.eq_iff_iff, beq_iff_eq, beq_iff_eq]
      omega
    simp only [hn, if_true, half_putHalf, hhalf]
  · rw [if_neg hn, if_neg (by rintro rfl; exact hn rfl)]

/-! ### Where the tables lie in the register map (R29) -/

theorem regRead_scale (s : State) {off : Nat} (hlow : 0x100 ≤ off) (hhigh : off < 0x1C0) :
    s.regRead off = s.scaleWord (off - 0x100) := by
  unfold State.regRead
  iterate 28 rw [if_neg (by omega)]
  rw [if_pos ⟨hlow, hhigh⟩]

theorem regRead_band (s : State) {off : Nat} (hlow : 0x400 ≤ off) (hhigh : off < 0x8E0) :
    s.regRead off = s.bandWord (off - 0x400) := by
  unfold State.regRead
  iterate 29 rw [if_neg (by omega)]
  rw [if_pos ⟨hlow, hhigh⟩]

theorem regRead_unlisted (s : State) {off : Nat}
    (h : off = 0x00C ∨ (0x078 ≤ off ∧ off < 0x100) ∨ (0x1C0 ≤ off ∧ off < 0x400) ∨ 0x8E0 ≤ off) :
    s.regRead off = 0#32 := by
  unfold State.regRead
  iterate 30 rw [if_neg (by omega)]

theorem code_toNat_lt (p : Plane) : p.code.toNat < 3 := by cases p <;> decide

theorem planeAt_eq (p : Plane) {k : Nat} (hk : k < 8) : planeAt (8 * p.code.toNat + k) = p := by
  have hdiv : (8 * p.code.toNat + k) / 8 = p.code.toNat := by omega
  rw [planeAt, hdiv]
  cases p <;> rfl

/-- The two words of entry `n` of `SCALE` (R45). -/
theorem regRead_scaleEntry (s : State) {n : Nat} (hn : n < 24) :
    (s.regRead (0x104 + 8 * n) ++ s.regRead (0x100 + 8 * n) : BitVec 64) = scaleAt s.scale n := by
  rw [regRead_scale s (off := 0x104 + 8 * n) (by omega) (by omega),
    regRead_scale s (off := 0x100 + 8 * n) (by omega) (by omega), scaleWord_eq s (0x104 + 8 * n - 0x100),
    scaleWord_eq s (0x100 + 8 * n - 0x100)]
  have hlow : (0x100 + 8 * n - 0x100) / 8 = n ∧ (0x100 + 8 * n - 0x100) / 4 % 2 = 0 := by omega
  have hsub : 0x104 + 8 * n - 0x100 = 8 * n + 4 := by omega
  have hhigh : (8 * n + 4) / 8 = n ∧ (8 * n + 4) / 4 % 2 = 1 := by omega
  rw [hlow.1, hlow.2, hsub, hhigh.1, hhigh.2]
  exact half_append _

/-- Field `f` of entry `b` of the BAND table of plane `p` (R47). -/
theorem regRead_bandField (s : State) (p : Plane) {b f : Nat} (hb : b ≤ 12) (hf : f < 8) :
    s.regRead (0x400 + 32 * (13 * p.code.toNat + b) + 4 * f) = ((s.band.get p).get b).field f := by
  have hp := code_toNat_lt p
  have hentry : (0x400 + 32 * (13 * p.code.toNat + b) + 4 * f - 0x400) / 32 = 13 * p.code.toNat + b := by omega
  have hfield : (0x400 + 32 * (13 * p.code.toNat + b) + 4 * f - 0x400) / 4 % 8 = f := by omega
  have htable : (13 * p.code.toNat + b) / 13 = p.code.toNat := by omega
  have hband : (13 * p.code.toNat + b) % 13 = b := by omega
  rw [regRead_band s (by omega) (by omega), State.bandWord]
  simp only [hentry, hfield, htable, hband]
  cases p <;> rfl

/-- Settles O14: the named registers are branches of the map; the two tables are read entry by entry. -/
theorem tableMap : Obligations.TableMap := by
  intro s
  refine ⟨rfl, rfl, rfl, rfl, rfl, rfl, rfl, rfl, rfl, rfl, rfl, rfl, rfl, rfl, rfl, rfl, rfl, fun p => ?_,
    fun off h => regRead_unlisted s h⟩
  have hp := code_toNat_lt p
  refine ⟨by cases p <;> rfl, by cases p <;> rfl, by cases p <;> rfl, by cases p <;> rfl, fun k hk => ⟨?_, ?_⟩,
    fun b hb => ?_⟩
  · have hk4 : (8 * p.code.toNat + k) / 4 % 2 = 0 ∧ (8 * p.code.toNat + k) % 4 = k := by omega
    rw [regRead_scaleEntry s (by omega), scaleAt, planeAt_eq p (by omega), if_pos hk4.1, hk4.2]
  · have hk4 : (8 * p.code.toNat + (4 + k)) / 4 % 2 = 1 ∧ (8 * p.code.toNat + (4 + k)) % 4 = k := by omega
    rw [Nat.add_assoc, regRead_scaleEntry s (by omega), scaleAt, planeAt_eq p (by omega), hk4.1, hk4.2]
    rfl
  · exact ⟨regRead_bandField s p hb (f := 0) (by omega), regRead_bandField s p hb (f := 1) (by omega),
      regRead_bandField s p hb (f := 2) (by omega), regRead_bandField s p hb (f := 3) (by omega),
      regRead_bandField s p hb (f := 4) (by omega), regRead_bandField s p hb (f := 5) (by omega),
      regRead_bandField s p hb (f := 6) (by omega), regRead_bandField s p hb (f := 7) (by omega)⟩

/-- Settles O13: the word is made of the flags and the code, and there are 512 choices of them. -/
theorem statusWordFields : Obligations.StatusWordFields := by
  refine ⟨fun st => ?_, by decide⟩
  obtain ⟨busy, done, fault, sticky, lvalid, err⟩ := st
  simp only [Status.word]
  generalize err.code = code
  revert busy done fault sticky lvalid code
  decide +kernel

/-! ### Register writes (R28, R39, R43) -/

/-- What a register write does to the state: operand registers and `SCALE` take values, `LVALID` may be cleared. -/
structure RegWritten (s : State) (off : Nat) (t : State) : Prop where
  kept : t = { s with
    regs := t.regs, scale := t.scale
    status := { s.status with lvalid := if off = 0x040 ∨ off = 0x044 then false else s.status.lvalid } }
  dims : off ≠ 0x040 → off ≠ 0x044 → t.regs.w = s.regs.w ∧ t.regs.h = s.regs.h

theorem regWritten_withRegs {s : State} {off : Nat} (r : Regs) (h : ¬(off = 0x040 ∨ off = 0x044))
    (hw : r.w = s.regs.w) (hh : r.h = s.regs.h) : RegWritten s off (s.withRegs r) :=
  ⟨by rw [if_neg h]; rfl, fun _ _ => ⟨hw, hh⟩⟩

theorem regWritten_dimension {s : State} {off : Nat} (r : Regs) (h : off = 0x040 ∨ off = 0x044) :
    RegWritten s off ((s.withRegs r).setLvalid false) :=
  ⟨by rw [if_pos h]; rfl, fun hw hh => absurd h (not_or.2 ⟨hw, hh⟩)⟩

/-- One branch of the register map after the other. -/
theorem holds_ite {P : State → Prop} {c : Prop} [Decidable c] {a b : State} (ha : c → P a) (hb : ¬c → P b) :
    P (if c then a else b) := by
  split
  · exact ha ‹c›
  · exact hb ‹¬c›

/-- All a register write can do: in the order of the map twelve operand registers, `W` and `H`, the three `PBASE` and
three `PSTRIDE`, `SCALE`, or nothing. -/
theorem regWritten_regWrite (s : State) (off : Nat) (v : Word) : RegWritten s off (s.regWrite off v) := by
  unfold State.regWrite
  iterate 12
    refine holds_ite (P := RegWritten s off) (fun h => regWritten_withRegs _ (by omega) rfl rfl) (fun _ => ?_)
  iterate 2 refine holds_ite (P := RegWritten s off) (fun h => regWritten_dimension _ (by omega)) (fun _ => ?_)
  iterate 6
    refine holds_ite (P := RegWritten s off) (fun h => regWritten_withRegs _ (by omega) rfl rfl) (fun _ => ?_)
  refine holds_ite (P := RegWritten s off) (fun h => ?_) (fun _ => ?_)
  · exact ⟨by rw [if_neg (by omega)]; rfl, fun _ _ => ⟨rfl, rfl⟩⟩
  · exact ⟨by rw [if_neg (by omega)], fun _ _ => ⟨rfl, rfl⟩⟩

/-- Any other offset ignores the write (R29). -/
theorem regWrite_of_not_writable (s : State) {off : Nat} (v : Word) (ha : off % 4 = 0)
    (h : writableOffset off = false) : s.regWrite off v = s := by
  simp only [writableOffset, ha, BEq.rfl, Bool.true_and, Bool.or_eq_false_iff, Bool.and_eq_false_imp,
    decide_eq_true_eq, decide_eq_false_iff_not] at h
  unfold State.regWrite
  iterate 21 rw [if_neg (by omega)]

theorem regRead_setScaleWord (s : State) {o off' : Nat} (ho : o < 0xC0) (ha : o % 4 = 0) (ha' : off' % 4 = 0)
    (v : Word) :
    (s.setScaleWord o v).regRead off' = if off' = 0x100 + o then v else s.regRead off' := by
  by_cases hin : 0x100 ≤ off' ∧ off' < 0x1C0
  · have hsame : off' - 0x100 = o ↔ off' = 0x100 + o := by omega
    rw [regRead_scale _ hin.1 hin.2, regRead_scale _ hin.1 hin.2, scaleWord_setScaleWord s ho (by omega) ha (by omega)]
    simp only [hsame]
  · rw [if_neg (by omega)]
    simp only [State.regRead, if_neg hin]
    rfl

/-- A writable register reads back the word written. -/
theorem regRead_regWrite_same (s : State) {off : Nat} (v : Word) (ha : off % 4 = 0)
    (h : writableOffset off = true) : (s.regWrite off v).regRead off = v := by
  simp only [writableOffset, ha, BEq.rfl, Bool.true_and, Bool.or_eq_true, Bool.and_eq_true, decide_eq_true_eq] at h
  unfold State.regWrite
  iterate 20
    refine holds_ite (P := fun t => t.regRead off = v) (fun hoff => by subst hoff; rfl) (fun _ => ?_)
  refine holds_ite (P := fun t => t.regRead off = v) (fun hoff => ?_) (fun hoff => ?_)
  · rw [regRead_setScaleWord s (by omega) (by omega) ha, if_pos (by omega)]
  · omega

/-- Every other register but `STATUS` reads as before. -/
theorem regRead_regWrite_ne (s : State) {off off' : Nat} (v : Word) (ha : off % 4 = 0) (ha' : off' % 4 = 0)
    (hne : off' ≠ off) (hstatus : off' ≠ 0x004) : (s.regWrite off v).regRead off' = s.regRead off' := by
  unfold State.regWrite
  iterate 20
    refine holds_ite (P := fun t => t.regRead off' = s.regRead off')
      (fun hoff => by subst hoff; simp only [State.regRead, if_neg hne, if_neg hstatus]; rfl) (fun _ => ?_)
  refine holds_ite (P := fun t => t.regRead off' = s.regRead off') (fun hoff => ?_) (fun _ => rfl)
  rw [regRead_setScaleWord s (by omega) (by omega) ha', if_neg (by omega)]

/-- Settles O12: every other word is read as before, and `RegWritten` lists what else is kept. -/
theorem registerWriteFrame : Obligations.RegisterWriteFrame := by
  intro s off off' v ha ha' hne hstatus
  obtain ⟨hkept, -⟩ := regWritten_regWrite s off v
  refine ⟨regRead_regWrite_ne s v ha ha' hne hstatus, ?_, ?_, ?_, ?_⟩
  · rw [hkept]
  · rw [hkept]
  · rw [hkept]
  · rw [hkept]
    split_ifs <;> rfl

/-- The step that takes a host write. -/
theorem step_wr {s : State} {addr v : Word} {rest : List HostOp} (h : s.host = .wr addr v :: rest) :
    step s = hostRegWrite addr v { s with host := rest } := by
  rw [step, h]
  rfl

/-- Settles O11: the step writes the register, which the map then reads back where it is writable. -/
theorem registerReadBack : Obligations.RegisterReadBack :=
  ⟨fun _ _ _ _ hhost ha hc hb => (step_wr hhost).trans (hostRegWrite_of_idle ha hc hb),
    fun s _ v ha => ⟨regRead_regWrite_same s v ha, regWrite_of_not_writable s v ha⟩⟩

/-- A busy block ignores every command (R41). -/
theorem exec_of_busy {i : Instr} {s : State} (hi : i.isCodeword = false) (hb : s.status.busy = true) :
    exec i s = .next s := by
  cases i with
  | layout | predict | filt1d | idwt => exact runCommand_next.2 (.inl ⟨hb, rfl⟩)
  | declow => rw [exec_declow]; exact startCoder_next.2 (.inl ⟨hb, rfl⟩)
  | dechigh => rw [exec_dechigh]; exact startCoder_next.2 (.inl ⟨hb, rfl⟩)
  | _ => cases hi

/-- A busy block ignores every word written to `CMD` (R41). -/
theorem execCommandWord_of_busy {s : State} (w : Word) (hb : s.status.busy = true) :
    execCommandWord w s = .next s := by
  unfold execCommandWord
  split
  · exact exec_of_busy (decodeCommand_isCodeword ‹_›) hb
  · rw [if_pos hb]

theorem hostRegWrite_of_busy {s : State} {addr : Word} (v : Word) (ha : s.offset addr % 4 = 0)
    (hb : s.status.busy = true) : hostRegWrite addr v s = .next s := by
  rw [hostRegWrite, if_neg (by omega), execCommandWord_of_busy v hb, if_pos hb, ite_self]

/-- Settles O10: a busy block ignores the write, to `CMD` as to any other register. -/
theorem writesWhileBusyIgnored : Obligations.WritesWhileBusyIgnored :=
  fun _ _ v _ hhost hb ha => (step_wr hhost).trans (hostRegWrite_of_busy v ha hb)

/-- Settles O15: the step that takes a host read answers with the word and changes nothing else. -/
theorem readsHaveNoSideEffect : Obligations.ReadsHaveNoSideEffect := by
  intro s addr rest hhost ha
  have hstep : step s = hostRegRead addr { s with host := rest } := by rw [step, hhost]; rfl
  have ha' : State.offset { s with host := rest } addr % 4 = 0 := ha
  rw [hstep, hostRegRead, if_neg (by omega)]
  rfl

/-- Settles O19: all of the reset state is known. -/
theorem resetInv : Obligations.ResetInv := by
  refine ⟨by decide, ⟨rfl, rfl, rfl, rfl, rfl⟩, ?_, fun h => absurd rfl h, fun h => ?_⟩
  · simp [State.statusInv, State.reset, Status.reset]
  · simp [State.reset, Status.reset] at h

end Sys2Proof.Machine

/-! SUPPORT. What one step can do: the host's accesses to the memories, when a step goes on, and every next state it can
answer. -/

namespace Sys2Proof.Machine

/-! ### Racing accesses (R75, U14; log entry 10) -/

/-- The PM writes with which a racing host access leaves the running command's cells unspecified. -/
def State.raceWrites (s : State) : List (Nat × Sample) :=
  ((List.range s.regs.size.toNat).filter (fun t => (s.coeffAddr t).toNat < s.cfg.pmSize)).map
    (fun t => ((s.coeffAddr t).toNat, Config.raceSample (s.race.draws + 1) t))

/-- Writes that are made where a test allows them. -/
theorem foldl_ite_write {w : Nat} (c : Nat → Prop) [∀ t, Decidable (c t)] (addr : Nat → Nat) (v : Nat → BitVec w)
    (ts : List Nat) (m : Memory w) :
    ts.foldl (fun m t => if c t then m.write (addr t) (v t) else m) m =
      m.replay ((ts.filter (fun t => c t)).map (fun t => (addr t, v t))) := by
  induction ts generalizing m with
  | nil => rfl
  | cons t ts ih =>
    rw [List.foldl_cons, ih]
    by_cases h : c t <;> simp [h, Memory.replay]

theorem raceWrite_pm (s : State) : s.raceWrite.pm = s.pm.replay s.raceWrites :=
  foldl_ite_write _ (fun t => (s.coeffAddr t).toNat) _ _ _

/-- They are writes of coefficients of the command whose cells exist. -/
theorem mem_raceWrites {s : State} {c : Nat × Sample} (h : c ∈ s.raceWrites) :
    c.1 < s.cfg.pmSize ∧ ∃ k, k < s.regs.size.toNat ∧ (s.coeffAddr k).toNat = c.1 := by
  obtain ⟨k, hk, rfl⟩ := List.mem_map.1 h
  obtain ⟨hlt, hin⟩ := List.mem_filter.1 hk
  exact ⟨of_decide_eq_true hin, k, List.mem_range.1 hlt, rfl⟩

/-- A cell of no coefficient is not raced. -/
theorem raceWrite_pm_read {s : State} {a : Nat} (ha : ∀ k, k < s.regs.size.toNat → (s.coeffAddr k).toNat ≠ a) :
    s.raceWrite.pm.read a = s.pm.read a := by
  rw [raceWrite_pm]
  refine Memory.read_replay_ne _ _ a (fun c hc => ?_)
  obtain ⟨-, k, hk, e⟩ := mem_raceWrites hc
  exact fun hac => ha k hk (e.trans hac.symm)

/-! ### The host's accesses to memory (R61, R62) -/

theorem hostBsRead_of_lt {s : State} {addr : Word} (h : addr.toNat < s.cfg.bsSize) :
    hostBsRead addr s = .next { s with rdata := (s.bs.read addr.toNat).zeroExtend 32 } := if_neg (by omega)

theorem hostBsWrite_of_free {s : State} {addr : Word} (v : Byte) (h : addr.toNat < s.cfg.bsSize)
    (hu : s.usesByte addr.toNat = false) :
    hostBsWrite addr v s = .next { s with bs := s.bs.write addr.toNat v } := by
  rw [hostBsWrite, if_neg (by omega), hu, if_neg Bool.false_ne_true]

theorem hostBsWrite_of_used {s : State} {addr : Word} (v : Byte) (h : addr.toNat < s.cfg.bsSize)
    (hu : s.usesByte addr.toNat = true) :
    hostBsWrite addr v s =
      .next { (s.raceWrite).holdByte addr.toNat with bs := s.bs.write addr.toNat v } := by
  rw [hostBsWrite, if_neg (by omega), hu, if_pos rfl]
  rfl

theorem hostPmWrite_of_free {s : State} {addr : Word} (v : Sample) (h : addr.toNat < s.cfg.pmSize)
    (hu : s.usesCell addr.toNat = false) :
    hostPmWrite addr v s = .next { s with pm := s.pm.write addr.toNat v } := by
  rw [hostPmWrite, if_neg (by omega), hu, if_neg Bool.false_ne_true]

theorem hostPmWrite_of_used {s : State} {addr : Word} (v : Sample) (h : addr.toNat < s.cfg.pmSize)
    (hu : s.usesCell addr.toNat = true) : hostPmWrite addr v s = .next s.raceWrite := by
  rw [hostPmWrite, if_neg (by omega), hu, if_pos rfl]

theorem hostPmRead_of_free {s : State} {addr : Word} (h : addr.toNat < s.cfg.pmSize)
    (hu : s.usesCell addr.toNat = false) :
    hostPmRead addr s = .next { s with rdata := (s.pm.read addr.toNat).zeroExtend 32 } := by
  rw [hostPmRead, if_neg (by omega), hu, if_neg Bool.false_ne_true]

theorem hostPmRead_of_used {s : State} {addr : Word} (h : addr.toNat < s.cfg.pmSize)
    (hu : s.usesCell addr.toNat = true) :
    hostPmRead addr s = .next { s with
      rdata := (Config.raceSample (s.race.draws + 1) 0).zeroExtend 32
      race := { s.race with draws := s.race.draws + 2 } } := by
  rw [hostPmRead, if_neg (by omega), hu, if_pos rfl]

/-- A step that takes a host action. -/
theorem step_cons {s : State} {op : HostOp} {rest : List HostOp} (h : s.host = op :: rest) :
    step s = hostStep op { s with host := rest } := by
  rw [step, h]

theorem step_nil {s : State} (h : s.host = []) : step s = blockStep s := by
  rw [step, h]

/-- A bit of the stream is that of the byte, or of a value the byte held during the command (U14). -/
theorem bit_cases (s : State) {k : Nat} (hk : k < s.limit) :
    s.bit k = (s.bs.read (s.regs.bsptr.toNat + k / 8)).getLsbD (7 - k % 8) ∨
    ∃ b, (s.regs.bsptr.toNat + k / 8, b) ∈ s.race.held ∧ s.bit k = b.getLsbD (7 - k % 8) := by
  have hbit : s.bit k = (s.memRead (s.regs.bsptr.toNat + k / 8) k).getLsbD (7 - k % 8) := if_pos hk
  rw [hbit]
  obtain h | h := memRead_cases s (s.regs.bsptr.toNat + k / 8) k
  · exact .inl (by rw [h])
  · exact .inr ⟨_, h, rfl⟩

/-- Settles O16: each access is one of the operations above, by whether the running command uses the cell. -/
theorem hostMemoryAccess : Obligations.HostMemoryAccess := by
  rintro s rest ⟨hbs, -, hpm, -, -⟩ hlegal
  refine ⟨fun addr hhost => ?_, fun addr v hhost => ?_, fun addr v hhost => ?_, fun addr hhost => ?_,
    fun k hk => bit_cases s hk⟩ <;>
    rw [State.hostLegal, hhost] at hlegal <;> rw [step_cons hhost]
  · exact hostBsRead_of_lt (s := { s with host := rest }) hlegal
  · cases hu : s.usesByte addr.toNat with
    | false =>
      exact ⟨_, hostBsWrite_of_free (s := { s with host := rest }) v hlegal hu, Memory.read_write_same _ _ _ hbs,
        fun a ha => Memory.read_write_ne _ _ ha, fun _ => rfl, fun h => (nomatch h)⟩
    | true =>
      exact ⟨_, hostBsWrite_of_used (s := { s with host := rest }) v hlegal hu, Memory.read_write_same _ _ _ hbs,
        fun a ha => Memory.read_write_ne _ _ ha, fun h => (nomatch h), fun _ => ⟨rfl, rfl, rfl, fun a ha =>
          raceWrite_pm_read (s := { s with host := rest }) ha⟩⟩
  · cases hu : s.usesCell addr.toNat with
    | false =>
      exact ⟨_, hostPmWrite_of_free (s := { s with host := rest }) v hlegal hu, fun _ => ⟨rfl,
        Memory.read_write_same _ _ _ hpm, fun a ha => Memory.read_write_ne _ _ ha⟩, fun h => (nomatch h)⟩
    | true =>
      exact ⟨_, hostPmWrite_of_used (s := { s with host := rest }) v hlegal hu, fun h => (nomatch h),
        fun _ => ⟨rfl, rfl, rfl, fun a ha => raceWrite_pm_read (s := { s with host := rest }) ha⟩⟩
  · exact ⟨hostPmRead_of_free (s := { s with host := rest }) hlegal,
      fun hu => ⟨_, _, hostPmRead_of_used (s := { s with host := rest }) hlegal hu⟩⟩

/-! ### When a step goes on (R349, R372) -/

/-- The block's own step always goes on: it decodes in the context of the running command. -/
theorem blockStep_total (s : State) : ∃ t, blockStep s = .next t := by
  cases hc : s.ctx with
  | none => exact ⟨s, by rw [blockStep, State.fetch, hc]; rfl⟩
  | some c =>
    rw [blockStep_of_ctx hc]
    exact exec_total (fun _ => by rw [engine_of_ctx hc, engineOf_decodeCodeword])

/-- An idle block has no codeword to run (R372). -/
theorem blockStep_of_idle {s : State} (h : s.engine = .idle) : blockStep s = .next s := by
  have hctx : s.ctx = none := by rw [State.ctx, h]
  rw [blockStep, State.fetch, hctx]
  rfl

/-- A word written to `CMD` always goes on. -/
theorem execCommandWord_total (w : Word) (s : State) : ∃ t, execCommandWord w s = .next t := by
  unfold execCommandWord
  split
  · exact exec_total (fun h => by simp [decodeCommand_isCodeword ‹_›] at h)
  · split <;> exact ⟨_, rfl⟩

theorem resetDuring_total (n : Nat) {work : State → Host.Outcome State Fault Refusal} {s : State}
    (h : ∀ s, ∃ t, work s = .next t) : ∃ t, resetDuring n work s = .next t := by
  obtain ⟨t, ht⟩ := h { s with pmLog := some [] }
  exact ⟨_, by rw [resetDuring, ht]⟩

theorem hostRegWrite_total {s : State} {addr : Word} (v : Word) (h : s.offset addr % 4 = 0) :
    ∃ t, hostRegWrite addr v s = .next t := by
  rw [hostRegWrite, if_neg (by omega)]
  split_ifs
  · exact execCommandWord_total v s
  · exact ⟨_, rfl⟩
  · exact ⟨_, rfl⟩

/-- A legal host action goes on. -/
theorem step_of_legal {s : State} (h : s.hostLegal) : ∃ t, step s = .next t := by
  cases hhost : s.host with
  | nil => rw [step_nil hhost]; exact blockStep_total s
  | cons op rest =>
    rw [step_cons hhost]
    rw [State.hostLegal, hhost] at h
    cases op with
    | wr addr v => exact hostRegWrite_total v h
    | rd addr =>
      have ha : ¬State.offset { s with host := rest } addr % 4 ≠ 0 := not_not.2 h
      exact ⟨_, if_neg ha⟩
    | bsWrite addr v => exact ⟨_, if_neg (not_le.2 h)⟩
    | bsRead addr => exact ⟨_, if_neg (not_le.2 h)⟩
    | pmWrite addr v =>
      have hlt : ¬s.cfg.pmSize ≤ addr.toNat := not_le.2 h
      simp only [hostStep, hostPmWrite, if_neg hlt]
      split <;> exact ⟨_, rfl⟩
    | pmRead addr =>
      have hlt : ¬s.cfg.pmSize ≤ addr.toNat := not_le.2 h
      simp only [hostStep, hostPmRead, if_neg hlt]
      split <;> exact ⟨_, rfl⟩
    | reset => exact ⟨_, rfl⟩
    | cmdThenReset w n => exact resetDuring_total n (execCommandWord_total w)
    | tickThenReset n => exact resetDuring_total n blockStep_total
    | wait =>
      simp only [hostStep]
      split
      · exact blockStep_total _
      · exact ⟨_, rfl⟩
    | tick => exact blockStep_total _

/-- Any other host action stops the model, each kind of access with its own reason. -/
theorem step_of_not_legal {s : State} (h : ¬s.hostLegal) :
    step s = .fault .hostOutsideMemory ∨ step s = .refused .unalignedRegisterAccess := by
  cases hhost : s.host with
  | nil => exact absurd (by rw [State.hostLegal, hhost]; trivial) h
  | cons op rest =>
    rw [step_cons hhost]
    rw [State.hostLegal, hhost] at h
    cases op with
    | wr addr v =>
      have ha : State.offset { s with host := rest } addr % 4 ≠ 0 := h
      exact .inr (if_pos ha)
    | rd addr =>
      have ha : State.offset { s with host := rest } addr % 4 ≠ 0 := h
      exact .inr (if_pos ha)
    | bsWrite addr v => exact .inl (if_pos (not_lt.1 h))
    | bsRead addr => exact .inl (if_pos (not_lt.1 h))
    | pmWrite addr v => exact .inl (if_pos (not_lt.1 h))
    | pmRead addr => exact .inl (if_pos (not_lt.1 h))
    | reset | cmdThenReset | tickThenReset | wait | tick => exact absurd trivial h

/-- Settles O8: a legal host action goes on, and any other stops with one of the two reasons. -/
theorem stepStopsOnlyOnHostMisuse : Obligations.StepStopsOnlyOnHostMisuse := by
  intro s
  refine ⟨⟨fun ⟨t, ht⟩ => ?_, step_of_legal⟩, fun f hf => ?_, fun r hr => ?_,
    fun hhost he => (step_nil hhost).trans (blockStep_of_idle he)⟩
  · by_contra hl
    obtain h | h := step_of_not_legal hl <;> rw [ht] at h <;> cases h
  · have hl : ¬s.hostLegal := fun hl => by
      obtain ⟨t, ht⟩ := step_of_legal hl
      rw [ht] at hf
      cases hf
    obtain h | h := step_of_not_legal hl <;> rw [hf] at h <;> cases h
    rfl
  · have hl : ¬s.hostLegal := fun hl => by
      obtain ⟨t, ht⟩ := step_of_legal hl
      rw [ht] at hr
      cases hr
    obtain h | h := step_of_not_legal hl <;> rw [hr] at h <;> cases h
    rfl

/-- Settles O7: the step takes the word or the codeword, and runs it. -/
theorem stepRunsDecoded : Obligations.StepRunsDecoded := by
  refine ⟨fun s w rest i hhost hi => ?_, fun s c hhost hc => ?_, fun s c rest hhost hc => ?_,
    fun s c rest hhost hb hc => ?_⟩
  · rw [step_cmdWrite hhost, execCommandWord, hi]
  · rw [step_nil hhost, blockStep_of_ctx hc]
  · rw [step_cons hhost]
    exact blockStep_of_ctx (s := { s with host := rest }) hc
  · have hstate : { s with host := .wait :: rest } = s := by rw [← hhost]
    rw [step_cons hhost, hostStep, if_pos hb]
    dsimp only
    rw [hstate, blockStep_of_ctx hc]

/-! ### Every next state of a step -/

/-- The next states that a step from `s` can answer. -/
inductive StepOutcome (s : State) : State → Prop
  /-- A host access that leaves every register of the block alone, or nothing at all: BS may take a byte, PM some
  samples, the host's word and the record of races may change. -/
  | access (host : List HostOp) {bs : Memory 8} (hbs : bs = s.bs ∨ ∃ a v, a < s.cfg.bsSize ∧ bs = s.bs.write a v)
      {writes : List (Nat × Sample)} (hpm : ∀ c ∈ writes, c.1 < s.cfg.pmSize) (rdata : Word) (race : Race) :
      StepOutcome s { s with host := host, bs := bs, pm := s.pm.replay writes, rdata := rdata, race := race }
  /-- A register write, `CMD` apart (R28). -/
  | regWritten (host : List HostOp) (hb : s.status.busy = false) (off : Nat) (v : Word) :
      StepOutcome s (State.regWrite { s with host := host } off v)
  /-- A word that selects no command (R343). -/
  | illegal (host : List HostOp) (hb : s.status.busy = false) :
      StepOutcome s (State.raise (State.accept { s with host := host }) .illegalCmd)
  /-- A command, or the codeword at the cursor, was run. -/
  | ran (host : List HostOp) {i : Instr}
      (hi : (i.isCodeword = false ∧ s.status.busy = false) ∨ ∃ c, s.ctx = some c ∧ i = decodeCodeword c s.window)
      {t : State} (ht : exec i { s with host := host } = .next t) : StepOutcome s t
  /-- A reset, after some PM writes of the unit of work it cut (R371). -/
  | reset (hr : s.hostResets = true) (host : List HostOp) {writes : List (Nat × Sample)}
      (hpm : ∀ c ∈ writes, c.1 < s.cfg.pmSize) :
      StepOutcome s { State.resetBlock { s with host := host } with pm := s.pm.replay writes }

/-- Nothing but the host's list changes. -/
theorem StepOutcome.stays (s : State) (host : List HostOp) : StepOutcome s { s with host := host } :=
  .access host (.inl rfl) (writes := []) (by simp) s.rdata s.race

theorem blockStep_outcome {s t : State} (host : List HostOp) (h : blockStep { s with host := host } = .next t) :
    StepOutcome s t := by
  cases hc : s.ctx with
  | none =>
    have hstay : blockStep { s with host := host } = .next { s with host := host } := by
      rw [blockStep, State.fetch, show State.ctx { s with host := host } = none from hc]
      rfl
    rw [hstay] at h
    cases h
    exact .stays s host
  | some c =>
    rw [blockStep_of_ctx (s := { s with host := host }) hc] at h
    exact .ran host (.inr ⟨c, hc, rfl⟩) h

theorem execCommandWord_outcome {s t : State} {w : Word} (host : List HostOp)
    (h : execCommandWord w { s with host := host } = .next t) : StepOutcome s t := by
  cases hb : s.status.busy with
  | true =>
    rw [execCommandWord_of_busy (s := { s with host := host }) w hb] at h
    cases h
    exact .stays s host
  | false =>
    unfold execCommandWord at h
    split at h
    · exact .ran host (.inl ⟨decodeCommand_isCodeword ‹_›, hb⟩) h
    · rw [if_neg (by simp [hb])] at h
      cases h
      exact .illegal host hb

theorem hostRegWrite_outcome {s t : State} {addr v : Word} (host : List HostOp)
    (h : hostRegWrite addr v { s with host := host } = .next t) : StepOutcome s t := by
  unfold hostRegWrite at h
  split_ifs at h with ha hc hb
  · exact execCommandWord_outcome host h
  · cases h
    exact .stays s host
  · cases h
    exact .regWritten host (by simpa using hb) _ v

theorem hostBsWrite_outcome {s t : State} {addr : Word} {v : Byte} (host : List HostOp)
    (h : hostBsWrite addr v { s with host := host } = .next t) : StepOutcome s t := by
  rcases Nat.lt_or_ge addr.toNat s.cfg.bsSize with hlt | hge
  · cases hu : s.usesByte addr.toNat with
    | false =>
      rw [hostBsWrite_of_free (s := { s with host := host }) v hlt hu] at h
      cases h
      exact .access host (.inr ⟨_, v, hlt, rfl⟩) (writes := []) (by simp) s.rdata s.race
    | true =>
      rw [hostBsWrite_of_used (s := { s with host := host }) v hlt hu] at h
      have hpm : (State.raceWrite { s with host := host }).pm = s.pm.replay s.raceWrites := raceWrite_pm _
      have hkept : { (State.raceWrite { s with host := host }).holdByte addr.toNat with
          bs := s.bs.write addr.toNat v } = t := Host.Outcome.next.inj h
      have hstate : { (State.raceWrite { s with host := host }).holdByte addr.toNat with
          bs := s.bs.write addr.toNat v } =
        { s with
          host := host, bs := s.bs.write addr.toNat v, pm := s.pm.replay s.raceWrites, rdata := s.rdata
          race := ((State.raceWrite { s with host := host }).holdByte addr.toNat).race } := by
        rw [← hpm]; rfl
      rw [← hkept, hstate]
      exact .access host (.inr ⟨_, v, hlt, rfl⟩) (fun c hc => (mem_raceWrites hc).1) _ _
  · rw [hostBsWrite, if_pos (show s.cfg.bsSize ≤ addr.toNat from hge)] at h
    cases h

theorem raceWrite_outcome (s : State) (host : List HostOp) : StepOutcome s (State.raceWrite { s with host := host }) := by
  have hpm : (State.raceWrite { s with host := host }).pm = s.pm.replay s.raceWrites := raceWrite_pm _
  have hstate : State.raceWrite { s with host := host } =
      { s with
        host := host, bs := s.bs, pm := s.pm.replay s.raceWrites, rdata := s.rdata
        race := (State.raceWrite { s with host := host }).race } := by rw [← hpm]; rfl
  rw [hstate]
  exact .access host (.inl rfl) (fun c hc => (mem_raceWrites hc).1) _ _

theorem hostPmWrite_outcome {s t : State} {addr : Word} {v : Sample} (host : List HostOp)
    (h : hostPmWrite addr v { s with host := host } = .next t) : StepOutcome s t := by
  unfold hostPmWrite at h
  split_ifs at h with hge hu
  · cases h
    exact raceWrite_outcome s host
  · cases h
    exact .access host (.inl rfl) (writes := [(addr.toNat, v)]) (by simpa using hge) s.rdata s.race

theorem hostPmRead_outcome {s t : State} {addr : Word} (host : List HostOp)
    (h : hostPmRead addr { s with host := host } = .next t) : StepOutcome s t := by
  unfold hostPmRead at h
  split_ifs at h
  · cases h
    exact .access host (.inl rfl) (writes := []) (by simp) _ _
  · cases h
    exact .access host (.inl rfl) (writes := []) (by simp) _ _

theorem execLogs_blockStep : ExecLogs blockStep := by
  intro s t h
  cases hc : s.ctx with
  | none =>
    have hstay (u : State) (hu : u.ctx = none) : blockStep u = .next u := by rw [blockStep, State.fetch, hu]; rfl
    rw [hstay s hc] at h
    cases h
    exact ⟨[], LeavesPM.id.wrote s, fun log => by rw [hstay (s.withLog log) hc, logWrites_nil]⟩
  | some c =>
    rw [blockStep_of_ctx hc] at h
    obtain ⟨writes, hw, hlog⟩ := exec_logs _ s t h
    exact ⟨writes, hw, fun log => (blockStep_of_ctx (s := s.withLog log) hc).trans (hlog log)⟩

theorem execLogs_execCommandWord (w : Word) : ExecLogs (execCommandWord w) := by
  intro s t h
  unfold execCommandWord at h ⊢
  cases hd : decodeCommand w with
  | ok i => rw [hd] at h; exact exec_logs i s t h
  | error e =>
    rw [hd] at h
    simp only at h ⊢
    cases hb : s.status.busy with
    | true =>
      rw [hb, if_pos rfl] at h
      cases h
      exact ⟨[], LeavesPM.id.wrote s, fun log => by rw [logWrites_nil]; exact if_pos hb⟩
    | false =>
      rw [hb, if_neg Bool.false_ne_true] at h
      cases h
      have hraise : LeavesPM (fun s => s.accept.raise .illegalCmd) :=
        ⟨fun _ => rfl, fun _ => rfl, fun _ _ => rfl⟩
      exact ⟨[], hraise.wrote s, fun log => by rw [logWrites_nil]; exact if_neg (by simp [State.withLog, hb])⟩

/-- A reset inside a unit of work leaves the reset state and some of the unit's PM writes. -/
theorem resetDuring_outcome {n : Nat} {work : State → Host.Outcome State Fault Refusal} {s t : State}
    (host : List HostOp) (hr : s.hostResets = true) (hwork : ExecLogs work)
    (h : resetDuring n work { s with host := host } = .next t) : StepOutcome s t := by
  cases hu : work (State.withLog { s with host := host } (some [])) with
  | next u =>
    obtain ⟨writes, hw, hlog⟩ := hwork _ u hu
    have hcount : work (State.withLog { s with host := host } (some [])) = .next (u.withLog (some writes.reverse)) := by
      have hsame := hlog (some [])
      rw [logWrites, Option.map_some, List.append_nil] at hsame
      exact hsame
    rw [resetDuring_next hcount] at h
    cases h
    exact .reset hr host (fun c hc => hw.inside c (List.mem_of_mem_take hc))
  | fault | refused =>
    have hu' : work { s with host := host, pmLog := some [] } = _ := hu
    rw [resetDuring, hu'] at h
    cases h

/-- Every next state of a step is one of the outcomes. -/
theorem step_outcome {s t : State} (h : step s = .next t) : StepOutcome s t := by
  cases hhost : s.host with
  | nil =>
    have hstate : { s with host := [] } = s := by rw [← hhost]
    rw [step_nil hhost] at h
    exact blockStep_outcome [] (by rw [hstate]; exact h)
  | cons op rest =>
    rw [step_cons hhost] at h
    cases op with
    | wr addr v => exact hostRegWrite_outcome rest h
    | rd addr =>
      simp only [hostStep, hostRegRead] at h
      split_ifs at h
      cases h
      exact .access rest (.inl rfl) (writes := []) (by simp) _ s.race
    | bsWrite addr v => exact hostBsWrite_outcome rest h
    | bsRead addr =>
      simp only [hostStep, hostBsRead] at h
      split_ifs at h
      cases h
      exact .access rest (.inl rfl) (writes := []) (by simp) _ s.race
    | pmWrite addr v => exact hostPmWrite_outcome rest h
    | pmRead addr => exact hostPmRead_outcome rest h
    | reset =>
      cases h
      exact .reset (by rw [State.hostResets, hhost]) rest (writes := []) (by simp)
    | cmdThenReset w n =>
      exact resetDuring_outcome rest (by rw [State.hostResets, hhost]) (execLogs_execCommandWord w) h
    | tickThenReset n => exact resetDuring_outcome rest (by rw [State.hostResets, hhost]) execLogs_blockStep h
    | wait =>
      simp only [hostStep] at h
      split at h
      · exact blockStep_outcome (.wait :: rest) h
      · cases h
        exact .stays s rest
    | tick => exact blockStep_outcome rest h

end Sys2Proof.Machine

/-! SUPPORT. The invariants of the machine, step by step: the memories, `STATUS`, the layout, `STICKY`. -/

namespace Sys2Proof.Machine

/-! ### The memories (R61, R62; log entries 4, 20) -/

/-- An instruction keeps the invariant of the memories: its PM writes are of cells that exist, and where none are being
counted none are counted afterwards. -/
theorem exec_memInv {i : Instr} {s t : State} (h : s.memInv) (ht : exec i s = .next t) : t.memInv := by
  obtain ⟨hbs, hbsIn, hpm, hpmIn, hlog⟩ := h
  obtain ⟨writes, hw, hcount⟩ := exec_logs i s t ht
  obtain ⟨-, -, hbsEq, hcfg, -, -⟩ := operandsUnmodified i s t ht
  have hnone : s.withLog none = s := by rw [State.withLog, ← hlog]
  have htlog : t = t.withLog none := by
    have hsame := hcount none
    rw [hnone, ht] at hsame
    exact Host.Outcome.next.inj hsame
  refine ⟨by rwa [hbsEq], by rwa [hbsEq, hcfg], ?_, ?_, by rw [htlog]; rfl⟩
  · rw [hw.pm]; exact Memory.wf_replay _ _ hpm
  · rw [hw.pm, hcfg]; exact Memory.within_replay _ _ _ hpmIn hw.inside

theorem RegWritten.memInv {s t : State} {off : Nat} (ht : RegWritten s off t) (h : s.memInv) : t.memInv := by
  rw [ht.kept]
  exact h

/-- The memory invariant does not look at the host's list. -/
theorem memInv_host {s : State} (host : List HostOp) (h : s.memInv) : State.memInv { s with host := host } := h

theorem StepOutcome.memInv {s t : State} (ht : StepOutcome s t) (h : s.memInv) : t.memInv := by
  cases ht with
  | @access host bs hbs writes hpm rdata race =>
    obtain ⟨hbswf, hbsIn, hpmwf, hpmIn, hlog⟩ := h
    have hpmwf' := Memory.wf_replay s.pm writes hpmwf
    have hpmIn' := Memory.within_replay s.pm writes _ hpmIn hpm
    obtain rfl | ⟨a, v, ha, rfl⟩ := hbs
    · exact ⟨hbswf, hbsIn, hpmwf', hpmIn', hlog⟩
    · exact ⟨Memory.wf_write _ _ _ hbswf, Memory.within_write _ _ _ _ hbsIn ha, hpmwf', hpmIn', hlog⟩
  | regWritten host hb off v => exact (regWritten_regWrite { s with host := host } off v).memInv h
  | illegal => exact h
  | ran host hi ht => exact exec_memInv (memInv_host host h) ht
  | reset hr host hpm =>
    obtain ⟨hbswf, hbsIn, hpmwf, hpmIn, -⟩ := h
    exact ⟨hbswf, hbsIn, Memory.wf_replay _ _ hpmwf, Memory.within_replay _ _ _ hpmIn hpm, rfl⟩

/-- Settles O20: every outcome of a step keeps the invariant. -/
theorem stepKeepsMemory : Obligations.StepKeepsMemory :=
  fun _ _ h ht => (step_outcome ht).memInv h

/-! ### The layout (R39, R40, R47) -/

/-- `LAYOUT` leaves the layout invariant, whatever held before. -/
theorem execLayout_layoutInv {s t : State} (hb : s.status.busy = false) (ht : exec .layout s = .next t) :
    t.layoutInv := by
  rw [exec_layout_of_idle hb] at ht
  obtain rfl : _ = t := Host.Outcome.next.inj ht
  unfold layoutBody
  dsimp only
  split_ifs with hform hsize
  · exact fun h => (nomatch h)
  · exact fun h => (nomatch h)
  · simp only [accept_regs, accept_cfg, not_or, not_not, not_lt] at hform hsize
    obtain ⟨hw, hh, hw32, hh32⟩ := hform
    obtain ⟨hwmax, hhmax⟩ := hsize
    exact fun _ => ⟨Nat.pos_of_ne_zero hw, Nat.pos_of_ne_zero hh, hw32, hh32, hwmax, hhmax, rfl, rfl, rfl⟩

/-- The tables that only `LAYOUT` writes (R40, R47). -/
structure TablesKept (s t : State) : Prop where
  pw : t.pw = s.pw
  ph : t.ph = s.ph
  band : t.band = s.band

theorem TablesKept.trans {s t u : State} (h : TablesKept s t) (h' : TablesKept t u) : TablesKept s u :=
  ⟨h'.pw.trans h.pw, h'.ph.trans h.ph, h'.band.trans h.band⟩

theorem BodyKept.tablesKept {s u : State} (h : BodyKept s u) : TablesKept s u := by
  obtain ⟨_, _, _, _, rfl⟩ := h
  exact ⟨rfl, rfl, rfl⟩

theorem CoderGoesTo.tablesKept {u t : State} (h : CoderGoesTo u t) : TablesKept u t := by
  obtain ⟨_, -, rfl⟩ | rfl := h <;> exact ⟨rfl, rfl, rfl⟩

/-- Every instruction that does not complete a `LAYOUT` keeps the tables. -/
theorem ExecOutcome.tablesKept {i : Instr} {s t : State} (h : ExecOutcome i s t)
    (hi : i ≠ .layout ∨ t.status.fault = true) : TablesKept s t := by
  cases h with
  | ignored => exact ⟨rfl, rfl, rfl⟩
  | layoutDone hl => exact hi.elim (absurd hl) (fun hf => (nomatch hf))
  | layoutFault => exact ⟨rfl, rfl, rfl⟩
  | planeDone _ hu | planeFault _ hu =>
    obtain ⟨hpw, hph, hband⟩ := hu.tablesKept
    exact ⟨hpw, hph, hband⟩
  | coderStart _ _ ht =>
    obtain ⟨hpw, hph, hband⟩ := ht.tablesKept
    exact ⟨hpw, hph, hband⟩
  | coderFault => exact ⟨rfl, rfl, rfl⟩
  | codewordDone _ hu ht => exact hu.tablesKept.trans ht.tablesKept
  | codewordFault _ hu =>
    obtain ⟨hpw, hph, hband⟩ := hu.tablesKept
    exact ⟨hpw, hph, hband⟩

theorem exec_layoutInv {i : Instr} {s t : State} (hb : i = .layout → s.status.busy = false) (h : s.layoutInv)
    (ht : exec i s = .next t) : t.layoutInv := by
  by_cases hi : i = .layout
  · subst hi
    exact execLayout_layoutInv (hb rfl) ht
  · obtain ⟨hpw, hph, hband⟩ := (exec_outcome ht).tablesKept (.inl hi)
    obtain ⟨hregs, -, -, hcfg, -, -⟩ := operandsUnmodified i s t ht
    intro hl
    rw [(exec_outcome ht).lvalid_eq hi] at hl
    rw [hregs, hcfg, hpw, hph, hband]
    exact h hl

/-- A register write clears `LVALID` where it changes `W` or `H`. -/
theorem RegWritten.layoutInv {s t : State} {off : Nat} (ht : RegWritten s off t) (h : s.layoutInv) : t.layoutInv := by
  intro hl
  obtain ⟨hkept, hdims⟩ := ht
  rw [hkept] at hl
  dsimp only at hl
  split_ifs at hl with hoff
  obtain ⟨hw, hh⟩ := hdims (fun e => hoff (.inl e)) (fun e => hoff (.inr e))
  rw [hw, hh, hkept]
  exact h hl

/-- A decoded codeword is no command. -/
theorem decodeCodeword_ne_layout (c : Ctx) (bits : List Bool) : decodeCodeword c bits ≠ .layout := by
  intro h
  have hcode := (isFirstCodeword_decodeCodeword c bits).isCodeword
  rw [h] at hcode
  cases hcode

theorem StepOutcome.layoutInv {s t : State} (ht : StepOutcome s t) (h : s.layoutInv) : t.layoutInv := by
  cases ht with
  | access => exact h
  | regWritten host hb off v => exact (regWritten_regWrite { s with host := host } off v).layoutInv h
  | illegal => exact h
  | ran host hi ht =>
    refine exec_layoutInv (s := { s with host := host }) (fun hl => ?_) h ht
    obtain ⟨-, hb⟩ | ⟨c, -, rfl⟩ := hi
    · exact hb
    · exact absurd hl (decodeCodeword_ne_layout _ _)
  | reset => exact fun hl => (nomatch hl)

/-- Settles O23: every outcome of a step keeps the invariant. -/
theorem stepKeepsLayout : Obligations.StepKeepsLayout :=
  fun _ _ h ht => (step_outcome ht).layoutInv h

/-! ### `STICKY` (R30) -/

theorem CoderGoesTo.sticky_eq {u t : State} (h : CoderGoesTo u t) : t.status.sticky = u.status.sticky := by
  obtain ⟨_, -, rfl⟩ | rfl := h <;> rfl

theorem ExecOutcome.sticky {i : Instr} {s t : State} (h : ExecOutcome i s t) (hs : s.status.sticky = true) :
    t.status.sticky = true := by
  cases h with
  | ignored => exact hs
  | layoutDone => exact hs
  | layoutFault => rfl
  | planeDone _ hu => simpa [hu.status_eq] using hs
  | planeFault => rfl
  | coderStart _ _ ht => rw [ht.sticky_eq]; exact hs
  | coderFault => rfl
  | codewordDone _ hu ht => rw [ht.sticky_eq, hu.status_eq]; exact hs
  | codewordFault => rfl

theorem StepOutcome.sticky {s t : State} (h : StepOutcome s t) (hr : s.hostResets = false)
    (hs : s.status.sticky = true) : t.status.sticky = true := by
  cases h with
  | access => exact hs
  | regWritten host hb off v => rw [(regWritten_regWrite { s with host := host } off v).kept]; exact hs
  | illegal => rfl
  | ran host _ ht => exact (exec_outcome ht).sticky (s := { s with host := host }) hs
  | reset hr' => rw [hr] at hr'; cases hr'

/-- Settles O25: every outcome of a step but a reset keeps `STICKY`. -/
theorem stickyIsSticky : Obligations.StickyIsSticky :=
  fun _ _ hs hr ht => (step_outcome ht).sticky hr hs

end Sys2Proof.Machine

/-! SUPPORT. `STATUS`: the codes that faults carry, and the invariant of its fields. -/

namespace Sys2Proof.Machine

/-! ### The code of a fault is one of R331 -/

/-- If the run stopped, it stopped with a fault code. -/
def Run.CodeSound : Run → Prop
  | .go _ => True
  | .stop code _ => code ≠ .none

theorem codeSound_go (s : State) : (Run.go s).CodeSound := trivial

theorem codeSound_stop {code : ErrCode} (h : code ≠ .none) (s : State) : (Run.stop code s).CodeSound := h

theorem codeSound_bind {r : Run} {f : State → Run} (hr : r.CodeSound) (hf : ∀ u, (f u).CodeSound) :
    (r.bind f).CodeSound := by
  cases r with
  | go u => exact hf u
  | stop code u => exact hr

theorem codeSound_ite {c : Prop} [Decidable c] {a b : Run} (ha : a.CodeSound) (hb : b.CodeSound) :
    (if c then a else b).CodeSound := by
  split
  · exact ha
  · exact hb

theorem codeSound_forUpTo {body : Nat → State → Run} (n : Nat) (hb : ∀ t u, (body t u).CodeSound) (s : State) :
    (Run.forUpTo n body s).CodeSound := by
  induction n with
  | zero => exact codeSound_go s
  | succ n ih => exact codeSound_bind ih (hb n)

theorem codeSound_skip (n : Nat) (s : State) : (skip n s).CodeSound :=
  codeSound_ite (codeSound_stop (by decide) s) (codeSound_go _)

theorem codeSound_sampRead (a : Word) {k : Sample → State → Run} (hk : ∀ v u, (k v u).CodeSound) (s : State) :
    (sampRead a k s).CodeSound :=
  codeSound_ite (hk _ s) (codeSound_stop (by decide) s)

theorem codeSound_sampWrite (a : Word) (v : Sample) (s : State) : (sampWrite a v s).CodeSound :=
  codeSound_ite (codeSound_go _) (codeSound_stop (by decide) s)

theorem codeSound_emit (v : Int) (s : State) : (emit v s).CodeSound :=
  codeSound_bind (codeSound_sampWrite _ _ s) (fun _ => codeSound_go _)

theorem codeSound_adapt (gain : Int) (x : Nat) (s : State) : (adapt gain x s).CodeSound :=
  codeSound_ite (codeSound_stop (by decide) s) (codeSound_go _)

theorem codeSound_lowValue (escape : Nat) (s : State) : (lowValue escape s).CodeSound :=
  codeSound_bind (codeSound_emit _ s) (codeSound_adapt _ _)

theorem codeSound_highValue (cnt1 : Nat) (s : State) : (highValue cnt1 s).CodeSound :=
  codeSound_bind (codeSound_emit _ s) (codeSound_adapt _ _)

theorem codeSound_zeroRun (rlen : Nat) (s : State) : (zeroRun rlen s).CodeSound :=
  codeSound_ite (codeSound_stop (by decide) s)
    (codeSound_bind (codeSound_forUpTo rlen (fun _ => codeSound_emit 0) s) (fun _ => codeSound_go _))

theorem codeSound_zeroRunCapped (rlen : Nat) (s : State) : (zeroRunCapped rlen s).CodeSound :=
  codeSound_ite (codeSound_stop (by decide) s) (codeSound_zeroRun rlen s)

theorem codeSound_layoutBody (s : State) : (layoutBody s).CodeSound :=
  codeSound_ite (codeSound_stop (by decide) _) (codeSound_ite (codeSound_stop (by decide) _) (codeSound_go _))

theorem codeSound_coderChecks (s : State) : (coderChecks s).CodeSound :=
  codeSound_ite (codeSound_stop (by decide) s) (codeSound_ite (codeSound_stop (by decide) s) (codeSound_go s))

theorem highWidth_error_ne_none {scale : Int} {code : ErrCode} (h : highWidth scale = .error code) : code ≠ .none := by
  unfold highWidth at h
  split_ifs at h <;> cases h <;> decide

theorem codeSound_highConstants (s : State) : (highConstants s).CodeSound := by
  unfold highConstants
  cases h : highWidth s.regs.hscale.toInt with
  | error code => exact codeSound_stop (highWidth_error_ne_none h) s
  | ok nbits => exact codeSound_go _

theorem codeSound_predictRow (r : Nat) (s : State) : (predictRow r s).CodeSound :=
  codeSound_bind
    (codeSound_sampRead _ (fun _ _ => codeSound_bind (codeSound_sampWrite _ _ _) (fun _ => codeSound_go _)) s)
    (codeSound_forUpTo _ (fun _ => codeSound_sampRead _ (fun _ _ =>
      codeSound_bind (codeSound_sampWrite _ _ _)
        (fun _ => codeSound_sampRead _ (fun _ => codeSound_sampWrite _ _) _))))

theorem codeSound_predictBody (s : State) : (predictBody s).CodeSound :=
  codeSound_ite (codeSound_stop (by decide) s)
    (codeSound_ite (codeSound_go s) (codeSound_forUpTo _ codeSound_predictRow _))

theorem codeSound_filterCells (base : Word) (n : Nat) (pitch : Word) (scale : BitVec 64) (s : State) :
    (filterCells base n pitch scale s).CodeSound := by
  unfold filterCells
  split
  · exact codeSound_stop (by decide) s
  · exact codeSound_forUpTo _ (fun _ => codeSound_sampWrite _ _) _

theorem codeSound_filt1dBody (s : State) : (filt1dBody s).CodeSound :=
  codeSound_ite (codeSound_stop (by decide) s)
    (codeSound_ite (codeSound_stop (by decide) s)
      (codeSound_ite (codeSound_stop (by decide) s) (codeSound_filterCells _ _ _ _ s)))

theorem codeSound_idwtRows (p : Plane) (k : Nat) (s : State) : (idwtRows p k s).CodeSound :=
  codeSound_forUpTo _ (fun _ _ => codeSound_filterCells _ _ _ _ _) s

theorem codeSound_idwtCols (p : Plane) (k : Nat) (s : State) : (idwtCols p k s).CodeSound :=
  codeSound_forUpTo _ (fun _ _ => codeSound_filterCells _ _ _ _ _) s

theorem codeSound_idwtBody (p : Plane) (s : State) : (idwtBody p s).CodeSound :=
  codeSound_ite (codeSound_stop (by decide) s)
    (codeSound_ite (codeSound_stop (by decide) s)
      (codeSound_forUpTo 4 (fun k u => codeSound_bind (codeSound_idwtRows p k u) (codeSound_idwtCols p k)) s))

/-! ### What `exec` leaves in `ERR` -/

/-- Either the instruction left `STATUS` alone, or a fault it raised has a code. -/
def FaultHasCode (s t : State) : Prop := t.status = s.status ∨ (t.status.fault = true → t.status.err ≠ .none)

theorem runCommand_faultHasCode {body : State → Run} (hbody : ∀ s, (body s).CodeSound) {s t : State}
    (h : runCommand body s = .next t) : FaultHasCode s t := by
  obtain ⟨-, rfl⟩ | ⟨-, rfl⟩ := runCommand_next.1 h
  · exact .inl rfl
  · have hsound := hbody s.accept
    cases hr : body s.accept with
    | go u => exact .inr (fun hf => (nomatch hf))
    | stop code u => rw [hr] at hsound; exact .inr (fun _ => hsound)

theorem startCoder_faultHasCode {v : Variant} {start : State → Run} (hstart : ∀ s, (start s).CodeSound)
    (hkeeps : StartKeeps start) {s t : State} (h : startCoder v start s = .next t) : FaultHasCode s t := by
  obtain ⟨-, rfl⟩ | ⟨-, ⟨u, hgo, rfl⟩ | ⟨code, u, hstop, rfl⟩⟩ := startCoder_next.1 h
  · exact .inl rfl
  · refine .inr (fun hf => ?_)
    obtain ⟨work, e⟩ | ⟨code, e⟩ := hkeeps s.accept
    · obtain rfl : _ = u := Run.go.inj (e.symm.trans hgo)
      obtain ⟨_, _, hgoes⟩ | hgoes := nextValue_goesTo v { s.accept with work := work, race := s.accept.race.clear } <;>
        rw [hgoes] at hf <;> cases hf
    · exact nomatch e.symm.trans hgo
  · have hsound := hstart s.accept
    rw [hstop] at hsound
    exact .inr (fun _ => hsound)

theorem execCodeword_faultHasCode {at_ : Engine} {len : Nat} {body : State → Run} {after : State → State}
    (hbody : ∀ s, (body s).CodeSound) (hkeeps : RunKeeps body) (hafter : ∀ u, CoderGoesTo u (after u)) {s t : State}
    (h : execCodeword at_ len body after s = .next t) : FaultHasCode s t := by
  have hsound : ((skip len s).bind body).CodeSound := codeSound_bind (codeSound_skip len s) hbody
  have hk : ((skip len s).bind body).EndsIn (BodyKept s) := endsIn_bodyKept_bind (runKeeps_skip len s) hkeeps
  obtain ⟨-, ⟨u, hgo, rfl⟩ | ⟨code, u, hstop, rfl⟩⟩ := execCodeword_next.1 h
  · rw [hgo] at hk
    obtain ⟨e, -, hgoes⟩ | hgoes := hafter u <;> rw [hgoes]
    · exact .inl hk.status_eq
    · exact .inr (fun hf => (nomatch hf))
  · rw [hstop] at hsound
    exact .inr (fun _ => hsound)

theorem exec_faultHasCode {i : Instr} {s t : State} (h : exec i s = .next t) : FaultHasCode s t := by
  cases i with
  | layout => exact runCommand_faultHasCode codeSound_layoutBody h
  | declow =>
    exact startCoder_faultHasCode (fun s => codeSound_bind (codeSound_coderChecks s) (fun _ => codeSound_go _))
      startKeeps_declow h
  | dechigh =>
    exact startCoder_faultHasCode
      (fun s => codeSound_bind (codeSound_bind (codeSound_coderChecks s) codeSound_highConstants)
        (fun _ => codeSound_go _)) startKeeps_dechigh h
  | predict => exact runCommand_faultHasCode codeSound_predictBody h
  | filt1d => exact runCommand_faultHasCode codeSound_filt1dBody h
  | idwt p => exact runCommand_faultHasCode (codeSound_idwtBody p) h
  | lvS | lvL | lvX =>
    exact execCodeword_faultHasCode (codeSound_lowValue _) (runKeeps_lowValue _) (afterValue_goesTo .low) h
  | lrS | lrL | lrX =>
    exact execCodeword_faultHasCode (codeSound_zeroRun _) (runKeeps_zeroRun _) (nextValue_goesTo .low) h
  | hvS | hvL | hvX =>
    exact execCodeword_faultHasCode (codeSound_highValue _) (runKeeps_highValue _) (afterValue_goesTo .high) h
  | hrS | hrL | hrX8 | hrX16 =>
    exact execCodeword_faultHasCode (codeSound_zeroRunCapped _) (runKeeps_zeroRunCapped _) (nextValue_goesTo .high) h

/-! ### The invariant of `STATUS` (R30) -/

theorem exec_err_ne_none {i : Instr} {s t : State} (hs : s.statusInv) (h : exec i s = .next t)
    (hf : t.status.fault = true) : t.status.err ≠ .none := by
  obtain ⟨-, -, -, -, herr, -⟩ := hs
  obtain hsame | hcode := exec_faultHasCode h
  · rw [hsame] at hf ⊢
    exact herr.1 hf
  · exact hcode hf

/-- A codeword runs only where its command waits for it (R102). -/
theorem exec_codeword_engine {i : Instr} {s t : State} (hi : i.isCodeword = true) (h : exec i s = .next t) :
    s.engine = engineOf i := by
  cases i with
  | layout | declow | dechigh | predict | filt1d | idwt => cases hi
  | _ => exact (execCodeword_next.1 h).1

theorem engineOf_ne_idle {i : Instr} (hi : i.isCodeword = true) : engineOf i ≠ .idle := by
  cases i with
  | layout | declow | dechigh | predict | filt1d | idwt => cases hi
  | _ => exact fun h => (nomatch h)

/-- While a command runs, `BUSY` is the only one of the four that is set (R30). -/
theorem State.statusInv.of_running {s : State} (h : s.statusInv) (he : s.engine ≠ .idle) :
    s.status.busy = true ∧ s.status.done = false ∧ s.status.fault = false ∧ s.status.err = .none := by
  obtain ⟨hbusy, hdone, hfault, -, herr, -⟩ := h
  have hb := hbusy.2 he
  have hf : s.status.fault = false := by simpa [hb] using hfault
  exact ⟨hb, by simpa [hb] using hdone, hf, by simpa [hf] using herr⟩

/-- The fields of `STATUS` as R30 has them, with a command running or one completed. -/
structure StatusHolds (t : State) : Prop where
  inv : t.statusInv
  flag : (t.status.busy || t.status.done || t.status.fault) = true

theorem statusHolds_complete (u : State) : StatusHolds u.complete :=
  ⟨by simp [State.statusInv], by simp⟩

theorem statusHolds_retire (u : State) : StatusHolds u.retire :=
  ⟨by simp [State.statusInv], by simp⟩

theorem statusHolds_raise (u : State) {code : ErrCode} (h : code ≠ .none) : StatusHolds (u.raise code) :=
  ⟨by simp [State.statusInv, h], by simp⟩

theorem statusHolds_running {t : State} (he : t.engine ≠ .idle) (hb : t.status.busy = true)
    (hd : t.status.done = false) (hf : t.status.fault = false) (herr : t.status.err = .none) : StatusHolds t :=
  ⟨by simp [State.statusInv, he, hb, hd, hf, herr], by simp [hb]⟩

theorem CoderGoesTo.statusHolds {u t : State} (h : CoderGoesTo u t) (hb : u.status.busy = true)
    (hd : u.status.done = false) (hf : u.status.fault = false) (herr : u.status.err = .none) : StatusHolds t := by
  obtain ⟨e, he, rfl⟩ | rfl := h
  · exact statusHolds_running he hb hd hf herr
  · exact statusHolds_retire u

/-- Every instruction that is not ignored leaves the invariant of `STATUS`. -/
theorem exec_statusHolds {i : Instr} {s t : State} (hs : s.statusInv)
    (hbusy : i.isCodeword = false → s.status.busy = false) (h : exec i s = .next t) : StatusHolds t := by
  have hcode := exec_err_ne_none hs h
  cases exec_outcome h with
  | ignored hi hb => simp [hbusy hi] at hb
  | layoutDone => exact statusHolds_complete _
  | layoutFault | planeFault | coderFault | codewordFault => exact statusHolds_raise _ (hcode rfl)
  | planeDone => exact statusHolds_complete _
  | coderStart _ _ ht => exact ht.statusHolds rfl rfl rfl rfl
  | codewordDone hi hu ht =>
    have he : s.engine ≠ .idle := by rw [exec_codeword_engine hi h]; exact engineOf_ne_idle hi
    obtain ⟨hb, hd, hf, herr⟩ := hs.of_running he
    exact ht.statusHolds (by rw [hu.status_eq, hb]) (by rw [hu.status_eq, hd]) (by rw [hu.status_eq, hf])
      (by rw [hu.status_eq, herr])

theorem statusInv_congr {s t : State} (h : s.statusInv) (he : t.engine = s.engine)
    (hst : ∃ b, t.status = { s.status with lvalid := b }) : t.statusInv := by
  obtain ⟨b, hb⟩ := hst
  rw [State.statusInv, he, hb]
  exact h

theorem StepOutcome.statusInv {s t : State} (h : StepOutcome s t) (hs : s.statusInv) :
    t.statusInv ∧
      ((s.status.busy || s.status.done || s.status.fault) = true → s.hostResets = false →
        (t.status.busy || t.status.done || t.status.fault) = true) := by
  cases h with
  | access => exact ⟨hs, fun hflag _ => hflag⟩
  | regWritten host hb off v =>
    obtain ⟨hkept, -⟩ := regWritten_regWrite { s with host := host } off v
    rw [hkept]
    exact ⟨statusInv_congr hs rfl ⟨_, rfl⟩, fun hflag _ => hflag⟩
  | illegal =>
    obtain ⟨hinv, hflag⟩ := statusHolds_raise (State.accept { s with host := _ }) (code := .illegalCmd) (by decide)
    exact ⟨hinv, fun _ _ => hflag⟩
  | @ran host i hi t ht =>
    have hbusy : i.isCodeword = false → s.status.busy = false := fun hc => by
      obtain ⟨-, hb⟩ | ⟨c, -, rfl⟩ := hi
      · exact hb
      · rw [(isFirstCodeword_decodeCodeword _ _).isCodeword] at hc
        cases hc
    obtain ⟨hinv, hflag⟩ := exec_statusHolds (s := { s with host := host }) hs hbusy ht
    exact ⟨hinv, fun _ _ => hflag⟩
  | reset hr => exact ⟨by simp [State.statusInv, Status.reset], fun _ h => by rw [hr] at h; cases h⟩

/-- Settles O21: every outcome of a step keeps the invariant, and all but a reset keep one of the three flags. -/
theorem stepKeepsStatus : Obligations.StepKeepsStatus :=
  fun _ _ hs ht => (step_outcome ht).statusInv hs

/-! ### Fault completion (R340) -/

/-- A next state with `FAULT` set is one in which the instruction raised a fault. -/
theorem ExecOutcome.fault_cases {i : Instr} {s t : State} (h : ExecOutcome i s t) (hs : s.status.busy = true →
    s.status.fault = false) (hbusy : s.status.busy = i.isCodeword) (hf : t.status.fault = true) :
    ∃ u code, t = State.raise u code ∧ u.ret = s.ret := by
  cases h with
  | ignored hi hb => rw [hs hb] at hf; cases hf
  | layoutDone | planeDone => cases hf
  | layoutFault => exact ⟨_, _, rfl, rfl⟩
  | planeFault _ hu => exact ⟨_, _, rfl, hu.ret_eq⟩
  | coderStart _ _ ht => obtain ⟨_, -, rfl⟩ | rfl := ht <;> cases hf
  | coderFault => exact ⟨_, _, rfl, rfl⟩
  | codewordDone hi hu ht =>
    obtain ⟨_, -, rfl⟩ | rfl := ht
    · have hf' : s.status.fault = true := by rw [← hu.status_eq]; exact hf
      rw [hs (hbusy.trans hi)] at hf'
      cases hf'
    · cases hf
  | codewordFault _ hu => exact ⟨_, _, rfl, hu.ret_eq⟩

/-- Settles O27: the fault was raised; `LVALID`, the operands and the tables are as their own lemmas say. -/
theorem faultCompletion : Obligations.FaultCompletion := by
  intro i s t hs hbusy h hf
  have hrunning : s.status.busy = i.isCodeword := by
    cases hi : i.isCodeword with
    | false => exact hbusy hi
    | true =>
      have he : s.engine ≠ .idle := by rw [exec_codeword_engine hi h]; exact engineOf_ne_idle hi
      exact (hs.of_running he).1
  have hnofault : s.status.busy = true → s.status.fault = false := fun hb => by
    obtain ⟨-, -, hfault, -⟩ := hs
    simpa [hb] using hfault
  have hlvalid : t.status.lvalid = if i = .layout then false else s.status.lvalid := by
    split_ifs with hi
    · subst hi
      rw [execLayout_lvalid (hbusy rfl) h, hf]
      rfl
    · exact (exec_outcome h).lvalid_eq hi
  obtain ⟨hregs, hscale, -⟩ := operandsUnmodified i s t h
  obtain ⟨hpw, hph, hband⟩ := (exec_outcome h).tablesKept (.inr hf)
  have hcode := exec_err_ne_none hs h hf
  obtain ⟨u, code, rfl, hret⟩ := (exec_outcome h).fault_cases hnofault hrunning hf
  exact ⟨hcode, rfl, rfl, rfl, hlvalid, rfl, hret, hregs, hscale, hpw, hph, hband⟩

end Sys2Proof.Machine

/-! SUPPORT. The codewords: one coefficient, a run of zeros, and the loop between them (R163 to R178, R205 to R219). -/

namespace Sys2Proof.Machine

/-! ### The cursor (R163) -/

/-- `j` and `row` are the position of coefficient `i`. -/
structure State.CursorHolds (s : State) : Prop where
  j : s.work.j.toNat = s.work.i.toNat % s.regs.width.toNat
  row : s.work.row = BitVec.ofNat 32 (s.work.i.toNat / s.regs.width.toNat) * s.regs.stride

/-- Where the cursor holds, the next coefficient goes to the address of its number. -/
theorem State.CursorHolds.emitAddr_eq {s : State} (h : s.CursorHolds) : s.emitAddr = s.coeffAddr s.work.i.toNat := by
  have hj : s.work.j = BitVec.ofNat 32 (s.work.i.toNat % s.regs.width.toNat) := by
    rw [← h.j, BitVec.ofNat_toNat, BitVec.setWidth_eq]
  rw [State.emitAddr, State.coeffAddr, h.row, ← hj]

theorem toNat_add_one {x : Word} {n : Nat} (h : x.toNat < n) (hn : n < 2 ^ 32) : (x + 1#32).toNat = x.toNat + 1 := by
  rw [BitVec.toNat_add, BitVec.toNat_ofNat]
  omega

/-- The row and the column of the next number, at the end of a row and inside one. -/
theorem succ_div_mod_of_end {i w : Nat} (hw : 0 < w) (h : i % w + 1 = w) : (i + 1) / w = i / w + 1 ∧ (i + 1) % w = 0 := by
  have hi := Nat.div_add_mod i w
  have e : i + 1 = w * (i / w + 1) := by rw [Nat.mul_succ]; omega
  rw [e]
  exact ⟨Nat.mul_div_cancel_left _ hw, Nat.mul_mod_right _ _⟩

theorem succ_div_mod_of_inside {i w : Nat} (h : i % w + 1 < w) : (i + 1) / w = i / w ∧ (i + 1) % w = i % w + 1 := by
  have hi := Nat.div_add_mod i w
  have e : i + 1 = w * (i / w) + (i % w + 1) := by omega
  rw [e]
  refine ⟨?_, ?_⟩
  · rw [Nat.mul_add_div (by omega), Nat.div_eq_of_lt h, Nat.add_zero]
  · rw [Nat.mul_add_mod, Nat.mod_eq_of_lt h]

/-- The cursor moves to the next coefficient. -/
theorem State.CursorHolds.advance {s u : State} (h : s.CursorHolds) (hi : s.work.i.toNat < s.regs.size.toNat)
    (hw : 0 < s.regs.width.toNat) (hregs : u.regs = s.regs)
    (hu : ∃ state flag pos nbits length, u.work =
      { s.work.advance s.regs.width s.regs.stride with
        state := state, flag := flag, pos := pos, nbits := nbits, length := length }) :
    u.work.i.toNat = s.work.i.toNat + 1 ∧ u.CursorHolds := by
  obtain ⟨_, _, _, _, _, hwork⟩ := hu
  have hj := h.j
  have hjlt : s.work.j.toNat < s.regs.width.toNat := hj ▸ Nat.mod_lt _ hw
  have hi1 : (s.work.i + 1#32).toNat = s.work.i.toNat + 1 := toNat_add_one hi s.regs.size.isLt
  have hj1 : (s.work.j + 1#32).toNat = s.work.j.toNat + 1 := toNat_add_one hjlt s.regs.width.isLt
  have hui : u.work.i = s.work.i + 1#32 := by rw [hwork]; exact advance_i _ _ _
  refine ⟨by rw [hui, hi1], ?_⟩
  by_cases hend : s.work.j + 1#32 = s.regs.width
  · have hlast : s.work.i.toNat % s.regs.width.toNat + 1 = s.regs.width.toNat := by rw [← hj, ← hj1, hend]
    obtain ⟨hdiv, hmod⟩ := succ_div_mod_of_end hw hlast
    refine ⟨?_, ?_⟩ <;> rw [hui, hi1, hregs, hwork, Work.advance, if_pos hend]
    · exact hmod.symm
    · rw [hdiv, h.row, BitVec.ofNat_add, BitVec.add_mul, BitVec.one_mul]
  · have hinside : s.work.i.toNat % s.regs.width.toNat + 1 < s.regs.width.toNat := by
      have hne : s.work.j.toNat + 1 ≠ s.regs.width.toNat := fun e => hend (BitVec.eq_of_toNat_eq (hj1.trans e))
      omega
    obtain ⟨hdiv, hmod⟩ := succ_div_mod_of_inside hinside
    refine ⟨?_, ?_⟩ <;> rw [hui, hi1, hregs, hwork, Work.advance, if_neg hend]
    · rw [hmod, ← hj]; exact hj1
    · rw [hdiv]; exact h.row

/-! ### A codeword whose bits are there (R98, R332) -/

section Read

variable {at_ : Engine} {len : Nat} {body : State → Run} {after : State → State} {s u : State}

theorem execCodeword_go (he : s.engine = at_) (hbits : s.work.pos + len ≤ s.limit)
    (h : body (s.withPos (s.work.pos + len)) = .go u) : execCodeword at_ len body after s = .next (after u) := by
  have h' : body { s with work := { s.work with pos := s.work.pos + len } } = .go u := h
  rw [execCodeword_read he hbits, h']

theorem execCodeword_stop {code : ErrCode} (he : s.engine = at_) (hbits : s.work.pos + len ≤ s.limit)
    (h : body (s.withPos (s.work.pos + len)) = .stop code u) :
    execCodeword at_ len body after s = .next (u.raise code) := by
  have h' : body { s with work := { s.work with pos := s.work.pos + len } } = .stop code u := h
  rw [execCodeword_read he hbits, h']

end Read

/-! ### One coefficient (R163, R166, R167, R207, R208) -/

/-- The pseudocode of a value codeword after its bits are read, by the variant. -/
def valueBody : Variant → Nat → State → Run
  | .low => lowValue
  | .high => highValue

/-- The adaptation gain of a variant (R166, R208). -/
def State.gain (s : State) : Variant → Int
  | .low => Config.lowGain
  | .high => s.regs.hd.toInt

/-- The coefficient of `x` in a variant (R167, R207). -/
def State.coefOf (s : State) (x : Nat) : Variant → Int
  | .low => lowCoef x
  | .high => highCoef s.regs.hc.toInt x

theorem valueBody_eq (v : Variant) (m : Nat) (s : State) :
    valueBody v m s = (emit (s.coefOf (m + s.work.flag.toNat) v) s).bind
      (adapt (s.gain v) (m + s.work.flag.toNat)) := by
  cases v with
  | low => rfl
  | high => rw [valueBody, highValue, Nat.add_comm]; rfl

/-- The state after a value codeword of `len` bits has stored its coefficient and moved the cursor. -/
def State.stored (s : State) (len : Nat) (coef : Int) : State :=
  { s.storeSample s.emitAddr (s.coefSample coef) with
    work := { s.work.advance s.regs.width s.regs.stride with pos := s.work.pos + len } }

/-- The state after a value codeword has updated `state` and `flag`, too. -/
def State.valueDone (s : State) (len : Nat) (coef new : Int) : State :=
  { s.stored len coef with work := { (s.stored len coef).work with state := BitVec.ofInt 32 new, flag := false } }

theorem withPos_advance (wk : Work) (width stride : Word) (pos : Nat) :
    Work.advance { wk with pos := pos } width stride = { wk.advance width stride with pos := pos } := by
  unfold Work.advance
  dsimp only
  split_ifs <;> rfl

section Value

variable {s : State} {v : Variant} {len m : Nat}

theorem emit_of_lt (coef : Int) (h : s.emitAddr.toNat < s.cfg.pmSize) :
    emit coef (s.withPos (s.work.pos + len)) = .go (s.stored len coef) := by
  obtain ⟨-, e⟩ | ⟨hge, -⟩ := emit_cases coef (s.withPos (s.work.pos + len))
  · rw [e, State.stored, ← withPos_advance]
    rfl
  · exact absurd h (not_lt.2 hge)

theorem emit_of_ge (coef : Int) (h : s.cfg.pmSize ≤ s.emitAddr.toNat) :
    emit coef (s.withPos (s.work.pos + len)) = .stop .memBounds (s.withPos (s.work.pos + len)) := by
  obtain ⟨hlt, -⟩ | ⟨-, e⟩ := emit_cases coef (s.withPos (s.work.pos + len))
  · exact absurd h (not_le.2 hlt)
  · exact e

theorem stored_state (len : Nat) (coef : Int) : (s.stored len coef).work.state = s.work.state :=
  advance_state _ _ _

theorem valueBody_of_lt (v : Variant) (m : Nat) (h : s.emitAddr.toNat < s.cfg.pmSize) :
    valueBody v m (s.withPos (s.work.pos + len)) =
      adapt (s.gain v) (m + s.work.flag.toNat) (s.stored len (s.coefOf (m + s.work.flag.toNat) v)) := by
  rw [valueBody_eq, emit_of_lt (s := s) _ h, bind_go]
  rfl

variable (he : s.engine = .value v) (hbits : s.work.pos + len ≤ s.limit)

include he hbits

/-- The cell of the coefficient does not exist (R66). -/
theorem execValue_beyond (h : s.cfg.pmSize ≤ s.emitAddr.toNat) :
    execCodeword (.value v) len (valueBody v m) (State.afterValue v) s =
      .next ((s.withPos (s.work.pos + len)).raise .memBounds) :=
  execCodeword_stop he hbits (by rw [valueBody_eq, emit_of_ge _ h, bind_stop])

/-- The new state is in its range: the coefficient is stored and the loop goes on. -/
theorem execValue_done (h : s.emitAddr.toNat < s.cfg.pmSize)
    (h0 : 0 ≤ adapted (s.gain v) s.work.state.toNat (m + s.work.flag.toNat))
    (hmax : adapted (s.gain v) s.work.state.toNat (m + s.work.flag.toNat) ≤ Config.stateMax) :
    execCodeword (.value v) len (valueBody v m) (State.afterValue v) s =
      .next ((s.valueDone len (s.coefOf (m + s.work.flag.toNat) v)
        (adapted (s.gain v) s.work.state.toNat (m + s.work.flag.toNat))).afterValue v) := by
  refine execCodeword_go he hbits ?_
  rw [valueBody_of_lt v m h, adapt, stored_state, if_neg (by omega)]
  rfl

/-- The new state leaves its range after the coefficient has been stored (R208). -/
theorem execValue_range (h : s.emitAddr.toNat < s.cfg.pmSize)
    (hnew : adapted (s.gain v) s.work.state.toNat (m + s.work.flag.toNat) < 0 ∨
      Config.stateMax < adapted (s.gain v) s.work.state.toNat (m + s.work.flag.toNat)) :
    execCodeword (.value v) len (valueBody v m) (State.afterValue v) s =
      .next ((s.stored len (s.coefOf (m + s.work.flag.toNat) v)).raise .idStateRange) := by
  refine execCodeword_stop he hbits ?_
  rw [valueBody_of_lt v m h, adapt, stored_state, if_pos hnew]

end Value

/-- All a value codeword can do where its command waits for it. -/
theorem execValue_cases {s t : State} {v : Variant} {len m : Nat}
    (h : execCodeword (.value v) len (valueBody v m) (State.afterValue v) s = .next t) :
    (∃ pos code, code ≠ .idStateRange ∧ t = (s.withPos pos).raise code) ∨
    (s.emitAddr.toNat < s.cfg.pmSize ∧ s.work.pos + len ≤ s.limit ∧
      let x := m + s.work.flag.toNat
      let new := adapted (s.gain v) s.work.state.toNat x
      ((new < 0 ∨ Config.stateMax < new) ∧ t = (s.stored len (s.coefOf x v)).raise .idStateRange) ∨
      (0 ≤ new ∧ new ≤ Config.stateMax ∧ t = (s.valueDone len (s.coefOf x v) new).afterValue v)) := by
  have he : s.engine = .value v := (execCodeword_next.1 h).1
  rcases Nat.lt_or_ge s.limit (s.work.pos + len) with hover | hbits
  · rw [execCodeword_exhausted he hover] at h
    cases h
    exact .inl ⟨s.work.pos, .idBitsExhausted, by decide, rfl⟩
  rcases Nat.lt_or_ge s.emitAddr.toNat s.cfg.pmSize with hlt | hge
  · refine .inr ⟨hlt, hbits, ?_⟩
    by_cases hnew : adapted (s.gain v) s.work.state.toNat (m + s.work.flag.toNat) < 0 ∨
      Config.stateMax < adapted (s.gain v) s.work.state.toNat (m + s.work.flag.toNat)
    · rw [execValue_range he hbits hlt hnew] at h
      cases h
      exact .inl ⟨hnew, rfl⟩
    · have h0 := not_lt.1 (not_or.1 hnew).1
      have hmax := not_lt.1 (not_or.1 hnew).2
      rw [execValue_done he hbits hlt h0 hmax] at h
      cases h
      exact .inr ⟨h0, hmax, rfl⟩
  · rw [execValue_beyond he hbits hge] at h
    cases h
    exact .inl ⟨s.work.pos + len, .memBounds, by decide, rfl⟩

/-! ### A run of zeros (R177, R218) -/

/-- What the host's races leave of a zero (R177; log entry 10). -/
def State.zeroSample (s : State) (k : Nat) : Sample := if s.race.raced then Config.raceSample s.race.draws k else 0#16

/-- The writes of the next `m` zeros. -/
def State.zeroWrites (s : State) (m : Nat) : List (Nat × Sample) :=
  (List.range m).map (fun k => ((s.coeffAddr (s.work.i.toNat + k)).toNat, s.zeroSample (s.work.i.toNat + k)))

theorem zeroWrites_succ (s : State) (m : Nat) :
    s.zeroWrites (m + 1) =
      s.zeroWrites m ++ [((s.coeffAddr (s.work.i.toNat + m)).toNat, s.zeroSample (s.work.i.toNat + m))] := by
  rw [State.zeroWrites, List.range_succ, List.map_append]
  rfl

/-- `u` is where a run started in `s` stands after its first `m` zeros, whose cells all exist. -/
structure ZerosAt (s : State) (m : Nat) (u : State) : Prop where
  inside : ∀ k, k < m → (s.coeffAddr (s.work.i.toNat + k)).toNat < s.cfg.pmSize
  kept : u = { s with
    pm := u.pm, pmLog := u.pmLog, work := { s.work with i := u.work.i, j := u.work.j, row := u.work.row } }
  i : u.work.i.toNat = s.work.i.toNat + m
  cursor : u.CursorHolds
  pm : u.pm = s.pm.replay (s.zeroWrites m)

theorem ZerosAt.regs_eq {s u : State} {m : Nat} (h : ZerosAt s m u) : u.regs = s.regs := by rw [h.kept]

theorem ZerosAt.cfg_eq {s u : State} {m : Nat} (h : ZerosAt s m u) : u.cfg = s.cfg := by rw [h.kept]

theorem ZerosAt.race_eq {s u : State} {m : Nat} (h : ZerosAt s m u) : u.race = s.race := by rw [h.kept]

theorem zerosAt_zero {s : State} (h : s.CursorHolds) : ZerosAt s 0 s where
  inside k hk := absurd hk (Nat.not_lt_zero k)
  kept := rfl
  i := rfl
  cursor := h
  pm := rfl

/-- The next zero goes to the address of its number. -/
theorem ZerosAt.emitAddr_eq {s u : State} {m : Nat} (h : ZerosAt s m u) :
    u.emitAddr = s.coeffAddr (s.work.i.toNat + m) := by
  rw [h.cursor.emitAddr_eq, h.i, State.coeffAddr, h.regs_eq, State.coeffAddr]

theorem ZerosAt.coefSample_eq {s u : State} {m : Nat} (h : ZerosAt s m u) :
    u.coefSample 0 = s.zeroSample (s.work.i.toNat + m) := by
  rw [State.coefSample, State.zeroSample, h.race_eq, h.i]
  rfl

/-- How a run that is to store `n` zeros ends. -/
inductive ZerosRan (s : State) (n : Nat) : Run → Prop
  /-- Every zero has its cell. -/
  | all {u : State} (h : ZerosAt s n u) : ZerosRan s n (.go u)
  /-- Zero `m` is the first without a cell (R66). -/
  | beyond {m : Nat} {u : State} (hm : m < n)
      (hge : s.cfg.pmSize ≤ (s.coeffAddr (s.work.i.toNat + m)).toNat) (h : ZerosAt s m u) :
      ZerosRan s n (.stop .memBounds u)

/-- One more zero, inside the region. -/
theorem ZerosAt.emit {s u : State} {m : Nat} (h : ZerosAt s m u) (hm : s.work.i.toNat + m < s.regs.size.toNat)
    (hw : 0 < s.regs.width.toNat) : ZerosRan s (m + 1) (Machine.emit 0 u) := by
  obtain ⟨hlt, e⟩ | ⟨hge, e⟩ := emit_cases 0 u
  · rw [e, h.coefSample_eq]
    rw [h.cfg_eq] at hlt
    have haddr := h.emitAddr_eq
    obtain ⟨hi, hcursor⟩ := h.cursor.advance (u := { u.storeSample u.emitAddr (s.zeroSample (s.work.i.toNat + m)) with
      work := u.work.advance u.regs.width u.regs.stride })
      (by rw [h.i, h.regs_eq]; exact hm) (by rwa [h.regs_eq]) rfl ⟨_, _, _, _, _, rfl⟩
    refine .all ⟨fun k hk => ?_, ?_, by rw [hi, h.i, Nat.add_assoc], hcursor, ?_⟩
    · obtain hk | rfl := Nat.lt_succ_iff_lt_or_eq.1 hk
      · exact h.inside k hk
      · rwa [← haddr]
    · have hwork : u.work.advance u.regs.width u.regs.stride =
          { u.work with
            i := (u.work.advance u.regs.width u.regs.stride).i, j := (u.work.advance u.regs.width u.regs.stride).j
            row := (u.work.advance u.regs.width u.regs.stride).row } := by
        unfold Work.advance
        split_ifs <;> rfl
      rw [hwork]
      generalize u.work.advance u.regs.width u.regs.stride = wk
      rw [h.kept]
      rfl
    · rw [zeroWrites_succ, Memory.replay_append, ← h.pm, ← haddr]
      rfl
  · rw [e]
    exact .beyond (Nat.lt_succ_self m) (by rw [← h.emitAddr_eq, ← h.cfg_eq]; exact hge) h

/-- All that storing zeros inside the region can do. -/
theorem zerosRan_emitZeros {s : State} (h : s.CursorHolds) (hw : 0 < s.regs.width.toNat) (n : Nat)
    (hn : s.work.i.toNat + n ≤ s.regs.size.toNat) : ZerosRan s n (emitZeros n s) := by
  induction n with
  | zero => exact .all (zerosAt_zero h)
  | succ n ih =>
    have hran : ZerosRan s n (Run.forUpTo n (fun _ => emit 0) s) := ih (by omega)
    rw [emitZeros, forUpTo_succ]
    generalize Run.forUpTo n (fun _ => emit 0) s = run at hran
    cases hran with
    | all hat => exact hat.emit (by omega) hw
    | beyond hm hge hat => exact .beyond (hm.trans (Nat.lt_succ_self n)) hge hat

/-- The pseudocode of a run codeword after its bits are read, by the variant. -/
def runBody : Variant → Nat → State → Run
  | .low => zeroRun
  | .high => zeroRunCapped

/-- A run of the high variant above the ceiling (R218). -/
theorem runBody_tooLong {rlen : Nat} (s : State) (h : 0xFFFF < rlen) :
    runBody .high rlen s = .stop .idRunTooLong s := if_pos h

/-- Past the ceiling's test both variants are the same. -/
theorem runBody_eq {v : Variant} {rlen : Nat} (s : State) (h : v = .low ∨ rlen ≤ 0xFFFF) :
    runBody v rlen s = zeroRun rlen s := by
  cases v with
  | low => rfl
  | high =>
    have hle : ¬Config.runMax < rlen := not_lt.2 (h.resolve_left (by simp))
    exact if_neg hle

theorem zeroRun_of_le {rlen : Nat} {s : State} (h : s.work.i.toNat + rlen ≤ s.regs.size.toNat) :
    zeroRun rlen s = (emitZeros rlen s).bind (fun s => .go (afterZeros rlen s)) := if_neg (by omega)

/-- All a run codeword can do where its command waits for it. -/
theorem execRun_cases {s t : State} {v : Variant} {len rlen : Nat} (hcursor : s.CursorHolds)
    (hw : 0 < s.regs.width.toNat)
    (h : execCodeword (.run v) len (runBody v rlen) (State.nextValue v) s = .next t) :
    (∃ pos code, code ≠ .idStateRange ∧ t = (s.withPos pos).raise code) ∨
    (s.work.pos + len ≤ s.limit ∧ s.work.i.toNat + rlen ≤ s.regs.size.toNat ∧
      ((∃ m u, m < rlen ∧ ZerosAt (s.withPos (s.work.pos + len)) m u ∧ t = u.raise .memBounds) ∨
       (∃ u, ZerosAt (s.withPos (s.work.pos + len)) rlen u ∧ t = (afterZeros rlen u).nextValue v))) := by
  have he : s.engine = .run v := (execCodeword_next.1 h).1
  rcases Nat.lt_or_ge s.limit (s.work.pos + len) with hover | hbits
  · rw [execCodeword_exhausted he hover] at h
    cases h
    exact .inl ⟨s.work.pos, .idBitsExhausted, by decide, rfl⟩
  by_cases hlong : v = .low ∨ rlen ≤ 0xFFFF
  · have hbody := runBody_eq (s.withPos (s.work.pos + len)) hlong
    rcases Nat.lt_or_ge s.regs.size.toNat (s.work.i.toNat + rlen) with hsize | hfit
    · rw [execCodeword_stop he hbits (hbody.trans (if_pos hsize))] at h
      cases h
      exact .inl ⟨s.work.pos + len, .idRunOverrun, by decide, rfl⟩
    · refine .inr ⟨hbits, hfit, ?_⟩
      rw [zeroRun_of_le (s := s.withPos (s.work.pos + len)) hfit] at hbody
      have hran := zerosRan_emitZeros (s := s.withPos (s.work.pos + len)) ⟨hcursor.j, hcursor.row⟩ hw rlen hfit
      generalize emitZeros rlen (s.withPos (s.work.pos + len)) = run at hran hbody
      cases hran with
      | all hat =>
        rw [execCodeword_go he hbits hbody] at h
        cases h
        exact .inr ⟨_, hat, rfl⟩
      | beyond hm hge hat =>
        rw [execCodeword_stop he hbits hbody] at h
        cases h
        exact .inl ⟨_, _, hm, hat, rfl⟩
  · obtain ⟨hv, hlen⟩ := not_or.1 hlong
    obtain rfl : v = .high := by cases v <;> simp at hv ⊢
    rw [execCodeword_stop he hbits (runBody_tooLong _ (not_le.1 hlen))] at h
    cases h
    exact .inl ⟨s.work.pos + len, .idRunTooLong, by decide, rfl⟩

/-! ### Which shell a codeword runs in (R102, R103) -/

/-- Every codeword is a value or a run of one of the variants. -/
theorem exec_codeword_shape {i : Instr} (s : State) (hi : i.isCodeword = true) :
    (∃ v len m, exec i s = execCodeword (.value v) len (valueBody v m) (State.afterValue v) s) ∨
    (∃ v len rlen, exec i s = execCodeword (.run v) len (runBody v rlen) (State.nextValue v) s) := by
  cases i with
  | layout | declow | dechigh | predict | filt1d | idwt => cases hi
  | lvS | lvL | lvX => exact .inl ⟨.low, _, _, rfl⟩
  | hvS | hvL | hvX => exact .inl ⟨.high, _, _, rfl⟩
  | lrS | lrL | lrX => exact .inr ⟨.low, _, _, rfl⟩
  | hrS | hrL | hrX8 | hrX16 => exact .inr ⟨.high, _, _, rfl⟩

end Sys2Proof.Machine

/-! SUPPORT. The start of `DECHIGH`, the invariant of a running coder command, and what a codeword can do (R163 to R180, R203,
R221). -/

namespace Sys2Proof.Machine

/-! ### The constants of `DECHIGH` (R203) -/

/-- `nbits` is one more than the bit length of `t`, between 1 and 16 (R203). -/
structure IsHighWidth (scale : Int) (nbits : Nat) : Prop where
  pos : 1 ≤ nbits
  le : nbits ≤ 16
  lt : scaleBits scale < 2 ^ (nbits - 1)
  ge : 2 ≤ nbits → 2 ^ (nbits - 2) ≤ scaleBits scale

/-- Every width that `DECHIGH` accepts is that of R203. -/
theorem isHighWidth_of_ok {scale : Int} {nbits : Nat} (h : highWidth scale = .ok nbits) : IsHighWidth scale nbits := by
  unfold highWidth at h
  split_ifs at h with hzero hbits hrange
  · cases h
    exact ⟨by omega, by omega, by rw [hbits]; decide, by omega⟩
  · obtain rfl := Except.ok.inj h
    rw [clz32, if_neg hbits] at hrange ⊢
    have hlog : 33 - (31 - Nat.log2 (scaleBits scale)) = Nat.log2 (scaleBits scale) + 2 := by omega
    rw [hlog]
    exact ⟨by omega, by omega, Nat.lt_log2_self, fun _ => Nat.log2_self_le hbits⟩

/-- The scales of R203 are accepted. -/
theorem highWidth_of_legal {scale : Int} (h : (-32768 ≤ scale ∧ scale ≤ -1) ∨ (1 ≤ scale ∧ scale ≤ 32767)) :
    ∃ nbits, highWidth scale = .ok nbits := by
  unfold highWidth
  rw [if_neg (by omega)]
  by_cases hbits : scaleBits scale = 0
  · exact ⟨1, if_pos hbits⟩
  · have hlt : scaleBits scale < 2 ^ 15 := by
      unfold scaleBits
      split_ifs <;> omega
    have hlog : Nat.log2 (scaleBits scale) < 15 := (Nat.log2_lt hbits).2 hlt
    rw [if_neg hbits, clz32, if_neg hbits, if_neg (by omega)]
    exact ⟨_, rfl⟩

theorem highConstants_go {s : State} {nbits : Nat} (h : highWidth s.regs.hscale.toInt = .ok nbits) :
    highConstants s = .go { s with work := { s.work with nbits := nbits, length := 25 - nbits } } := by
  unfold highConstants
  rw [h]
  rfl

/-- A `DECHIGH` that passes its checks comes to its loop test with its registers initialised (R204, R205). -/
theorem exec_dechigh_of_legal {s : State} {nbits : Nat} (hb : s.status.busy = false)
    (hwindow : ¬(s.regs.bsend.toNat < s.regs.bsptr.toNat ∨ s.cfg.bsSize < s.regs.bsend.toNat))
    (hwidth : ¬(0 < s.regs.size.toNat ∧ s.regs.width.toNat = 0)) (h : highWidth s.regs.hscale.toInt = .ok nbits) :
    exec .dechigh s =
      .next (State.nextValue .high (State.coderInit { s.accept with
        work := { s.work with nbits := nbits, length := 25 - nbits } })) := by
  have hgo : coderChecks s.accept = .go s.accept := coderChecks_go hwindow hwidth
  rw [exec_dechigh]
  refine startCoder_go hb ?_
  rw [hgo, bind_go, highConstants_go (s := s.accept) h, bind_go]
  rfl

/-- Settles O34: the width that the scale gives, and the loop test after the initialisation. -/
theorem dechighStarts : Obligations.DechighStarts := by
  intro s hb hptr hend hsize hscale
  obtain ⟨nbits, hnbits⟩ := highWidth_of_legal hscale
  obtain ⟨hpos, hle, hlt, hge⟩ := isHighWidth_of_ok hnbits
  have ht : ((scaleBits s.regs.hscale.toInt : Nat) : Int) =
      if 0 ≤ s.regs.hscale.toInt then s.regs.hscale.toInt else -s.regs.hscale.toInt - 1 := by
    unfold scaleBits
    split_ifs <;> omega
  refine ⟨nbits, (scaleBits s.regs.hscale.toInt : Nat), hpos, hle, ht, by exact_mod_cast hlt,
    fun h2 => by exact_mod_cast hge h2, ?_⟩
  rw [exec_dechigh_of_legal hb (by omega) (by omega) hnbits]
  obtain ⟨hi, e⟩ | ⟨hi, e⟩ := nextValue_cases .high (State.coderInit { s.accept with
    work := { s.work with nbits := nbits, length := 25 - nbits } })
  · have hpos : s.regs.size.toNat ≠ 0 := Nat.ne_of_gt hi
    simp only [e, if_neg hpos]
    rfl
  · have hzero : s.regs.size.toNat = 0 := Nat.le_zero.1 hi
    simp only [e, coderInit_retire, if_pos hzero]
    rfl

/-! ### The invariant, by name -/

/-- The constants of a running `DECHIGH` (R203). -/
structure HighConstants (s : State) : Prop where
  nbits_pos : 1 ≤ s.work.nbits
  nbits_le : s.work.nbits ≤ 16
  length : s.work.length = 25 - s.work.nbits
  width : highWidth s.regs.hscale.toInt = .ok s.work.nbits

/-- What holds while a codeword is due (R21 to R26, R163, R180, R221). -/
structure CoderRunning (s : State) : Prop where
  ptr : s.regs.bsptr.toNat ≤ s.regs.bsend.toNat
  bsend : s.regs.bsend.toNat ≤ s.cfg.bsSize
  pos : s.work.pos ≤ s.limit
  width : 0 < s.regs.width.toNat
  i : s.work.i.toNat < s.regs.size.toNat
  cursor : s.CursorHolds
  state : (s.work.state.toNat : Int) ≤ Config.stateMax
  run : (∃ v, s.engine = .run v) → s.work.state.toNat * 4 ≤ 0xFF
  low : s.engine = .value .low ∨ s.engine = .run .low → s.work.state.toNat ≤ lowStateBound
  high : s.engine = .value .high ∨ s.engine = .run .high → HighConstants s

theorem State.coderInv.running {s : State} (h : s.coderInv) (he : s.engine ≠ .idle) : CoderRunning s := by
  obtain ⟨hptr, hend, hpos, hwidth, hi, hj, hrow, hstate, hrun, hlow, hhigh⟩ := h he
  refine ⟨hptr, hend, hpos, hwidth, hi, ⟨hj, hrow⟩, hstate, hrun, hlow, fun hv => ?_⟩
  obtain ⟨h1, h16, hlength, hw⟩ := hhigh hv
  exact ⟨h1, h16, hlength, hw⟩

theorem coderInv_of_running {s : State} (h : s.engine ≠ .idle → CoderRunning s) : s.coderInv := by
  intro he
  obtain ⟨hptr, hend, hpos, hwidth, hi, hcursor, hstate, hrun, hlow, hhigh⟩ := h he
  refine ⟨hptr, hend, hpos, hwidth, hi, hcursor.j, hcursor.row, hstate, hrun, hlow, fun hv => ?_⟩
  obtain ⟨h1, h16, hlength, hw⟩ := hhigh hv
  exact ⟨h1, h16, hlength, hw⟩

theorem coderInv_of_idle {s : State} (h : s.engine = .idle) : s.coderInv := fun he => absurd h he

/-- What holds at the loop tests of a coder command, where `i` may have come to `SIZE`. -/
structure LoopInv (v : Variant) (u : State) : Prop where
  ptr : u.regs.bsptr.toNat ≤ u.regs.bsend.toNat
  bsend : u.regs.bsend.toNat ≤ u.cfg.bsSize
  pos : u.work.pos ≤ u.limit
  width : 0 < u.regs.size.toNat → 0 < u.regs.width.toNat
  i : u.work.i.toNat ≤ u.regs.size.toNat
  cursor : u.CursorHolds
  state : (u.work.state.toNat : Int) ≤ Config.stateMax
  low : v = .low → u.work.state.toNat ≤ lowStateBound
  high : v = .high → HighConstants u

/-- A loop test that goes on comes to a state in which a codeword is due. -/
theorem LoopInv.running {v : Variant} {u : State} (h : LoopInv v u) (hi : u.work.i.toNat < u.regs.size.toNat)
    {e : Engine} (he : e = .value v ∨ e = .run v ∧ u.work.state.toNat * 4 ≤ 0xFF) :
    CoderRunning { u with engine := e } where
  ptr := h.ptr
  bsend := h.bsend
  pos := h.pos
  width := h.width (by omega)
  i := hi
  cursor := ⟨h.cursor.j, h.cursor.row⟩
  state := h.state
  run := by
    rintro ⟨v', hv⟩
    obtain rfl | ⟨-, hgate⟩ := he
    · cases hv
    · exact hgate
  low := by
    rintro (hv | hv) <;> obtain rfl | ⟨rfl, -⟩ := he <;> cases hv <;> exact h.low rfl
  high := by
    intro hv
    have hhigh : v = .high := by obtain hv | hv := hv <;> obtain rfl | ⟨rfl, -⟩ := he <;> cases hv <;> rfl
    obtain ⟨h1, h16, hlength, hw⟩ := h.high hhigh
    exact ⟨h1, h16, hlength, hw⟩

theorem LoopInv.coderInv_nextValue {v : Variant} {u : State} (h : LoopInv v u) : (u.nextValue v).coderInv := by
  obtain ⟨hi, e⟩ | ⟨-, e⟩ := nextValue_cases v u <;> rw [e]
  · exact coderInv_of_running (fun _ => h.running hi (.inl rfl))
  · exact coderInv_of_idle rfl

theorem gate_iff {u : State} :
    u.gate = true ↔ u.work.state.toNat * 4 ≤ 0xFF ∧ u.work.i.toNat < u.regs.size.toNat := by
  simp [State.gate]

theorem LoopInv.coderInv_afterValue {v : Variant} {u : State} (h : LoopInv v u) : (u.afterValue v).coderInv := by
  obtain ⟨hgate, e⟩ | ⟨-, e⟩ := afterValue_cases v u <;> rw [e]
  · obtain ⟨hstate, hi⟩ := gate_iff.1 hgate
    exact coderInv_of_running (fun _ => h.running hi (.inr ⟨rfl, hstate⟩))
  · exact h.coderInv_nextValue

/-! ### The start (R161, R162, R201, R204) -/

/-- After the initialisation the loop invariant holds. -/
theorem loopInv_coderInit {v : Variant} {s : State}
    (hwindow : ¬(s.regs.bsend.toNat < s.regs.bsptr.toNat ∨ s.cfg.bsSize < s.regs.bsend.toNat))
    (hwidth : ¬(0 < s.regs.size.toNat ∧ s.regs.width.toNat = 0)) (hhigh : v = .high → HighConstants s) :
    LoopInv v s.coderInit where
  ptr := by simp only [coderInit_regs]; omega
  bsend := by simp only [coderInit_regs, coderInit_cfg]; omega
  pos := Nat.zero_le _
  width h := by simp only [coderInit_regs] at h ⊢; omega
  i := Nat.zero_le _
  cursor := ⟨by simp, by simp⟩
  state := show ((3#32).toNat : Int) ≤ Config.stateMax by decide
  low _ := show (3#32).toNat ≤ lowStateBound by decide
  high h := by
    obtain ⟨h1, h16, hlength, hw⟩ := hhigh h
    exact ⟨h1, h16, hlength, hw⟩

/-- How a coder command on an idle block starts: it comes to its loop test, or it faults. -/
theorem exec_start_cases {i : Instr} {s t : State} (hi : i = .declow ∨ i = .dechigh) (hb : s.status.busy = false)
    (h : exec i s = .next t) :
    (∃ v work, LoopInv v { s.accept with work := work, race := s.race.clear } ∧ work.i = 0#32 ∧
      t = State.nextValue v { s.accept with work := work, race := s.race.clear }) ∨
    (∃ code, t = s.accept.raise code) := by
  by_cases hbad : (s.regs.bsend.toNat < s.regs.bsptr.toNat ∨ s.cfg.bsSize < s.regs.bsend.toNat) ∨
      (0 < s.regs.size.toNat ∧ s.regs.width.toNat = 0)
  · have hstop : coderChecks s.accept = .stop .badConfig s.accept := coderChecks_badConfig hbad
    refine .inr ⟨.badConfig, ?_⟩
    obtain rfl | rfl := hi
    · rw [exec_declow, startCoder, hb, hstop] at h
      cases h
      rfl
    · rw [exec_dechigh, startCoder, hb, hstop] at h
      cases h
      rfl
  · obtain ⟨hwindow, hwidth⟩ := not_or.1 hbad
    obtain rfl | rfl := hi
    · rw [exec_declow_of_legal hb hwindow hwidth] at h
      cases h
      exact .inl ⟨.low, _, loopInv_coderInit (s := s.accept) hwindow hwidth (fun hv => (nomatch hv)), rfl, rfl⟩
    · cases hw : highWidth s.regs.hscale.toInt with
      | error code =>
        have hgo : coderChecks s.accept = .go s.accept := coderChecks_go hwindow hwidth
        have hstop : highConstants s.accept = .stop code s.accept := highConstants_stop hw
        have hnext : exec .dechigh s = .next (s.accept.raise code) := by
          rw [exec_dechigh]
          exact startCoder_next.2 (.inr ⟨hb, .inr ⟨code, s.accept, by rw [hgo, bind_go, hstop, bind_stop], rfl⟩⟩)
        rw [hnext] at h
        cases h
        exact .inr ⟨code, rfl⟩
      | ok nbits =>
        obtain ⟨h1, h16, -, -⟩ := isHighWidth_of_ok hw
        rw [exec_dechigh_of_legal hb hwindow hwidth hw] at h
        cases h
        exact .inl ⟨.high, _, loopInv_coderInit
          (s := { s.accept with work := { s.work with nbits := nbits, length := 25 - nbits } }) hwindow hwidth
          (fun _ => ⟨h1, h16, rfl, hw⟩), rfl, rfl⟩

/-! ### The codeword that is due (R102, R106) -/

/-- The context of a running command is one of those of R106. -/
theorem CoderRunning.ctx_wf {s : State} {c : Ctx} (h : CoderRunning s) (hc : s.ctx = some c) : c.wf = true := by
  have hvalue := valueWidth_bounds s.work.state.toNat
  unfold State.ctx at hc
  split at hc
  · cases hc
  · obtain rfl := Option.some.inj hc
    simp [Ctx.wf, hvalue]
  · obtain rfl := Option.some.inj hc
    have hrun := runWidth_bounds (st := s.work.state.toNat) (by have := h.run ⟨_, ‹_›⟩; omega)
    simp [Ctx.wf, hrun]
  · obtain rfl := Option.some.inj hc
    obtain ⟨h1, h16, -, -⟩ := h.high (.inl ‹_›)
    simp [Ctx.wf, hvalue, h1, h16]
  · obtain rfl := Option.some.inj hc
    have hrun := runWidth_bounds (st := s.work.state.toNat) (by have := h.run ⟨_, ‹_›⟩; omega)
    simp [Ctx.wf, hrun]

/-- The context where a value codeword of a variant is due (R106). -/
def State.valueCtx (s : State) : Variant → Ctx
  | .low => { kind := .lowValue, n := valueWidth s.work.state.toNat, nbits := 0 }
  | .high => { kind := .highValue, n := valueWidth s.work.state.toNat, nbits := s.work.nbits }

/-- The context where a run codeword of a variant is due (R106). -/
def State.runCtx (s : State) : Variant → Ctx
  | .low => { kind := .lowRun, n := runWidth s.work.state.toNat, nbits := 0 }
  | .high => { kind := .highRun, n := runWidth s.work.state.toNat, nbits := 0 }

theorem ctx_of_value {s : State} {v : Variant} (he : s.engine = .value v) : s.ctx = some (s.valueCtx v) := by
  rw [State.ctx, he]
  cases v <;> rfl

theorem ctx_of_run {s : State} {v : Variant} (he : s.engine = .run v) : s.ctx = some (s.runCtx v) := by
  rw [State.ctx, he]
  cases v <;> rfl

/-- A codeword of the context where a value is due is a value codeword, and its number goes to the pseudocode. -/
theorem exec_of_value {s : State} {c : Ctx} {i : Instr} {v : Variant} (h : CoderRunning s) (he : s.engine = .value v)
    (hc : s.ctx = some c) (hwf : i.wf c = true) (hi : i.isCodeword = true) :
    ∃ m, valueNumber c.n i = some m ∧
      exec i s = execCodeword (.value v) (i.bitLength c) (valueBody v m) (State.afterValue v) s := by
  rw [ctx_of_value he] at hc
  obtain rfl := Option.some.inj hc
  cases v with
  | low =>
    cases i with
    | lvS | lvX => exact ⟨_, rfl, rfl⟩
    | lvL => exact ⟨_, rfl, rfl⟩
    | layout | declow | dechigh | predict | filt1d | idwt => cases hi
    | _ => simp [Instr.wf, Ctx.admitsShort, Ctx.admitsLong, State.valueCtx] at hwf
  | high =>
    cases i with
    | hvS => exact ⟨_, rfl, rfl⟩
    | hvL k w =>
      refine ⟨_, rfl, ?_⟩
      rw [Nat.add_comm w]
      rfl
    | hvX e =>
      obtain ⟨-, hle, hlength, -⟩ := h.high (.inl he)
      have hlen : s.work.length + s.work.nbits = 25 := by omega
      refine ⟨e, rfl, ?_⟩
      change execHvX e s = _
      rw [execHvX, hlen]
      rfl
    | layout | declow | dechigh | predict | filt1d | idwt => cases hi
    | _ => simp [Instr.wf, Ctx.admitsShort, Ctx.admitsLong, State.valueCtx] at hwf

/-- A codeword of the context where a run is due is a run codeword, and its length goes to the pseudocode. -/
theorem exec_of_run {s : State} {c : Ctx} {i : Instr} {v : Variant} (he : s.engine = .run v)
    (hc : s.ctx = some c) (hwf : i.wf c = true) (hi : i.isCodeword = true) :
    ∃ rlen, runNumber c.n i = some rlen ∧
      exec i s = execCodeword (.run v) (i.bitLength c) (runBody v rlen) (State.nextValue v) s := by
  rw [ctx_of_run he] at hc
  obtain rfl := Option.some.inj hc
  cases v with
  | low =>
    cases i with
    | lrS | lrL | lrX => exact ⟨_, rfl, rfl⟩
    | layout | declow | dechigh | predict | filt1d | idwt => cases hi
    | _ => simp [Instr.wf, Ctx.admitsShort, Ctx.admitsLong, State.runCtx] at hwf
  | high =>
    cases i with
    | hrS | hrL | hrX8 | hrX16 => exact ⟨_, rfl, rfl⟩
    | layout | declow | dechigh | predict | filt1d | idwt => cases hi
    | _ => simp [Instr.wf, Ctx.admitsShort, Ctx.admitsLong, State.runCtx] at hwf

/-- The numbers of the low values are below `2 ^ 17` (R103, R165). -/
theorem valueNumber_le {c : Ctx} {i : Instr} {m : Nat} (hc : c.wf = true) (hkind : c.kind = .lowValue)
    (hwf : i.wf c = true) (hm : valueNumber c.n i = some m) : m ≤ 131063 := by
  obtain ⟨-, hn, -⟩ := Laws.Length.bounds hc
  have hcap : c.cap = 8 := by rw [Ctx.cap, hkind]; rfl
  have hmask : 2 ^ c.n ≤ 2 ^ 14 := Nat.pow_le_pow_right (by omega) hn
  have hprod : ∀ k, k < 8 → (2 ^ c.n - 1) * k ≤ 16383 * 7 := fun k hk => Nat.mul_le_mul (by omega) (by omega)
  cases i with
  | lvS k =>
    obtain ⟨-, hk⟩ := admitsShort_iff.1 hwf
    obtain rfl := Option.some.inj hm
    have := hprod k (by omega)
    omega
  | lvL k v =>
    obtain ⟨-, hk, -, hv⟩ := admitsLong_iff.1 hwf
    obtain rfl := Option.some.inj hm
    have := hprod k (by omega)
    rw [Ctx.mask] at hv
    omega
  | lvX e =>
    obtain rfl := Option.some.inj hm
    have := e.isLt
    omega
  | hvS | hvL | hvX => simp [Instr.wf, Ctx.admitsShort, Ctx.admitsLong, hkind] at hwf
  | _ => cases hm

/-- The new state of a low value stays in its range and below the bound (R166, R180). -/
theorem adapted_low {st x : Nat} (hst : st ≤ lowStateBound) (hx : x ≤ 131064) :
    0 ≤ adapted Config.lowGain st x ∧ adapted Config.lowGain st x ≤ lowStateBound := by
  simp only [adapted, Config.lowGain, lowStateBound] at hst ⊢
  omega

theorem lowStateBound_le_stateMax : (lowStateBound : Int) ≤ Config.stateMax := by decide

/-! ### What a codeword of the context can do -/

/-- A codeword that is due goes on to the loop test of its command, or faults. -/
inductive CodewordOutcome (s : State) : State → Prop
  /-- A fault; a low command never raises `ID_STATE_RANGE` (R166). -/
  | fault {u : State} {code : ErrCode} (hu : BodyKept s u)
      (hcode : s.engine = .value .low ∨ s.engine = .run .low → code ≠ .idStateRange) : CodewordOutcome s (u.raise code)
  /-- One coefficient. -/
  | value {v : Variant} {u : State} (he : s.engine = .value v) (hu : BodyKept s u) (hinv : LoopInv v u)
      (hi : u.work.i.toNat = s.work.i.toNat + 1)
      (hin : ∀ k, s.work.i.toNat ≤ k → k < u.work.i.toNat → (s.coeffAddr k).toNat < s.cfg.pmSize) :
      CodewordOutcome s (u.afterValue v)
  /-- A run of zeros. -/
  | run {v : Variant} {u : State} (he : s.engine = .run v) (hu : BodyKept s u) (hinv : LoopInv v u)
      (hi : s.work.i.toNat ≤ u.work.i.toNat)
      (hin : ∀ k, s.work.i.toNat ≤ k → k < u.work.i.toNat → (s.coeffAddr k).toNat < s.cfg.pmSize) :
      CodewordOutcome s (u.nextValue v)

theorem toNat_ofInt_of_range {x : Int} (h0 : 0 ≤ x) (hmax : x ≤ Config.stateMax) :
    ((BitVec.ofInt 32 x).toNat : Int) = x := by
  rw [Config.stateMax] at hmax
  rw [BitVec.toNat_ofInt]
  omega

/-- The loop invariant after one coefficient. -/
theorem CoderRunning.loopInv_valueDone {s : State} {v : Variant} {len : Nat} {coef new : Int} (h : CoderRunning s)
    (he : s.engine = .value v) (hbits : s.work.pos + len ≤ s.limit) (h0 : 0 ≤ new) (hmax : new ≤ Config.stateMax)
    (hlow : v = .low → new ≤ lowStateBound) :
    (s.valueDone len coef new).work.i.toNat = s.work.i.toNat + 1 ∧ LoopInv v (s.valueDone len coef new) := by
  obtain ⟨hi, hcursor⟩ := h.cursor.advance (u := s.valueDone len coef new) h.i h.width rfl ⟨_, _, _, _, _, rfl⟩
  have hsize := h.i
  have hstate : ((s.valueDone len coef new).work.state.toNat : Int) = new := toNat_ofInt_of_range h0 hmax
  refine ⟨hi, h.ptr, h.bsend, hbits, fun _ => h.width, by rw [hi]; exact hsize, hcursor, by rw [hstate]; exact hmax,
    fun hv => ?_, fun hv => ?_⟩
  · have hle := hlow hv
    rw [← hstate] at hle
    exact_mod_cast hle
  · obtain ⟨h1, h16, hlength, hw⟩ := h.high (.inl (hv ▸ he))
    have hnbits : (s.valueDone len coef new).work.nbits = s.work.nbits := advance_nbits _ _ _
    have hlen : (s.valueDone len coef new).work.length = s.work.length := advance_length _ _ _
    exact ⟨by rwa [hnbits], by rwa [hnbits], by rw [hlen, hnbits, hlength], by rw [hnbits]; exact hw⟩

/-- The loop invariant after a run. -/
theorem CoderRunning.loopInv_afterZeros {s u : State} {v : Variant} {len rlen : Nat} (h : CoderRunning s)
    (he : s.engine = .run v) (hbits : s.work.pos + len ≤ s.limit) (hfit : s.work.i.toNat + rlen ≤ s.regs.size.toNat)
    (hu : ZerosAt (s.withPos (s.work.pos + len)) rlen u) : LoopInv v (afterZeros rlen u) := by
  have hi : u.work.i.toNat = s.work.i.toNat + rlen := hu.i
  have hcursor := hu.cursor
  rw [hu.kept] at hi hcursor ⊢
  refine ⟨h.ptr, h.bsend, hbits, fun _ => h.width, by rw [← hi] at hfit; exact hfit, ⟨hcursor.j, hcursor.row⟩,
    show ((0#32).toNat : Int) ≤ Config.stateMax by decide, fun _ => Nat.zero_le _, fun hv => ?_⟩
  obtain ⟨h1, h16, hlength, hw⟩ := h.high (.inr (hv ▸ he))
  exact ⟨h1, h16, hlength, hw⟩

theorem ZerosAt.bodyKept {s u : State} {pos m : Nat} (h : ZerosAt (s.withPos pos) m u) : BodyKept s u :=
  ⟨_, _, _, _, h.kept⟩

/-- All a codeword of the context can do where it is due. -/
theorem CoderRunning.codewordOutcome {s t : State} {c : Ctx} {i : Instr} (h : CoderRunning s) (hc : s.ctx = some c)
    (hwf : i.wf c = true) (hi : i.isCodeword = true) (ht : exec i s = .next t) : CodewordOutcome s t := by
  cases he : s.engine with
  | idle => rw [State.ctx, he] at hc; cases hc
  | value v =>
    obtain ⟨m, hm, hexec⟩ := exec_of_value h he hc hwf hi
    rw [hexec] at ht
    have hlow : v = .low → 0 ≤ adapted (s.gain v) s.work.state.toNat (m + s.work.flag.toNat) ∧
        adapted (s.gain v) s.work.state.toNat (m + s.work.flag.toNat) ≤ lowStateBound := by
      rintro rfl
      have hkind : c.kind = .lowValue := by
        rw [ctx_of_value he] at hc
        obtain rfl := Option.some.inj hc
        rfl
      have hle := valueNumber_le (h.ctx_wf hc) hkind hwf hm
      have hflag := Bool.toNat_le s.work.flag
      exact adapted_low (h.low (.inl he)) (by omega)
    obtain ⟨pos, code, hcode, rfl⟩ | ⟨hlt, hbits, ⟨hnew, rfl⟩ | ⟨h0, hmax, rfl⟩⟩ := execValue_cases ht
    · exact .fault ⟨_, _, _, _, rfl⟩ (fun _ => hcode)
    · refine .fault ⟨_, _, _, _, rfl⟩ (fun hv => ?_)
      have hvlow : v = .low := by obtain hv | hv := hv <;> rw [he] at hv <;> cases hv; rfl
      obtain ⟨h0, hle⟩ := hlow hvlow
      have := lowStateBound_le_stateMax
      omega
    · obtain ⟨hi', hinv⟩ := h.loopInv_valueDone (coef := s.coefOf (m + s.work.flag.toNat) v) he hbits h0 hmax
        (fun hv => (hlow hv).2)
      refine .value he ⟨_, _, _, _, rfl⟩ hinv hi' (fun k hk hlt' => ?_)
      obtain rfl : k = s.work.i.toNat := by omega
      rwa [← h.cursor.emitAddr_eq]
  | run v =>
    obtain ⟨rlen, -, hexec⟩ := exec_of_run he hc hwf hi
    rw [hexec] at ht
    obtain ⟨pos, code, hcode, rfl⟩ | ⟨hbits, hfit, ⟨m, u, -, hu, rfl⟩ | ⟨u, hu, rfl⟩⟩ :=
      execRun_cases h.cursor h.width ht
    · exact .fault ⟨_, _, _, _, rfl⟩ (fun _ => hcode)
    · exact .fault hu.bodyKept (fun _ => by decide)
    · have hinv := h.loopInv_afterZeros he hbits hfit hu
      have hi' : (afterZeros rlen u).work.i.toNat = s.work.i.toNat + rlen := hu.i
      refine .run he (hu.bodyKept.trans ⟨_, _, _, _, rfl⟩) hinv (by omega) (fun k hk hlt => ?_)
      obtain ⟨d, rfl⟩ := Nat.exists_eq_add_of_le hk
      exact hu.inside d (by omega)

theorem CodewordOutcome.coderInv {s t : State} (h : CodewordOutcome s t) : t.coderInv := by
  cases h with
  | fault => exact coderInv_of_idle rfl
  | value _ _ hinv => exact hinv.coderInv_afterValue
  | run _ _ hinv => exact hinv.coderInv_nextValue

end Sys2Proof.Machine

/-! SUPPORT. A coder command step by step: its invariant, its end within bounds, and what it leaves alone (R163 to R180,
R390). -/

namespace Sys2Proof.Machine

/-! ### Every step keeps the coder invariant -/

/-- A command that is no codeword leaves the block idle, or a coder command that waits for its first codeword. -/
theorem exec_command_coderInv {i : Instr} {s t : State} (hi : i.isCodeword = false) (hs : s.statusInv)
    (hb : s.status.busy = false) (h : exec i s = .next t) : t.coderInv := by
  by_cases hcoder : i = .declow ∨ i = .dechigh
  · obtain ⟨v, work, hinv, -, rfl⟩ | ⟨code, rfl⟩ := exec_start_cases hcoder hb h
    · exact hinv.coderInv_nextValue
    · exact coderInv_of_idle rfl
  · refine coderInv_of_idle ?_
    cases exec_outcome h with
    | ignored => exact hs.engine_eq_idle hb
    | layoutDone | layoutFault | planeDone | planeFault => rfl
    | coderStart hc | coderFault hc => exact absurd hc hcoder
    | codewordDone hc | codewordFault hc => rw [hi] at hc; cases hc

theorem StepOutcome.coderInv {s t : State} (h : StepOutcome s t) (hs : s.statusInv) (hinv : s.coderInv) :
    t.coderInv := by
  cases h with
  | access => exact hinv
  | regWritten host hb off v =>
    refine coderInv_of_idle ?_
    rw [(regWritten_regWrite { s with host := host } off v).kept]
    exact hs.engine_eq_idle hb
  | illegal => exact coderInv_of_idle rfl
  | @ran host i hi t ht =>
    obtain ⟨hi, hb⟩ | ⟨c, hc, rfl⟩ := hi
    · exact exec_command_coderInv (s := { s with host := host }) hi hs hb ht
    · have he : s.engine ≠ .idle := fun he => by rw [State.ctx, he] at hc; cases hc
      have hrun : CoderRunning { s with host := host } :=
        State.coderInv.running (s := { s with host := host }) hinv he
      have hfirst := isFirstCodeword_decodeCodeword c s.window
      exact (hrun.codewordOutcome hc hfirst.wf hfirst.isCodeword ht).coderInv
  | reset => exact coderInv_of_idle rfl

/-- Settles O22: every outcome of a step keeps the invariant. -/
theorem stepKeepsCoder : Obligations.StepKeepsCoder :=
  fun _ _ hs hinv ht => (step_outcome ht).coderInv hs hinv

/-! ### All the invariants together (R349) -/

theorem StepOutcome.cfg_eq {s t : State} (h : StepOutcome s t) : t.cfg = s.cfg := by
  cases h with
  | access | illegal | reset => rfl
  | regWritten host hb off v => rw [(regWritten_regWrite { s with host := host } off v).kept]
  | ran host hi ht =>
    obtain ⟨-, -, -, hcfg, -, -⟩ := operandsUnmodified _ _ _ ht
    exact hcfg

/-- Settles O24: a legal action goes on, and every outcome keeps each of the invariants. -/
theorem legalStepIsSafe : Obligations.LegalStepIsSafe := by
  rintro s ⟨hcfg, hmem, hstatus, hcoder, hlayout⟩ hlegal
  obtain ⟨t, ht⟩ := step_of_legal hlegal
  have h := step_outcome ht
  exact ⟨t, ht, by rw [h.cfg_eq]; exact hcfg, h.memInv hmem, (h.statusInv hstatus).1, h.coderInv hstatus hcoder,
    h.layoutInv hlayout⟩

/-! ### A codeword at a time -/

theorem BodyKept.regs_eq {s u : State} (h : BodyKept s u) : u.regs = s.regs := by
  obtain ⟨_, _, _, _, rfl⟩ := h
  rfl

theorem ctx_of_running {s : State} (he : s.engine ≠ .idle) : ∃ c, s.ctx = some c := by
  cases h : s.engine with
  | idle => exact absurd h he
  | value v => exact ⟨_, ctx_of_value h⟩
  | run v => exact ⟨_, ctx_of_run h⟩

/-- With no host action pending, a running command's step is its next codeword. -/
theorem CoderRunning.step {s : State} (h : CoderRunning s) (hhost : s.host = []) (he : s.engine ≠ .idle) :
    ∃ i t, i.isCodeword = true ∧ exec i s = .next t ∧ Machine.step s = .next t ∧ CodewordOutcome s t := by
  obtain ⟨c, hc⟩ := ctx_of_running he
  obtain ⟨t, ht⟩ := blockStep_total s
  have hexec : exec (decodeCodeword c s.window) s = .next t := by rw [← blockStep_of_ctx hc, ht]
  have hfirst := isFirstCodeword_decodeCodeword c s.window
  exact ⟨_, t, hfirst.isCodeword, hexec, by rw [step_nil hhost, ht],
    h.codewordOutcome hc hfirst.wf hfirst.isCodeword hexec⟩

theorem CoderGoesTo.err_eq {u t : State} (h : CoderGoesTo u t) : t.status.err = u.status.err ∨ t.status.err = .none := by
  obtain ⟨_, -, rfl⟩ | rfl := h
  · exact .inl rfl
  · exact .inr rfl

/-- Settles O44: a low codeword faults with another code, or leaves `ERR` as no fault. -/
theorem lowStateNeverFaults : Obligations.LowStateNeverFaults := by
  intro s t hs hinv hhost he ht
  have hne : s.engine ≠ .idle := by obtain he | he := he <;> simp [he]
  obtain ⟨-, -, -, herr⟩ := hs.of_running hne
  obtain ⟨i, t', -, -, hstep, hout⟩ := (hinv.running hne).step hhost hne
  obtain rfl : t = t' := Host.Outcome.next.inj (ht.symm.trans hstep)
  have hgoes : ∀ {u}, BodyKept s u → CoderGoesTo u t → t.status.err ≠ .idStateRange := fun hu hgo => by
    obtain h | h := hgo.err_eq
    · rw [h, hu.status_eq, herr]; decide
    · rw [h]; decide
  cases hout with
  | fault _ hcode => exact hcode he
  | value _ hu => exact hgoes hu (afterValue_goesTo _ _)
  | run _ hu => exact hgoes hu (nextValue_goesTo _ _)

/-! ### The cells of a codeword (R63, R163) -/

theorem mem_zeroWrites {s : State} {m : Nat} {c : Nat × Sample} (h : c ∈ s.zeroWrites m) :
    ∃ k, k < m ∧ c.1 = (s.coeffAddr (s.work.i.toNat + k)).toNat := by
  obtain ⟨k, hk, rfl⟩ := List.mem_map.1 h
  exact ⟨k, List.mem_range.1 hk, rfl⟩

/-- The first zeros of a run write their own cells only. -/
theorem ZerosAt.pm_read_of_outside {s u : State} {m : Nat} (h : ZerosAt s m u) {a : Nat}
    (ha : ∀ k, k < m → a ≠ (s.coeffAddr (s.work.i.toNat + k)).toNat) : u.pm.read a = s.pm.read a := by
  rw [h.pm]
  refine Memory.read_replay_ne _ _ _ (fun c hc => ?_)
  obtain ⟨k, hk, e⟩ := mem_zeroWrites hc
  rw [e]
  exact ha k hk

/-- Settles O45: a value writes the cell of coefficient `i`, a run the cells of the zeros it comes to. -/
theorem codewordWritesItsCells : Obligations.CodewordWritesItsCells := by
  intro i s t hinv hi ht a ha
  have hrun := hinv.running (by rw [exec_codeword_engine hi ht]; exact engineOf_ne_idle hi)
  obtain ⟨v, len, m, he⟩ | ⟨v, len, rlen, he⟩ := exec_codeword_shape s hi <;> rw [he] at ht
  · have haddr : a ≠ s.emitAddr.toNat := by
      rw [hrun.cursor.emitAddr_eq]
      exact (ha _ le_rfl hrun.i).symm
    obtain ⟨pos, code, -, rfl⟩ | ⟨-, -, ⟨-, rfl⟩ | ⟨-, -, rfl⟩⟩ := execValue_cases ht
    · rfl
    · exact Memory.read_write_ne _ _ haddr
    · rw [(leavesPM_afterValue v).pm]
      exact Memory.read_write_ne _ _ haddr
  · obtain ⟨pos, code, -, rfl⟩ | ⟨-, hfit, hzeros⟩ := execRun_cases hrun.cursor hrun.width ht
    · rfl
    have hout : ∀ {m u}, m ≤ rlen → ZerosAt (s.withPos (s.work.pos + len)) m u → u.pm.read a = s.pm.read a :=
      fun hm hu => hu.pm_read_of_outside (fun k hk => (ha _ (Nat.le_add_right _ _)
        (show s.work.i.toNat + k < s.regs.size.toNat by omega)).symm)
    obtain ⟨m, u, hm, hu, rfl⟩ | ⟨u, hu, rfl⟩ := hzeros
    · exact (hout hm.le hu :)
    · rw [(leavesPM_nextValue v).pm]
      exact (hout le_rfl hu :)

/-! ### Many steps -/

theorem run_succ_of_step {M : Host.Core} {s t : M.State} (h : M.step s = .next t) (n : Nat) :
    M.run (n + 1) s = M.run n t := by
  rw [Host.Core.run, h]

theorem core_run_zero (s : State) : Sys2Proof.core.run 0 s = .next s := rfl

theorem core_run_succ {s t : State} (h : step s = .next t) (n : Nat) :
    Sys2Proof.core.run (n + 1) s = Sys2Proof.core.run n t :=
  run_succ_of_step (M := Sys2Proof.core) h n

/-! ### Termination (R390) -/

/-- At most so many codewords are left. -/
def State.codewordsLeft (s : State) : Nat :=
  match s.engine with
  | .idle => 0
  | .value _ => 2 * (s.regs.size.toNat - s.work.i.toNat)
  | .run _ => 2 * (s.regs.size.toNat - s.work.i.toNat) + 1

theorem codewordsLeft_le (s : State) : s.codewordsLeft ≤ 2 * (s.regs.size.toNat - s.work.i.toNat) + 1 := by
  unfold State.codewordsLeft
  split <;> omega

theorem codewordsLeft_of_idle {s : State} (h : s.engine = .idle) : s.codewordsLeft = 0 := by
  rw [State.codewordsLeft, h]

theorem codewordsLeft_of_value {s : State} {v : Variant} (h : s.engine = .value v) :
    s.codewordsLeft = 2 * (s.regs.size.toNat - s.work.i.toNat) := by
  rw [State.codewordsLeft, h]

theorem codewordsLeft_of_run {s : State} {v : Variant} (h : s.engine = .run v) :
    s.codewordsLeft = 2 * (s.regs.size.toNat - s.work.i.toNat) + 1 := by
  rw [State.codewordsLeft, h]

theorem codewordsLeft_nextValue (v : Variant) (u : State) :
    (u.nextValue v).codewordsLeft ≤ 2 * (u.regs.size.toNat - u.work.i.toNat) := by
  obtain ⟨-, e⟩ | ⟨-, e⟩ := nextValue_cases v u <;> rw [e]
  · exact le_rfl
  · exact Nat.zero_le _

theorem codewordsLeft_afterValue (v : Variant) (u : State) :
    (u.afterValue v).codewordsLeft ≤ 2 * (u.regs.size.toNat - u.work.i.toNat) + 1 := by
  obtain ⟨-, e⟩ | ⟨-, e⟩ := afterValue_cases v u <;> rw [e]
  · exact le_rfl
  · exact (codewordsLeft_nextValue v u).trans (Nat.le_succ _)

/-- Every codeword that is due leaves fewer. -/
theorem CodewordOutcome.codewordsLeft_lt {s t : State} (h : CodewordOutcome s t) (hs : CoderRunning s)
    (he : s.engine ≠ .idle) : t.codewordsLeft < s.codewordsLeft := by
  have hi := hs.i
  cases h with
  | fault =>
    rw [codewordsLeft_of_idle rfl]
    cases hv : s.engine with
    | idle => exact absurd hv he
    | value => rw [codewordsLeft_of_value hv]; omega
    | run => rw [codewordsLeft_of_run hv]; omega
  | @value v u hv hu _ hi' =>
    have hle := codewordsLeft_afterValue v u
    rw [hu.regs_eq] at hle
    rw [codewordsLeft_of_value hv]
    omega
  | @run v u hv hu _ hi' =>
    have hle := codewordsLeft_nextValue v u
    rw [hu.regs_eq] at hle
    rw [codewordsLeft_of_run hv]
    omega

/-- What a step of a running command keeps. -/
theorem host_of_exec {i : Instr} {s t : State} (h : exec i s = .next t) : t.host = s.host := by
  obtain ⟨-, -, -, -, hhost, -⟩ := operandsUnmodified _ _ _ h
  exact hhost

theorem exists_run_idle (n : Nat) {s : State} (hn : s.codewordsLeft ≤ n) (hinv : s.coderInv) (hhost : s.host = []) :
    ∃ k t, k ≤ n ∧ Sys2Proof.core.run k s = .next t ∧ t.engine = .idle := by
  by_cases he : s.engine = .idle
  · exact ⟨0, s, Nat.zero_le _, core_run_zero s, he⟩
  have hs := hinv.running he
  obtain ⟨i, t, -, hexec, hstep, hout⟩ := hs.step hhost he
  have hlt := hout.codewordsLeft_lt hs he
  obtain ⟨m, rfl⟩ : ∃ m, n = m + 1 := Nat.exists_eq_succ_of_ne_zero (by omega)
  obtain ⟨k, u, hk, hrun, hidle⟩ := exists_run_idle m (by omega) hout.coderInv ((host_of_exec hexec).trans hhost)
  exact ⟨k + 1, u, by omega, (core_run_succ hstep k).trans hrun, hidle⟩
termination_by n

/-- Settles O46: the number of codewords left bounds the number of steps. -/
theorem coderTerminates : Obligations.CoderTerminates := fun s _ hinv hhost =>
  exists_run_idle _ (codewordsLeft_le s) hinv hhost

/-! ### What a whole command leaves alone (R179, R220) -/

/-- What a command started in `s` has left of it so far. -/
structure CoderKeeps (s u : State) : Prop where
  regs : u.regs = s.regs
  bs : u.bs = s.bs
  cfg : u.cfg = s.cfg
  host : u.host = []
  race : u.race.raced = false
  frame : ∀ a, (∀ k, k < s.regs.size.toNat → (s.coeffAddr k).toNat ≠ a) → u.pm.read a = s.pm.read a

theorem CoderKeeps.coeffAddr_eq {s u : State} (h : CoderKeeps s u) (k : Nat) : u.coeffAddr k = s.coeffAddr k := by
  rw [State.coeffAddr, State.coeffAddr, h.regs]



/-- Where a command started in `s` stands. -/
inductive CoderProgress (s u : State) : Prop
  /-- A codeword is due; the cells of the coefficients so far exist. -/
  | running (he : u.engine ≠ .idle) (hdone : u.status.done = false) (hu : CoderRunning u)
      (hin : ∀ k, k < u.work.i.toNat → (s.coeffAddr k).toNat < s.cfg.pmSize)
  /-- The command has faulted. -/
  | faulted (he : u.engine = .idle) (hdone : u.status.done = false)
  /-- The command has completed. -/
  | ended (he : u.engine = .idle) (hin : ∀ k, k < s.regs.size.toNat → (s.coeffAddr k).toNat < s.cfg.pmSize)
      (hret : s.regs.bsptr.toNat + u.ret.toNat ≤ s.regs.bsend.toNat)

/-- `align()` stays within the window. -/
theorem alignUp_le {u : State} (h : u.work.pos ≤ u.limit) :
    alignUp u.work.pos / 8 ≤ u.regs.bsend.toNat - u.regs.bsptr.toNat := by
  rw [State.limit] at h
  rw [alignUp]
  omega

section Loop

variable {s u : State} {v : Variant} (hinv : LoopInv v u) (hregs : u.regs = s.regs) (hrace : u.race.raced = false)
  (hdone : u.status.done = false) (hin : ∀ k, k < u.work.i.toNat → (s.coeffAddr k).toNat < s.cfg.pmSize)

include hinv hregs hrace hdone hin

theorem coderProgress_nextValue : CoderProgress s (u.nextValue v) := by
  obtain ⟨hi, e⟩ | ⟨hi, e⟩ := nextValue_cases v u <;> rw [e]
  · exact .running (by simp) hdone (hinv.running hi (.inl rfl)) hin
  · refine .ended rfl (fun k hk => hin k ?_) ?_
    · rw [← hregs] at hk
      omega
    · have hptr := hinv.ptr
      have hle := alignUp_le hinv.pos
      have hret : u.retire.ret.toNat ≤ alignUp u.work.pos / 8 := by
        rw [retire_of_not_raced hrace]
        exact (BitVec.toNat_ofNat _ _).trans_le (Nat.mod_le _ _)
      rw [hregs] at hptr hle
      omega

theorem coderProgress_afterValue : CoderProgress s (u.afterValue v) := by
  obtain ⟨hgate, e⟩ | ⟨-, e⟩ := afterValue_cases v u <;> rw [e]
  · obtain ⟨hstate, hi⟩ := gate_iff.1 hgate
    exact .running (by simp) hdone (hinv.running hi (.inr ⟨rfl, hstate⟩)) hin
  · exact coderProgress_nextValue hinv hregs hrace hdone hin

end Loop

/-- A codeword of a command in progress. -/
theorem CodewordOutcome.progress {s u t : State} (h : CodewordOutcome u t) (hkeeps : CoderKeeps s u)
    (hdone : u.status.done = false) (hin : ∀ k, k < u.work.i.toNat → (s.coeffAddr k).toNat < s.cfg.pmSize) :
    CoderProgress s t := by
  have hinside : ∀ n, (∀ k, u.work.i.toNat ≤ k → k < n → (u.coeffAddr k).toNat < u.cfg.pmSize) →
      ∀ k, k < n → (s.coeffAddr k).toNat < s.cfg.pmSize := fun n hnew k hk => by
    rcases Nat.lt_or_ge k u.work.i.toNat with hlt | hge
    · exact hin k hlt
    · have := hnew k hge hk
      rwa [hkeeps.coeffAddr_eq, hkeeps.cfg] at this
  cases h with
  | fault => exact .faulted rfl rfl
  | value _ hu hinv _ hnew =>
    exact coderProgress_afterValue hinv (hu.regs_eq.trans hkeeps.regs) (by rw [hu.race_eq, hkeeps.race])
      (by rw [hu.status_eq, hdone]) (hinside _ hnew)
  | run _ hu hinv _ hnew =>
    exact coderProgress_nextValue hinv (hu.regs_eq.trans hkeeps.regs) (by rw [hu.race_eq, hkeeps.race])
      (by rw [hu.status_eq, hdone]) (hinside _ hnew)

theorem CoderGoesTo.race_eq {u t : State} (h : CoderGoesTo u t) : t.race = u.race := by
  obtain ⟨_, -, rfl⟩ | rfl := h <;> rfl

theorem CodewordOutcome.race_eq {s t : State} (h : CodewordOutcome s t) : t.race = s.race := by
  cases h with
  | fault hu => exact hu.race_eq
  | value _ hu => exact (afterValue_goesTo _ _).race_eq.trans hu.race_eq
  | run _ hu => exact (nextValue_goesTo _ _).race_eq.trans hu.race_eq

/-- A codeword of a command in progress leaves alone what the command leaves alone. -/
theorem CoderKeeps.codeword {s u t : State} {i : Instr} (h : CoderKeeps s u) (hu : u.coderInv)
    (hi : i.isCodeword = true) (ht : exec i u = .next t) (hout : CodewordOutcome u t) : CoderKeeps s t := by
  obtain ⟨hregs, -, hbs, hcfg, hhost, -⟩ := operandsUnmodified _ _ _ ht
  refine ⟨hregs.trans h.regs, hbs.trans h.bs, hcfg.trans h.cfg, hhost.trans h.host, by rw [hout.race_eq, h.race],
    fun a ha => ?_⟩
  rw [codewordWritesItsCells i u t hu hi ht a (fun k _ hk => ?_), h.frame a ha]
  rw [h.coeffAddr_eq]
  exact ha k (by rwa [← h.regs])

theorem CoderProgress.run {s u t : State} (n : Nat) (h : CoderProgress s u) (hkeeps : CoderKeeps s u)
    (ht : Sys2Proof.core.run n u = .next t) : CoderProgress s t ∧ CoderKeeps s t := by
  induction n generalizing u with
  | zero =>
    obtain rfl : u = t := Host.Outcome.next.inj ht
    exact ⟨h, hkeeps⟩
  | succ n ih =>
    by_cases he : u.engine = .idle
    · have hstay := core_run_succ ((step_nil hkeeps.host).trans (blockStep_of_idle he)) n
      exact ih h hkeeps (hstay.symm.trans ht)
    · cases h with
      | faulted hidle | ended hidle => exact absurd hidle he
      | running _ hdone hu hin =>
        obtain ⟨i, u', hi, hexec, hstep, hout⟩ := hu.step hkeeps.host he
        exact ih (hout.progress hkeeps hdone hin)
          (hkeeps.codeword (coderInv_of_running fun _ => hu) hi hexec hout) ((core_run_succ hstep n).symm.trans ht)

/-- Where a command stands after its start: before its first codeword or at its end, or its checks failed. -/
theorem exec_start_progress {i : Instr} {s u : State} (hi : i = .declow ∨ i = .dechigh) (hb : s.status.busy = false)
    (hhost : s.host = []) (h : exec i s = .next u) :
    (CoderProgress s u ∧ CoderKeeps s u) ∨ ∃ code, u = s.accept.raise code := by
  obtain ⟨v, work, hinv, hzero, rfl⟩ | hfault := exec_start_cases hi hb h
  · refine .inl ⟨coderProgress_nextValue hinv rfl rfl rfl (fun k hk => ?_), ?_⟩
    · have hk' : k < work.i.toNat := hk
      rw [hzero] at hk'
      exact absurd hk' (Nat.not_lt_zero k)
    · obtain ⟨-, e⟩ | ⟨-, e⟩ := nextValue_cases v { s.accept with work := work, race := s.race.clear } <;> rw [e] <;>
        exact ⟨rfl, rfl, rfl, hhost, rfl, fun _ _ => rfl⟩
  · exact .inr hfault

/-- An idle block with no host action pending stays as it is, however many steps it takes (log entry 16). -/
theorem core_run_of_idle {s : State} (he : s.engine = .idle) (hhost : s.host = []) (n : Nat) :
    Sys2Proof.core.run n s = .next s := by
  induction n with
  | zero => rfl
  | succ n ih => exact (core_run_succ ((step_nil hhost).trans (blockStep_of_idle he)) n).trans ih

/-- Settles O47: at the end of the command, what it leaves alone is as before, and its window holds what it read. -/
theorem coderRunFrame : Obligations.CoderRunFrame := by
  intro i s u t n hi _ hb hhost hu ht hdone
  obtain ⟨hprogress, hkeeps⟩ | ⟨code, rfl⟩ := exec_start_progress hi hb hhost hu
  · obtain ⟨hprogress, hkeeps⟩ := hprogress.run n hkeeps ht
    cases hprogress with
    | running _ hd | faulted _ hd => rw [hd] at hdone; cases hdone
    | ended _ hin hret => exact ⟨hkeeps.regs, hkeeps.bs, hkeeps.frame, hin, hret⟩
  · have hstay := core_run_of_idle (s := s.accept.raise code) rfl hhost n
    obtain rfl : s.accept.raise code = t := Host.Outcome.next.inj (hstay.symm.trans ht)
    cases hdone

end Sys2Proof.Machine

/-! SUPPORT. The codeword forms: what each value and each run does, and how it faults (R170 to R176, R210 to R218). -/

namespace Sys2Proof.Machine

/-! ### After the last bit of a codeword (R164, R178, R205, R219) -/

/-- The loop test comes to the next value codeword, or to the end of the command. -/
theorem nextOrEnd_nextValue {s u : State} {v : Variant} {len : Nat} (hregs : u.regs = s.regs)
    (hstatus : u.status = s.status) (hret : u.ret = s.ret) (hpos : u.work.pos = s.work.pos + len)
    (hrace : u.race.raced = false) : NextOrEnd v len s (u.nextValue v) := by
  obtain ⟨hi, e⟩ | ⟨hi, e⟩ := nextValue_cases v u <;> rw [e, NextOrEnd] <;> rw [hregs] at hi
  · rw [if_pos hi]
    exact ⟨rfl, hstatus, hret, hpos⟩
  · have hend : ¬u.retire.work.i.toNat < s.regs.size.toNat := not_lt.2 hi
    rw [if_neg hend, retire_of_not_raced hrace]
    refine ⟨rfl, by rw [← hstatus]; rfl, ?_, ?_⟩
    · rw [← hpos]; rfl
    · rw [← hpos]
      exact congrArg (BitVec.ofNat 32) (Nat.mul_div_cancel _ (by decide))

/-- The loop test changes no working register but the cursor. -/
theorem nextValue_work (v : Variant) (u : State) :
    (u.nextValue v).work = { u.work with pos := (u.nextValue v).work.pos } := by
  obtain ⟨-, e⟩ | ⟨-, e⟩ := nextValue_cases v u
  · rw [e]
  · rw [e]; rfl

theorem afterValue_work (v : Variant) (u : State) :
    (u.afterValue v).work = { u.work with pos := (u.afterValue v).work.pos } := by
  obtain ⟨-, e⟩ | ⟨-, e⟩ := afterValue_cases v u <;> rw [e]
  exact nextValue_work v u

theorem OnlyCoder.goesTo {s u t : State} (h : OnlyCoder s u) (ht : CoderGoesTo u t) : OnlyCoder s t := by
  unfold OnlyCoder at h ⊢
  obtain ⟨_, -, rfl⟩ | rfl := ht
  · rw [h]
  · rw [h]; rfl

/-! ### Values (R163, R165 to R168, R206 to R209) -/



/-- The stored coefficient, and the rest of PM. -/
theorem stored_pm_read {s : State} (len : Nat) (coef : Int) (hrace : s.race.raced = false) (hwf : s.pm.wf = true) :
    (s.stored len coef).pm.read s.emitAddr.toNat = BitVec.ofInt 16 coef ∧
      ∀ a, a ≠ s.emitAddr.toNat → (s.stored len coef).pm.read a = s.pm.read a := by
  rw [← coefSample_of_not_raced hrace coef]
  exact ⟨Memory.read_write_same _ _ _ hwf, fun a ha => Memory.read_write_ne _ _ ha⟩

/-- The cursor after one coefficient. -/
theorem advance_cursor (wk : Work) (width stride : Word) :
    if wk.j + 1#32 = width then
      (wk.advance width stride).j = 0#32 ∧ (wk.advance width stride).row = wk.row + stride
    else (wk.advance width stride).j = wk.j + 1#32 ∧ (wk.advance width stride).row = wk.row := by
  unfold Work.advance
  split_ifs <;> exact ⟨rfl, rfl⟩

/-- What comes after a value codeword: a run codeword behind the gate, or the loop test. -/
theorem afterValue_next {s u : State} {v : Variant} {len : Nat} {new : Int} (hregs : u.regs = s.regs)
    (hstatus : u.status = s.status) (hret : u.ret = s.ret) (hpos : u.work.pos = s.work.pos + len)
    (hrace : u.race.raced = false) (hnew : (u.work.state.toNat : Int) = new) :
    if new * 4 ≤ 0xFF ∧ (u.afterValue v).work.i.toNat < s.regs.size.toNat then
      (u.afterValue v).engine = .run v ∧ (u.afterValue v).status = s.status ∧ (u.afterValue v).ret = s.ret ∧
        (u.afterValue v).work.pos = s.work.pos + len
    else NextOrEnd v len s (u.afterValue v) := by
  have hi : (u.afterValue v).work.i = u.work.i := by rw [afterValue_work]
  have hgate : u.gate = true ↔ new * 4 ≤ 0xFF ∧ (u.afterValue v).work.i.toNat < s.regs.size.toNat := by
    rw [gate_iff, hi, hregs, ← hnew]
    refine and_congr_left fun _ => ?_
    omega
  obtain ⟨hg, e⟩ | ⟨hg, e⟩ := afterValue_cases v u
  · rw [if_pos (hgate.1 hg), e]
    exact ⟨rfl, hstatus, hret, hpos⟩
  · rw [if_neg (fun h => by rw [hgate.2 h] at hg; cases hg), e]
    exact nextOrEnd_nextValue hregs hstatus hret hpos hrace

/-- A value codeword that is ready does what the rules say. -/
theorem valueEffect_of_ready {s : State} {v : Variant} {len m x : Nat} (hx : x = m + s.work.flag.toNat)
    (h : ValueReady v len (newState (s.gain v) s x) s) :
    ∃ t, execCodeword (.value v) len (valueBody v m) (State.afterValue v) s = .next t ∧
      ValueEffect v len (s.coefOf x v) (newState (s.gain v) s x) s t := by
  subst hx
  obtain ⟨he, hrace, hwf, hbits, hcell, h0, hmax⟩ := h
  refine ⟨_, execValue_done he hbits hcell h0 hmax, ?_⟩
  have hstate := toNat_ofInt_of_range h0 hmax
  obtain ⟨hread, hother⟩ := stored_pm_read len (s.coefOf (m + s.work.flag.toNat) v) hrace hwf
  change newState (s.gain v) s (m + s.work.flag.toNat) ≤ _ at hmax
  generalize hu : s.valueDone len (s.coefOf (m + s.work.flag.toNat) v)
    (adapted (s.gain v) s.work.state.toNat (m + s.work.flag.toNat)) = u
  have hkept : OnlyCoder s u := by subst hu; rfl
  have hpm : u.pm = (s.stored len (s.coefOf (m + s.work.flag.toNat) v)).pm := by subst hu; rfl
  have hwork : u.work =
      { s.work.advance s.regs.width s.regs.stride with
        pos := s.work.pos + len
        state := BitVec.ofInt 32 (adapted (s.gain v) s.work.state.toNat (m + s.work.flag.toNat)), flag := false } := by
    subst hu; rfl
  have hnext := afterValue_next (s := s) (u := u) (v := v) (len := len) (by subst hu; rfl) (by subst hu; rfl)
    (by subst hu; rfl) (congrArg Work.pos hwork) (by subst hu; exact hrace)
    ((congrArg (fun wk : Work => (wk.state.toNat : Int)) hwork).trans hstate)
  refine ⟨hkept.goesTo (afterValue_goesTo v u), ?_, fun a ha => ?_, ?_, ?_, ?_, ?_, ?_, ?_, hnext⟩
  · rw [(leavesPM_afterValue v).pm, hpm, hread]
  · rw [(leavesPM_afterValue v).pm, hpm, hother a ha]
  · rw [afterValue_work, hwork]; exact hstate
  · rw [afterValue_work]; exact congrArg Work.flag hwork
  · rw [afterValue_work, hwork]; exact advance_i _ _ _
  · rw [afterValue_work, hwork]; exact advance_cursor _ _ _
  · rw [afterValue_work, hwork]; exact advance_nbits _ _ _
  · rw [afterValue_work, hwork]; exact advance_length _ _ _

/-- Settles O36: the three forms are the value codeword with the numbers of their table. -/
theorem lowValueForms : Obligations.LowValueForms := fun _ =>
  ⟨fun _ _ h => valueEffect_of_ready (v := .low) rfl h, fun _ _ _ _ _ h => valueEffect_of_ready (v := .low) rfl h,
    fun _ h => valueEffect_of_ready (v := .low) rfl h⟩

/-- Settles O38: the three forms are the value codeword with the numbers of their table; the escape has 25 bits. -/
theorem highValueForms : Obligations.HighValueForms := by
  intro s
  refine ⟨fun _ _ h => valueEffect_of_ready (v := .high) (Nat.add_comm _ _) h,
    fun _ _ _ _ _ h => valueEffect_of_ready (v := .high) (Nat.add_comm _ _) h, fun e hinv _ h => ?_⟩
  have he := h.1
  obtain ⟨-, hle, hlength, -⟩ := (hinv.running (by rw [he]; exact fun h => (nomatch h))).high (.inl he)
  have hlen : s.work.length + s.work.nbits = 25 := by omega
  change ∃ t, execHvX e s = .next t ∧ _
  rw [execHvX, hlen]
  exact valueEffect_of_ready (v := .high) (Nat.add_comm _ _) h

/-! ### Runs (R177, R218) -/

/-- Cells that are all written with one value read it. -/
theorem read_replay_of_mem {w : Nat} {v : BitVec w} {writes : List (Nat × BitVec w)} (hv : ∀ c ∈ writes, c.2 = v)
    {a : Nat} (ha : a ∈ writes.map Prod.fst) (m : Memory w) (hm : m.wf = true) : (m.replay writes).read a = v := by
  induction writes generalizing m with
  | nil => cases ha
  | cons c cs ih =>
    have hreplay : m.replay (c :: cs) = (m.write c.1 c.2).replay cs := rfl
    rw [hreplay]
    by_cases hin : a ∈ cs.map Prod.fst
    · exact ih (fun d hd => hv d (List.mem_cons_of_mem _ hd)) hin _ (Memory.wf_write _ _ _ hm)
    · have hac : a = c.1 := (List.mem_cons.1 ha).resolve_right hin
      rw [Memory.read_replay_ne _ _ _ (fun d hd e => hin (List.mem_map.2 ⟨d, hd, e.symm⟩)), hac,
        Memory.read_write_same _ _ _ hm]
      exact hv c (List.mem_cons_self ..)

theorem zeroSample_of_not_raced {s : State} (h : s.race.raced = false) (k : Nat) : s.zeroSample k = 0#16 := by
  rw [State.zeroSample, h, if_neg Bool.false_ne_true]

/-- Where the host has not raced the command, the cells of the first zeros read 0. -/
theorem ZerosAt.pm_read_zero {s u : State} {m k : Nat} (h : ZerosAt s m u) (hrace : s.race.raced = false)
    (hwf : s.pm.wf = true) (hk : k < m) : u.pm.read (s.coeffAddr (s.work.i.toNat + k)).toNat = 0#16 := by
  rw [h.pm]
  refine read_replay_of_mem (fun c hc => ?_) (List.mem_map.2 ⟨_, List.mem_map.2 ⟨k, List.mem_range.2 hk, rfl⟩, rfl⟩) _ hwf
  obtain ⟨k, -, rfl⟩ := List.mem_map.1 hc
  exact zeroSample_of_not_raced hrace _

theorem ZerosAt.onlyCoder {s u : State} {pos m : Nat} (h : ZerosAt (s.withPos pos) m u) : OnlyCoder s u := by
  unfold OnlyCoder
  rw [h.kept]
  rfl

theorem OnlyCoder.afterZeros {s u : State} (h : OnlyCoder s u) (rlen : Nat) :
    OnlyCoder s (Machine.afterZeros rlen u) := by
  unfold OnlyCoder at h ⊢
  rw [h]
  rfl

/-- A run codeword that is ready does what the rules say. -/
theorem runEffect_of_ready {s : State} {v : Variant} {len rlen : Nat} (hlen : v = .low ∨ rlen ≤ 0xFFFF)
    (h : RunReady v len rlen s) :
    ∃ t, execCodeword (.run v) len (runBody v rlen) (State.nextValue v) s = .next t ∧ RunEffect v len rlen s t := by
  obtain ⟨he, hrace, hwf, hinv, hbits, hfit, hcells⟩ := h
  have hs := hinv.running (by rw [he]; exact fun h => (nomatch h))
  have hran := zerosRan_emitZeros (s := s.withPos (s.work.pos + len)) ⟨hs.cursor.j, hs.cursor.row⟩ hs.width rlen hfit
  have hbody : runBody v rlen (s.withPos (s.work.pos + len)) =
      (emitZeros rlen (s.withPos (s.work.pos + len))).bind (fun s => .go (afterZeros rlen s)) :=
    (runBody_eq _ hlen).trans (zeroRun_of_le hfit)
  generalize emitZeros rlen (s.withPos (s.work.pos + len)) = run at hran hbody
  cases hran with
  | beyond hm hge => exact absurd (hcells _ hm) (not_lt.2 hge)
  | @all u hu =>
    refine ⟨_, execCodeword_go he hbits hbody, ?_⟩
    have hkept : OnlyCoder s (afterZeros rlen u) := hu.onlyCoder.afterZeros rlen
    have hstatus : u.status = s.status := by rw [hu.kept]; rfl
    have hret : u.ret = s.ret := by rw [hu.kept]; rfl
    have hwork : u.work = { s.work with pos := s.work.pos + len, i := u.work.i, j := u.work.j, row := u.work.row } :=
      congrArg State.work hu.kept
    have hregs : u.regs = s.regs := hu.regs_eq
    refine ⟨hkept.goesTo (nextValue_goesTo v _), fun k hk => ?_, fun a ha => ?_, ?_, ?_, ?_, ?_, ?_, ?_, ?_,
      nextOrEnd_nextValue (u := afterZeros rlen u) hregs hstatus hret (congrArg Work.pos hwork)
        (by rw [show (afterZeros rlen u).race = s.race from hu.race_eq, hrace])⟩
    · rw [(leavesPM_nextValue v).pm]
      exact hu.pm_read_zero hrace hwf hk
    · rw [(leavesPM_nextValue v).pm]
      exact hu.pm_read_of_outside ha
    · rw [nextValue_work]; rfl
    · rw [nextValue_work]; exact decide_eq_true_iff
    · rw [nextValue_work]; exact hu.i
    · rw [nextValue_work, ← hregs]; exact hu.cursor.j
    · rw [nextValue_work, ← hregs]; exact hu.cursor.row
    · rw [nextValue_work]; exact (congrArg Work.nbits hwork :)
    · rw [nextValue_work]; exact (congrArg Work.length hwork :)

/-- Settles O37: the three forms are the run codeword with the numbers of their table. -/
theorem lowRunForms : Obligations.LowRunForms := fun _ =>
  ⟨fun _ _ h => runEffect_of_ready (.inl rfl) h, fun _ _ _ _ _ h => runEffect_of_ready (.inl rfl) h,
    fun _ h => runEffect_of_ready (.inl rfl) h⟩

/-- Settles O39: the four forms are the run codeword with the numbers of their table, below the ceiling. -/
theorem highRunForms : Obligations.HighRunForms := fun _ =>
  ⟨fun _ _ hle h => runEffect_of_ready (.inr hle) h, fun _ _ _ _ _ hle h => runEffect_of_ready (.inr hle) h,
    fun _ hle h => runEffect_of_ready (.inr hle) h, fun _ hle h => runEffect_of_ready (.inr hle) h⟩

/-! ### Faults of codewords (R98, R66, R208, R218) -/

/-- Settles O40: whichever kind of codeword is due, its shell tests the bits first. -/
theorem codewordBitsExhausted : Obligations.CodewordBitsExhausted := by
  intro s c i hinv hc hwf hi hover
  have hs := hinv.running (fun he => by rw [State.ctx, he] at hc; cases hc)
  cases he : s.engine with
  | idle => rw [State.ctx, he] at hc; cases hc
  | value v =>
    obtain ⟨m, -, hexec⟩ := exec_of_value hs he hc hwf hi
    rw [hexec, execCodeword_exhausted he hover]
    rfl
  | run v =>
    obtain ⟨rlen, -, hexec⟩ := exec_of_run he hc hwf hi
    rw [hexec, execCodeword_exhausted he hover]
    rfl

theorem isCodeword_of_runNumber {n rlen : Nat} {i : Instr} (h : runNumber n i = some rlen) : i.isCodeword = true := by
  cases i with
  | layout | declow | dechigh | predict | filt1d | idwt => cases h
  | _ => rfl

theorem isCodeword_of_valueNumber {n m : Nat} {i : Instr} (h : valueNumber n i = some m) : i.isCodeword = true := by
  cases i with
  | layout | declow | dechigh | predict | filt1d | idwt => cases h
  | _ => rfl

theorem OnlyCoder.raise {s u : State} (h : OnlyCoder s u) (code : ErrCode) (hret : u.ret = s.ret)
    (hstatus : u.status = s.status) : CodewordFault code s (u.raise code) := by
  refine ⟨?_, rfl, hret, by rw [← hstatus]; rfl⟩
  unfold OnlyCoder at h ⊢
  rw [h]
  rfl

theorem codewordFault_withPos (s : State) (pos : Nat) (code : ErrCode) :
    CodewordFault code s ((s.withPos pos).raise code) :=
  OnlyCoder.raise (u := s.withPos pos) rfl code rfl rfl

/-- Settles O41: both tests come before the first zero, the ceiling's first. -/
theorem runRejections : Obligations.RunRejections := by
  intro s c i v rlen hinv he hc hwf hnum hbits
  obtain ⟨n, hn, hexec⟩ := exec_of_run he hc hwf (isCodeword_of_runNumber hnum)
  obtain rfl : rlen = n := Option.some.inj (hnum.symm.trans hn)
  rw [hexec]
  refine ⟨fun hv hlong => ?_, fun hlen hover => ?_⟩
  · subst hv
    exact ⟨_, execCodeword_stop he hbits (runBody_tooLong _ hlong), codewordFault_withPos _ _ _, rfl⟩
  · exact ⟨_, execCodeword_stop he hbits ((runBody_eq _ hlen).trans (if_pos hover)), codewordFault_withPos _ _ _, rfl⟩

/-- Settles O42: the coefficient is stored before the range of the new state is tested. -/
theorem stateRangeFault : Obligations.StateRangeFault := by
  intro s c i m hinv he hc hwf hnum hrace hpm hbits hcell x new hnew
  have hs := hinv.running (by rw [he]; exact fun h => (nomatch h))
  obtain ⟨n, hn, hexec⟩ := exec_of_value hs he hc hwf (isCodeword_of_valueNumber hnum)
  obtain rfl : m = n := Option.some.inj (hnum.symm.trans hn)
  have hx : x = m + s.work.flag.toNat := Nat.add_comm _ _
  obtain ⟨hread, hother⟩ := stored_pm_read (i.bitLength c) (s.coefOf x .high) hrace hpm
  change (newState _ s x < 0 ∨ Config.stateMax < newState _ s x) at hnew
  rw [hx] at hnew hread hother ⊢
  exact ⟨_, hexec.trans (execValue_range he hbits hcell hnew),
    OnlyCoder.raise (u := s.stored _ _) rfl _ rfl rfl, hread, hother⟩

/-- Settles O43: a value's cell is tested before it is written; a run stops at its first zero without a cell. -/
theorem coefficientOutOfBounds : Obligations.CoefficientOutOfBounds := by
  refine ⟨fun s c i v hinv he hc hwf hi hbits hcell => ?_,
    fun s c i v rlen m hinv he hc hwf hnum hrace hpm hbits hlen hfit hm hbeyond hcells => ?_⟩ <;>
    have hs := hinv.running (by rw [he]; exact fun h => (nomatch h))
  · obtain ⟨n, -, hexec⟩ := exec_of_value hs he hc hwf hi
    exact ⟨_, hexec.trans (execValue_beyond he hbits hcell), codewordFault_withPos _ _ _, rfl⟩
  · obtain ⟨n, hn, hexec⟩ := exec_of_run he hc hwf (isCodeword_of_runNumber hnum)
    obtain rfl : rlen = n := Option.some.inj (hnum.symm.trans hn)
    have hbody := (runBody_eq (s.withPos (s.work.pos + i.bitLength c)) (.inr hlen : v = .low ∨ _)).trans
      (zeroRun_of_le hfit)
    have hran := zerosRan_emitZeros (s := s.withPos (s.work.pos + i.bitLength c)) ⟨hs.cursor.j, hs.cursor.row⟩
      hs.width rlen hfit
    generalize emitZeros rlen (s.withPos (s.work.pos + i.bitLength c)) = run at hran hbody
    cases hran with
    | all hu => exact absurd (hu.inside m hm) (not_lt.2 hbeyond)
    | @beyond m' u hm' hge hu =>
      obtain rfl : m' = m := by
        rcases Nat.lt_trichotomy m' m with hlt | heq | hgt
        · exact absurd (hcells m' hlt) (not_lt.2 hge)
        · exact heq
        · exact absurd (hu.inside m hgt) (not_lt.2 hbeyond)
      exact ⟨_, hexec.trans (execCodeword_stop he hbits hbody),
        hu.onlyCoder.raise _ (by rw [hu.kept]; rfl) (by rw [hu.kept]; rfl),
        fun k hk => hu.pm_read_zero hrace hpm hk, fun a ha => hu.pm_read_of_outside ha⟩

end Sys2Proof.Machine

/-! SUPPORT. The commands on PM: `PREDICT` on every region, one application of the filter, and the schedule of `IDWT`
(R272, R290 to R302). -/

namespace Sys2Proof.Machine

/-! ### `PREDICT` on every region inside PM (R74, R272) -/

/-- Settles O49: `PREDICT` leaves the PM of `predictFold`, which changes the cells of the samples only. -/
theorem predictCompletes : Obligations.PredictCompletes := by
  intro s hb hmax hcells
  have hin : ∀ k, k < s.regs.height.toNat * s.regs.width.toNat → (s.sampleAddr k).toNat < s.cfg.pmSize := fun k hk => by
    obtain ⟨hr, hj⟩ := row_column_lt hk
    exact hcells _ _ hr hj
  obtain ⟨t, hexec, honly, hstatus, ht⟩ := exec_predict_of_inside hb hmax hin
  refine ⟨t, hexec, honly, hstatus, by rw [ht, Nat.mul_comm], fun a ha => ?_⟩
  rw [ht]
  refine predictFold_read_of_outside _ le_rfl (fun k hk => ?_)
  obtain ⟨hr, hj⟩ := row_column_lt hk
  exact ha _ _ hr hj

/-! ### The padded vectors (R292) -/

theorem getD_map_range {α : Type} (f : Nat → α) {n t : Nat} (h : t < n) (d : α) :
    ((List.range n).map f).getD t d = f t := by
  rw [List.getD_eq_getElem _ _ (by simpa using h), List.getElem_map, List.getElem_range]

/-- The first half of a vector. -/
theorem take_map_range {α : Type} (f : Nat → α) {n m : Nat} (h : m ≤ n) :
    ((List.range n).map f).take m = (List.range m).map f := by
  rw [← List.map_take, List.take_range, Nat.min_eq_left h]

/-- The second half of a vector. -/
theorem drop_map_range {α : Type} (f : Nat → α) (m k : Nat) :
    ((List.range (m + k)).map f).drop m = (List.range k).map (fun t => f (m + t)) := by
  rw [List.range_add, List.map_append, List.drop_left' (by simp), List.map_map]
  rfl

/-- Cell `t` of the padded `low` is `low[t - 1]`. -/
theorem padAt_padLow (x : Nat → Sample) {half t : Nat} (hhalf : 0 < half) (ht : t ≤ half + 2) :
    padAt (padLow ((List.range half).map x)) t = lowAt x half ((t : Int) - 1) := by
  rw [padAt, padLow, lowAt]
  congr 1
  have hlen : ((List.range half).map x).length = half := by simp
  rcases t with _ | t
  · exact getD_map_range x hhalf _
  rw [List.cons_append, List.getD_cons_succ, hlen]
  rcases Nat.lt_or_ge t half with hlt | hge
  · rw [List.getD_append _ _ _ _ (by rwa [hlen]), getD_map_range x hlt]
    congr 1
    simp only [lowIndex]
    split_ifs <;> omega
  · rw [List.getD_append_right _ _ _ _ (by rwa [hlen]), hlen]
    obtain rfl | rfl : t = half ∨ t = half + 1 := by omega
    · rw [Nat.sub_self, List.getD_cons_zero, getD_map_range x (by omega)]
      congr 1
      simp only [lowIndex]
      split_ifs <;> omega
    · rw [Nat.add_sub_cancel_left, List.getD_cons_succ, List.getD_cons_zero, getD_map_range x (by omega)]
      congr 1
      simp only [lowIndex]
      split_ifs <;> omega

/-- Cell `t` of the padded `high` is `high[t - 1]`. -/
theorem padAt_padHigh (x : Nat → Sample) {half t : Nat} (hhalf : 0 < half) (ht : t ≤ half + 1) :
    padAt (padHigh ((List.range half).map (fun u => x (half + u)))) t = highAt x half ((t : Int) - 1) := by
  rw [padAt, padHigh, highAt]
  congr 1
  have hlen : ((List.range half).map (fun u => x (half + u))).length = half := by simp
  rcases t with _ | t
  · exact getD_map_range (fun u => x (half + u)) hhalf _
  rw [List.cons_append, List.getD_cons_succ, hlen]
  rcases Nat.lt_or_ge t half with hlt | hge
  · rw [List.getD_append _ _ _ _ (by rwa [hlen]), getD_map_range _ hlt]
    congr 2
    simp only [highIndex]
    split_ifs <;> omega
  · rw [List.getD_append_right _ _ _ _ (by rwa [hlen]), hlen]
    obtain rfl : t = half := by omega
    rw [Nat.sub_self, List.getD_cons_zero, getD_map_range _ (by omega)]
    congr 2
    simp only [highIndex]
    split_ifs <;> omega

/-! ### The outputs (R294, R298) -/

/-- Output `t` of the filter on the vector `x` with `half` low samples. -/
def filterOut (scale : BitVec 64) (x : Nat → Sample) (half t : Nat) : Sample :=
  scaleNarrow scale (if t % 2 = 0 then refEven x half (t / 2) else refOdd x half (t / 2))

theorem evenOut_pad (scale : BitVec 64) (x : Nat → Sample) {half i : Nat} (hi : i < half) :
    evenOut scale (padLow ((List.range half).map x)) (padHigh ((List.range half).map (fun u => x (half + u)))) i =
      scaleNarrow scale (refEven x half i) := by
  rw [evenOut, padAt_padLow x (by omega) (by omega), padAt_padLow x (by omega) (by omega),
    padAt_padLow x (by omega) (by omega), padAt_padHigh x (by omega) (by omega), padAt_padHigh x (by omega) (by omega),
    refEven, kernelEven]
  have h1 : ((i + 1 : Nat) : Int) - 1 = i := by omega
  have h2 : ((i + 2 : Nat) : Int) - 1 = i + 1 := by omega
  rw [h1, h2]
  rfl

theorem oddOut_pad (scale : BitVec 64) (x : Nat → Sample) {half i : Nat} (hi : i < half) :
    oddOut scale (padLow ((List.range half).map x)) (padHigh ((List.range half).map (fun u => x (half + u)))) i =
      scaleNarrow scale (refOdd x half i) := by
  rw [oddOut, padAt_padLow x (by omega) (by omega), padAt_padLow x (by omega) (by omega),
    padAt_padLow x (by omega) (by omega), padAt_padLow x (by omega) (by omega), padAt_padHigh x (by omega) (by omega),
    padAt_padHigh x (by omega) (by omega), padAt_padHigh x (by omega) (by omega), refOdd, kernelOdd]
  have h1 : ((i + 1 : Nat) : Int) - 1 = i := by omega
  have h2 : ((i + 2 : Nat) : Int) - 1 = i + 1 := by omega
  have h3 : ((i + 3 : Nat) : Int) - 1 = i + 2 := by omega
  rw [h1, h2, h3]
  rfl

theorem synthesis_succ (scale : BitVec 64) (half : Nat) (low high : List Sample) :
    synthesis scale (half + 1) low high =
      synthesis scale half low high ++ [evenOut scale low high half, oddOut scale low high half] := by
  rw [synthesis, List.range_succ, List.flatMap_append, List.flatMap_singleton]
  rfl

theorem length_synthesis (scale : BitVec 64) (half : Nat) (low high : List Sample) :
    (synthesis scale half low high).length = 2 * half := by
  induction half with
  | zero => rfl
  | succ half ih =>
    rw [synthesis_succ, List.length_append, ih]
    rfl

/-- The outputs are interleaved. -/
theorem getD_synthesis (scale : BitVec 64) (low high : List Sample) {half i : Nat} (hi : i < half) :
    (synthesis scale half low high).getD (2 * i) 0#16 = evenOut scale low high i ∧
      (synthesis scale half low high).getD (2 * i + 1) 0#16 = oddOut scale low high i := by
  induction half with
  | zero => omega
  | succ half ih =>
    have hlen := length_synthesis scale half low high
    rw [synthesis_succ]
    rcases Nat.lt_or_ge i half with hlt | hge
    · rw [List.getD_append _ _ _ _ (by omega), List.getD_append _ _ _ _ (by omega)]
      exact ih hlt
    · obtain rfl : i = half := by omega
      rw [List.getD_append_right _ _ _ _ (by omega), List.getD_append_right _ _ _ _ (by omega), hlen, Nat.sub_self,
        Nat.add_sub_cancel_left]
      exact ⟨rfl, rfl⟩

/-- Every output of the filter is that of the reference. -/
theorem getD_synthesis_pad (scale : BitVec 64) (x : Nat → Sample) {half t : Nat} (ht : t < 2 * half) :
    (synthesis scale half (padLow ((List.range half).map x))
      (padHigh ((List.range half).map (fun u => x (half + u))))).getD t 0#16 = filterOut scale x half t := by
  rw [filterOut]
  obtain ⟨i, rfl | rfl⟩ := Nat.even_or_odd' t
  · rw [(getD_synthesis _ _ _ (by omega)).1, evenOut_pad _ _ (by omega), if_pos (by omega)]
    congr 2
    omega
  · rw [(getD_synthesis _ _ _ (by omega)).2, oddOut_pad _ _ (by omega), if_neg (by omega)]
    congr 2
    omega

/-! ### One application (R298) -/

/-- The writes of one application, in order. -/
def FilterApp.writes (pm : Memory 16) (f : FilterApp) : List (Nat × Sample) :=
  (List.range f.n).map (fun t => (f.addr t, filterOut f.scale (fun u => pm.read (f.addr u)) (f.n / 2) t))

theorem foldl_write {w : Nat} (addr : Nat → Nat) (v : Nat → BitVec w) (ts : List Nat) (m : Memory w) :
    ts.foldl (fun m t => m.write (addr t) (v t)) m = m.replay (ts.map (fun t => (addr t, v t))) := by
  rw [Memory.replay, List.foldl_map]

theorem FilterApp.apply_eq_replay (pm : Memory 16) (f : FilterApp) : FilterApp.apply pm f = pm.replay (f.writes pm) :=
  foldl_write _ _ _ _

/-- An application changes its own cells only. -/
theorem FilterApp.apply_read_of_outside (pm : Memory 16) (f : FilterApp) {a : Nat} (ha : ∀ t, t < f.n → f.addr t ≠ a) :
    (FilterApp.apply pm f).read a = pm.read a := by
  rw [FilterApp.apply_eq_replay]
  refine Memory.read_replay_ne _ _ _ (fun c hc => ?_)
  obtain ⟨t, ht, rfl⟩ := List.mem_map.1 hc
  exact (ha t (List.mem_range.1 ht)).symm

/-- Every cell of the application exists (R66). -/
def FilterApp.Inside (f : FilterApp) (size : Nat) : Prop := ∀ t, t < f.n → f.addr t < size

/-- The model's filter on an even number of cells that all exist is one application. -/
theorem filterCells_of_inside {f : FilterApp} {s : State} (heven : f.n % 2 = 0) (hin : f.Inside s.cfg.pmSize) :
    ∃ u, filterCells f.base f.n f.pitch f.scale s = .go u ∧ u.pm = FilterApp.apply s.pm f ∧
      u = { s with pm := u.pm, pmLog := u.pmLog, scratch := u.scratch } := by
  obtain ⟨half, hn⟩ : ∃ half, f.n = half + half := ⟨f.n / 2, by omega⟩
  have hhalf : f.n / 2 = half := by omega
  let x : Nat → Sample := fun u => s.pm.read (f.addr u)
  have hread : s.readVec f.base f.pitch f.n = some ((List.range f.n).map x) := readVec_of_lt f.n hin
  have htake : ((List.range f.n).map x).take half = (List.range half).map x := take_map_range x (by omega)
  have hdrop : ((List.range f.n).map x).drop half = (List.range half).map (fun u => x (half + u)) := by
    rw [hn]; exact drop_map_range x half half
  rw [filterCells, hread]
  dsimp only
  rw [hhalf, htake, hdrop]
  have hlen := length_synthesis f.scale half (padLow ((List.range half).map x))
    (padHigh ((List.range half).map (fun u => x (half + u))))
  rw [writeVec_of_lt _ _ _ _ (by rw [hlen]; exact fun t ht => hin t (by omega)), hlen, foldl_storeSample]
  refine ⟨_, rfl, ?_, rfl⟩
  rw [FilterApp.apply_eq_replay, FilterApp.writes, hhalf, show f.n = 2 * half by omega]
  refine congrArg s.pm.replay (List.map_congr_left fun t ht => ?_)
  rw [getD_synthesis_pad f.scale x (List.mem_range.1 ht)]
  rfl

/-! ### A list of applications -/

/-- `u` is where a command accepted in `s` stands after the applications `done`, whose cells all exist. -/
structure AppsAt (s : State) (done : List FilterApp) (u : State) : Prop where
  inside : ∀ f ∈ done, f.Inside s.cfg.pmSize
  kept : u = { s with pm := u.pm, pmLog := u.pmLog, scratch := u.scratch }
  pm : u.pm = done.foldl FilterApp.apply s.pm

theorem appsAt_nil (s : State) : AppsAt s [] s := ⟨fun _ h => (nomatch h), rfl, rfl⟩

/-- How a part of a command that is to come to the end of the applications `apps` ends. -/
inductive AppsRan (s : State) (apps : List FilterApp) : Run → Prop
  /-- Every application has its cells. -/
  | all {u : State} (h : AppsAt s apps u) : AppsRan s apps (.go u)
  /-- `f` is the first application with a cell beyond PM (R66). -/
  | beyond {done rest : List FilterApp} {f : FilterApp} {u : State} (hf : apps = done ++ f :: rest)
      (hge : ¬f.Inside s.cfg.pmSize) (h : AppsAt s done u) : AppsRan s apps (.stop .memBounds u)

theorem AppsRan.bind {s : State} {apps more : List FilterApp} {run : Run} {g : State → Run} (h : AppsRan s apps run)
    (hg : ∀ u, AppsAt s apps u → AppsRan s (apps ++ more) (g u)) : AppsRan s (apps ++ more) (run.bind g) := by
  cases h with
  | all h => exact hg _ h
  | beyond hf hge h => exact .beyond (by rw [hf, List.append_assoc, List.cons_append]) hge h

/-- A loop whose iteration `t` runs the applications `seg t`. -/
theorem appsRan_forUpTo {s u : State} {done : List FilterApp} {body : Nat → State → Run} {seg : Nat → List FilterApp}
    (hu : AppsAt s done u)
    (hbody : ∀ t done v, AppsAt s done v → AppsRan s (done ++ seg t) (body t v)) (n : Nat) :
    AppsRan s (done ++ (List.range n).flatMap seg) (Run.forUpTo n body u) := by
  induction n with
  | zero => exact .all (by simpa using hu)
  | succ n ih =>
    rw [forUpTo_succ, List.range_succ, List.flatMap_append, List.flatMap_singleton, ← List.append_assoc]
    exact ih.bind (hbody n _)

/-- One more application. -/
theorem AppsAt.filterCells {s u : State} {done : List FilterApp} (h : AppsAt s done u) (f : FilterApp)
    (heven : f.n % 2 = 0) : AppsRan s (done ++ [f]) (Machine.filterCells f.base f.n f.pitch f.scale u) := by
  have hcfg : u.cfg = s.cfg := by rw [h.kept]
  by_cases hin : f.Inside s.cfg.pmSize
  · obtain ⟨v, hv, hpm, hkept⟩ := filterCells_of_inside (s := u) heven (by rwa [hcfg])
    rw [hv]
    refine .all ⟨fun g hg => ?_, by rw [hkept, h.kept], by rw [hpm, h.pm, List.foldl_concat]⟩
    obtain hg | hg := List.mem_append.1 hg
    · exact h.inside g hg
    · rwa [List.mem_singleton.1 hg]
  · obtain ⟨t, ht⟩ := not_forall.1 hin
    obtain ⟨ht, hge⟩ := Classical.not_imp.1 ht
    rw [filterCells_of_ge ht (by rw [hcfg]; exact not_lt.1 hge)]
    exact .beyond rfl hin h

theorem AppsRan.go_of_inside {s : State} {apps : List FilterApp} {run : Run} (h : AppsRan s apps run)
    (hin : ∀ f ∈ apps, f.Inside s.cfg.pmSize) : ∃ u, run = .go u ∧ AppsAt s apps u := by
  cases h with
  | all h => exact ⟨_, rfl, h⟩
  | beyond hf hge => exact absurd (hin _ (by rw [hf]; simp)) hge

/-- The first application with a cell beyond PM is where the command faults. -/
theorem AppsRan.stop_of_beyond {s : State} {apps : List FilterApp} {run : Run} {m : Nat} {f : FilterApp}
    (h : AppsRan s apps run) (hf : apps[m]? = some f) (hge : ¬f.Inside s.cfg.pmSize)
    (hin : ∀ g ∈ apps.take m, g.Inside s.cfg.pmSize) : ∃ u, run = .stop .memBounds u ∧ AppsAt s (apps.take m) u := by
  cases h with
  | all h => exact absurd (h.inside f (List.mem_of_getElem? hf)) hge
  | @beyond done rest f' u happs hge' h =>
    obtain rfl : done.length = m := by
      subst happs
      rcases Nat.lt_trichotomy done.length m with hlt | heq | hgt
      · refine absurd (hin f' ?_) hge'
        rw [List.take_append, List.take_of_length_le hlt.le]
        obtain ⟨k, hk⟩ := Nat.exists_eq_add_of_lt hlt
        rw [show m - done.length = k + 1 by omega]
        simp
      · exact heq
      · rw [List.getElem?_append_left hgt] at hf
        exact absurd (h.inside f (List.mem_of_getElem? hf)) hge
    refine ⟨u, rfl, ?_⟩
    rwa [happs, List.take_left']
    rfl

/-- A list of applications changes their cells only. -/
theorem foldl_apply_read_of_outside (apps : List FilterApp) (pm : Memory 16) {a : Nat}
    (ha : ∀ f ∈ apps, ∀ t, t < f.n → f.addr t ≠ a) : (apps.foldl FilterApp.apply pm).read a = pm.read a := by
  induction apps generalizing pm with
  | nil => rfl
  | cons f apps ih =>
    rw [List.foldl_cons, ih _ (fun g hg => ha g (List.mem_cons_of_mem _ hg)),
      FilterApp.apply_read_of_outside _ _ (ha f (List.mem_cons_self ..))]

theorem AppsAt.onlyPlane_complete {s u : State} {apps : List FilterApp} (h : AppsAt s.accept apps u) :
    OnlyPlane s u.complete ∧ u.complete.status = s.status.doneOf := by
  rw [h.kept]
  exact ⟨rfl, rfl⟩

theorem AppsAt.onlyPlane_raise {s u : State} {apps : List FilterApp} (h : AppsAt s.accept apps u) (code : ErrCode) :
    OnlyPlane s (u.raise code) ∧ (u.raise code).status = s.status.faultOf code := by
  rw [h.kept]
  exact ⟨rfl, rfl⟩

/-! ### `FILT1D` (R290 to R298) -/

/-- Settles O52: past the checks, `FILT1D` is one application. -/
theorem filt1dCompletes : Obligations.Filt1dCompletes := by
  intro s N f hb htwo heven hmax hscale hin
  have hran := (appsAt_nil s.accept).filterCells f heven
  obtain ⟨u, hrun, hu⟩ := hran.go_of_inside (fun g hg => by rw [List.mem_singleton.1 hg]; exact hin)
  have hbody : filt1dBody s.accept = .go u :=
    (filt1dBody_filterCells (s := s.accept) htwo heven hmax hscale).trans hrun
  obtain ⟨honly, hstatus⟩ := hu.onlyPlane_complete
  refine ⟨u.complete, ?_, honly, hstatus, hu.pm, fun a ha => ?_⟩
  · exact runCommand_next.2 (.inr ⟨hb, by rw [hbody]; rfl⟩)
  · rw [show u.complete.pm = u.pm from rfl, hu.pm]
    exact FilterApp.apply_read_of_outside _ _ ha

/-- Distinct cells read what was written to each. -/
theorem read_replay_of_distinct {w : Nat} {m : Memory w} (hm : m.wf = true) {addr : Nat → Nat}
    (v : Nat → BitVec w) {n : Nat}
    (hd : ∀ t u, t < n → u < n → addr t = addr u → t = u) {t : Nat} (ht : t < n) :
    (m.replay ((List.range n).map (fun t => (addr t, v t)))).read (addr t) = v t := by
  induction n with
  | zero => omega
  | succ n ih =>
    rw [List.range_succ, List.map_append, Memory.replay_append]
    have hlast (m' : Memory w) : m'.replay ([n].map (fun t => (addr t, v t))) = m'.write (addr n) (v n) := rfl
    rw [hlast]
    obtain hlt | rfl := Nat.lt_succ_iff_lt_or_eq.1 ht
    · rw [Memory.read_write_ne _ _ (fun e => hlt.ne (hd t n (by omega) (by omega) e)),
        ih (fun t u ht hu => hd t u (by omega) (by omega)) hlt]
    · exact Memory.read_write_same _ _ _ (Memory.wf_replay _ _ hm)

/-- Settles O51: on distinct cells every cell holds its own output. -/
theorem filt1dResult : Obligations.Filt1dResult := by
  intro s N cell x hb hwf htwo heven hmax hscale hin hd
  obtain ⟨t, hexec, honly, hstatus, hpm, hframe⟩ := filt1dCompletes s hb htwo heven hmax hscale hin
  refine ⟨t, hexec, honly, hstatus, fun i hi => ?_, hframe⟩
  have hout : ∀ k, k < N → t.pm.read (cell k) = filterOut s.regs.fscale x (N / 2) k := fun k hk => by
    rw [hpm, FilterApp.apply_eq_replay]
    exact read_replay_of_distinct hwf _ hd hk
  have heven' : 2 * i / 2 = i := by omega
  have hodd' : (2 * i + 1) / 2 = i := by omega
  rw [hout _ (by omega), hout _ (by omega), filterOut, filterOut, if_pos (by omega), if_neg (by omega), heven', hodd']
  exact ⟨rfl, rfl⟩

/-! ### `IDWT` (R300 to R302) -/

/-- The application to row `r` of level `k`. -/
def rowApp (s : State) (p : Plane) (k r : Nat) : FilterApp where
  base := elemAddr (s.regs.pbase.get p) (s.regs.pstride.get p) r
  n := levelSize (s.pw.get p) k
  pitch := 1#32
  scale := (s.scale.get p).ver.get k

/-- The application to column `x` of level `k`. -/
def colApp (s : State) (p : Plane) (k x : Nat) : FilterApp where
  base := s.regs.pbase.get p + BitVec.ofNat 32 x
  n := levelSize (s.ph.get p) k
  pitch := s.regs.pstride.get p
  scale := (s.scale.get p).hor.get k

/-- The applications of one row pass, top to bottom. -/
def rowApps (s : State) (p : Plane) (k : Nat) : List FilterApp :=
  (List.range (levelSize (s.ph.get p) k)).map (rowApp s p k)

/-- The applications of one column pass, left to right. -/
def colApps (s : State) (p : Plane) (k : Nat) : List FilterApp :=
  (List.range (levelSize (s.pw.get p) k)).map (colApp s p k)

theorem idwtSchedule_eq (s : State) (p : Plane) :
    idwtSchedule s p = (List.range 4).flatMap (fun k => rowApps s p k ++ colApps s p k) := rfl

theorem levelSize_even (d : Word) (k : Nat) : levelSize d k % 2 = 0 := by
  rw [levelSize, pow_succ, ← Nat.mul_assoc]
  exact Nat.mul_mod_left _ _

section Passes

variable {s u : State} {done : List FilterApp} (h : AppsAt s done u) (p : Plane) (k : Nat)

include h

theorem AppsAt.idwtRows : AppsRan s (done ++ rowApps s p k) (Machine.idwtRows p k u) := by
  have hsize : levelSize (u.ph.get p) k = levelSize (s.ph.get p) k := by rw [h.kept]
  rw [Machine.idwtRows, hsize, rowApps, List.map_eq_flatMap]
  refine appsRan_forUpTo h (fun r done v hv => ?_) _
  have happ := hv.filterCells (rowApp s p k r) (levelSize_even _ _)
  have hsame : rowApp v p k r = rowApp s p k r := by rw [hv.kept]; rfl
  rw [← hsame] at happ ⊢
  exact happ

theorem AppsAt.idwtCols : AppsRan s (done ++ colApps s p k) (Machine.idwtCols p k u) := by
  have hsize : levelSize (u.pw.get p) k = levelSize (s.pw.get p) k := by rw [h.kept]
  rw [Machine.idwtCols, hsize, colApps, List.map_eq_flatMap]
  refine appsRan_forUpTo h (fun x done v hv => ?_) _
  have happ := hv.filterCells (colApp s p k x) (levelSize_even _ _)
  have hsame : colApp v p k x = colApp s p k x := by rw [hv.kept]; rfl
  have haddr : (colApp v p k x).base = elemAddr (v.regs.pbase.get p) 1#32 x := by
    rw [elemAddr, BitVec.mul_one]; rfl
  rw [← hsame] at happ ⊢
  rw [haddr] at happ
  exact happ

end Passes

/-- Past its checks, `IDWT` runs the applications of its schedule. -/
theorem appsRan_idwtBody {s : State} (p : Plane) (hl : s.status.lvalid = true) (hhor : (s.scale.get p).hor.finite = true)
    (hver : (s.scale.get p).ver.finite = true) : AppsRan s (idwtSchedule s p) (idwtBody p s) := by
  rw [idwtBody, if_neg (by simp [hl]), if_neg (by simp [hhor, hver]), idwtSchedule_eq]
  have hlevel : ∀ k done v, AppsAt s done v →
      AppsRan s (done ++ (rowApps s p k ++ colApps s p k)) ((Machine.idwtRows p k v).bind (Machine.idwtCols p k)) :=
    fun k done v hv => by
      rw [← List.append_assoc]
      exact (hv.idwtRows p k).bind (fun _ hw => hw.idwtCols p k)
  have hran := appsRan_forUpTo (appsAt_nil s) hlevel 4
  rwa [List.nil_append] at hran

theorem exec_idwt_of_idle {s : State} (p : Plane) (hb : s.status.busy = false) :
    exec (.idwt p) s = .next (idwtBody p s.accept).settle := runCommand_next.2 (.inr ⟨hb, rfl⟩)

theorem idwtBody_badConfig {s : State} {p : Plane} (h : s.status.lvalid = false ∨ (s.scale.get p).hor.finite = false ∨
    (s.scale.get p).ver.finite = false) : idwtBody p s = .stop .badConfig s := by
  rw [idwtBody]
  obtain hl | hhor | hver := h
  · rw [if_pos hl]
  · rw [hhor, Bool.false_and, if_pos rfl, ite_self]
  · rw [hver, Bool.and_false, if_pos rfl, ite_self]

/-- Settles O55: the checks come first; then the schedule stops at its first application beyond PM. -/
theorem idwtFaults : Obligations.IdwtFaults := by
  refine fun s p hb => ⟨fun hbad => ?_, fun m f hl hhor hver hf hin hbeyond => ?_⟩
  · rw [exec_idwt_of_idle p hb, idwtBody_badConfig (s := s.accept) hbad]
    rfl
  · obtain ⟨t, ht, hge⟩ := hbeyond
    have hran := appsRan_idwtBody (s := s.accept) p hl hhor hver
    obtain ⟨u, hrun, hu⟩ := hran.stop_of_beyond hf (fun h => absurd (h t ht) (not_lt.2 hge)) hin
    obtain ⟨honly, hstatus⟩ := hu.onlyPlane_raise .memBounds
    exact ⟨u.raise .memBounds, by rw [exec_idwt_of_idle p hb, hrun]; rfl, honly, hstatus, hu.pm⟩

/-- Every cell of the schedule is a sample of the plane. -/
theorem idwtSchedule_addr {s : State} {p : Plane} {f : FilterApp} {t : Nat} (hf : f ∈ idwtSchedule s p) (ht : t < f.n) :
    ∃ x y, x < (s.pw.get p).toNat ∧ y < (s.ph.get p).toNat ∧ f.addr t = (s.planeAddr p x y).toNat := by
  have hsize : ∀ (d : Word) k, k < 4 → levelSize d k ≤ d.toNat := fun d k hk => by
    have hpow : 2 ^ (k + 1) ≤ 2 ^ 4 := Nat.pow_le_pow_right (by omega) (by omega)
    calc levelSize d k ≤ d.toNat / 16 * 2 ^ 4 := Nat.mul_le_mul_left _ hpow
      _ ≤ d.toNat := Nat.div_mul_le_self _ _
  rw [idwtSchedule_eq] at hf
  obtain ⟨k, hk, hf⟩ := List.mem_flatMap.1 hf
  have hw := hsize (s.pw.get p) k (List.mem_range.1 hk)
  have hh := hsize (s.ph.get p) k (List.mem_range.1 hk)
  obtain hf | hf := List.mem_append.1 hf
  · obtain ⟨r, hr, rfl⟩ := List.mem_map.1 hf
    refine ⟨t, r, lt_of_lt_of_le ht hw, (List.mem_range.1 hr).trans_le hh, ?_⟩
    rw [FilterApp.addr, elemAddr, rowApp, BitVec.mul_one]
    rfl
  · obtain ⟨x, hx, rfl⟩ := List.mem_map.1 hf
    refine ⟨x, t, (List.mem_range.1 hx).trans_le hw, lt_of_lt_of_le ht hh, ?_⟩
    rw [FilterApp.addr, elemAddr, colApp, State.planeAddr, BitVec.add_assoc, BitVec.add_comm (BitVec.ofNat 32 x),
      ← BitVec.add_assoc]

/-- The number of applications: each level has a row for each line of its block and a column for each column. -/
theorem length_idwtSchedule {s : State} {p : Plane} {m n : Nat} (hw : (s.pw.get p).toNat = 16 * m)
    (hh : (s.ph.get p).toNat = 16 * n) : (idwtSchedule s p).length = 30 * (m + n) := by
  have hlevel : ∀ k, (rowApps s p k ++ colApps s p k).length = (n + m) * 2 ^ (k + 1) := fun k => by
    rw [List.length_append, rowApps, colApps, List.length_map, List.length_map, List.length_range, List.length_range,
      levelSize, levelSize, hw, hh, Nat.mul_div_cancel_left _ (by decide), Nat.mul_div_cancel_left _ (by decide),
      ← Nat.add_mul]
  rw [idwtSchedule_eq, List.length_flatMap]
  simp only [hlevel, List.range, List.range.loop, List.map, List.sum_cons, List.sum_nil]
  omega

/-- Settles O54: the schedule runs to its end, inside the plane. -/
theorem idwtResult : Obligations.IdwtResult := by
  intro s p _ hb hlayout hl hhor hver hcells
  obtain ⟨hw0, hh0, hw32, hh32, -, -, hpw, hph, -⟩ := hlayout hl
  obtain ⟨m, -, hm, -⟩ := planeDims_get hw0 hw32 p
  obtain ⟨n, -, hn, -⟩ := planeDims_get hh0 hh32 p
  rw [← hpw] at hm
  rw [← hph] at hn
  have hin : ∀ f ∈ idwtSchedule s p, f.Inside s.cfg.pmSize := fun f hf t ht => by
    obtain ⟨x, y, hx, hy, e⟩ := idwtSchedule_addr hf ht
    rw [e]
    exact hcells x y hx hy
  obtain ⟨u, hrun, hu⟩ := (appsRan_idwtBody (s := s.accept) p hl hhor hver).go_of_inside hin
  obtain ⟨honly, hstatus⟩ := hu.onlyPlane_complete
  refine ⟨u.complete, by rw [exec_idwt_of_idle p hb, hrun]; rfl, honly, hstatus, hu.pm, ?_, fun a ha => ?_⟩
  · rw [length_idwtSchedule hm hn, hm, hn]
    omega
  · rw [show u.complete.pm = u.pm from rfl, hu.pm]
    refine foldl_apply_read_of_outside _ _ (fun f hf t ht => ?_)
    obtain ⟨x, y, hx, hy, e⟩ := idwtSchedule_addr (s := s) hf ht
    rw [e]
    exact ha x y hx hy

end Sys2Proof.Machine

/-! SUPPORT. The filter numerics: rounding to a multiple of a power of two, and `RNE64` (R11, R296). -/

namespace Sys2Proof.Machine

/-! ### Rounding to a multiple (R11) -/

/-- The quotient is kept or raised by one, by which of the two multiples is nearer. -/
theorem roundEven_cases (a d : Nat) :
    (roundEven a d = a / 2 ^ d ∧ 2 * (a % 2 ^ d) ≤ 2 ^ d ∧ (2 * (a % 2 ^ d) = 2 ^ d → a / 2 ^ d % 2 = 0)) ∨
    (roundEven a d = a / 2 ^ d + 1 ∧ 2 ^ d ≤ 2 * (a % 2 ^ d) ∧ (2 * (a % 2 ^ d) = 2 ^ d → a / 2 ^ d % 2 = 1)) := by
  by_cases h : 2 ^ d < 2 * (a % 2 ^ d) ∨ (2 * (a % 2 ^ d) = 2 ^ d ∧ a / 2 ^ d % 2 = 1)
  · exact .inr ⟨if_pos h, by omega, by omega⟩
  · exact .inl ⟨if_neg h, by omega, by omega⟩

/-- Settles O56: the remainder, or what it lacks of `2^d`, is the distance. -/
theorem roundEvenIsNearest : Obligations.RoundEvenIsNearest := by
  intro a d
  have hdiv := Nat.div_add_mod' a (2 ^ d)
  have hlt := Nat.mod_lt a (Nat.two_pow_pos d)
  have hcast : ((2 : Int) ^ d) = ((2 ^ d : Nat) : Int) := by norm_cast
  rw [hcast]
  obtain ⟨hq, hhalf, htie⟩ | ⟨hq, hhalf, htie⟩ := roundEven_cases a d <;> rw [hq]
  · have hdist : ((a / 2 ^ d : Nat) : Int) * (2 ^ d : Nat) - a = -((a % 2 ^ d : Nat) : Int) := by
      have : ((a / 2 ^ d * 2 ^ d + a % 2 ^ d : Nat) : Int) = a := by rw [hdiv]
      push_cast at this ⊢
      linarith
    rw [hdist]
    omega
  · have hdist : ((a / 2 ^ d + 1 : Nat) : Int) * (2 ^ d : Nat) - a = ((2 ^ d - a % 2 ^ d : Nat) : Int) := by
      have : ((a / 2 ^ d * 2 ^ d + a % 2 ^ d : Nat) : Int) = a := by rw [hdiv]
      rw [Nat.cast_sub hlt.le]
      push_cast at this ⊢
      linarith
    rw [hdist]
    omega

/-- No multiple of `2^d` is nearer, over the rational numbers. -/
theorem abs_roundEven_le (a d : Nat) (k : Int) :
    |(a : ℚ) - roundEven a d * 2 ^ d| ≤ |(a : ℚ) - k * 2 ^ d| := by
  obtain ⟨hnear, -⟩ := roundEvenIsNearest a d
  have hnear' : 2 * |(roundEven a d : Int) * 2 ^ d - a| ≤ 2 ^ d := by
    rw [Int.abs_eq_natAbs]
    exact_mod_cast hnear
  have hint : |(a : Int) - roundEven a d * 2 ^ d| ≤ |(a : Int) - k * 2 ^ d| := by
    rw [abs_sub_comm] at hnear'
    obtain rfl | hne := eq_or_ne k (roundEven a d)
    · exact le_rfl
    · have hone : 1 ≤ |k - roundEven a d| := Int.one_le_abs (sub_ne_zero.2 hne)
      have hfar : (2 : Int) ^ d ≤ |k * 2 ^ d - roundEven a d * 2 ^ d| := by
        rw [← sub_mul, abs_mul, abs_of_pos (a := (2 : Int) ^ d) (by positivity)]
        exact le_mul_of_one_le_left (by positivity) hone
      have htri := abs_sub_le (k * 2 ^ d) (a : Int) (roundEven a d * 2 ^ d)
      rw [abs_sub_comm (k * 2 ^ d) (a : Int)] at htri
      linarith
  exact_mod_cast hint

/-- The rounded quotient is within half a unit. -/
theorem abs_sub_roundEven_le_half (a d : Nat) : 2 * |(a : ℚ) - roundEven a d * 2 ^ d| ≤ 2 ^ d := by
  obtain ⟨hnear, -⟩ := roundEvenIsNearest a d
  have hnear' : 2 * |(a : Int) - roundEven a d * 2 ^ d| ≤ 2 ^ d := by
    rw [abs_sub_comm, Int.abs_eq_natAbs]
    exact_mod_cast hnear
  exact_mod_cast hnear'

theorem roundEven_zero (a : Nat) : roundEven a 0 = a := by
  obtain ⟨h, -⟩ | ⟨-, h, -⟩ := roundEven_cases a 0
  · rw [h, pow_zero, Nat.div_one]
  · rw [pow_zero, Nat.mod_one] at h
    omega

theorem le_roundEven {a d k : Nat} (h : k * 2 ^ d ≤ a) : k ≤ roundEven a d := by
  have hk : k ≤ a / 2 ^ d := (Nat.le_div_iff_mul_le (Nat.two_pow_pos d)).2 h
  obtain ⟨hq, -⟩ | ⟨hq, -⟩ := roundEven_cases a d <;> omega

theorem roundEven_le {a d k : Nat} (h : a < k * 2 ^ d) : roundEven a d ≤ k := by
  have hk : a / 2 ^ d < k := (Nat.div_lt_iff_lt_mul (Nat.two_pow_pos d)).2 h
  obtain ⟨hq, -⟩ | ⟨hq, -⟩ := roundEven_cases a d <;> omega

/-- From the midpoint below an even multiple on, rounding comes to that multiple or above. -/
theorem le_roundEven_of_midpoint {a d k : Nat} (hk : k % 2 = 0) (h : (2 * k) * 2 ^ d ≤ 2 * a + 2 ^ d) :
    k ≤ roundEven a d := by
  obtain ⟨hnear, htie⟩ := roundEvenIsNearest a d
  by_contra hlt
  obtain ⟨c, hc⟩ : ∃ c, k = roundEven a d + 1 + c := ⟨k - roundEven a d - 1, by omega⟩
  have hexp : (2 * k) * 2 ^ d = 2 * (roundEven a d * 2 ^ d) + 2 * 2 ^ d + 2 * (c * 2 ^ d) := by rw [hc]; ring
  have hcast : ((roundEven a d : Int) * 2 ^ d) = ((roundEven a d * 2 ^ d : Nat) : Int) := by push_cast; ring
  rw [hcast] at hnear htie
  have hpos := Nat.two_pow_pos d
  have hczero : c * 2 ^ d = 0 := by omega
  obtain rfl : c = 0 := (Nat.mul_eq_zero.1 hczero).resolve_right (by omega)
  have := htie (by omega)
  omega

/-! ### The number of bits -/

theorem lt_two_pow_bitCount (a : Nat) : a < 2 ^ bitCount a := by
  unfold bitCount
  split_ifs with h
  · omega
  · exact Nat.lt_log2_self

theorem two_pow_le_of_bitCount {a n : Nat} (h : n < bitCount a) : 2 ^ n ≤ a := by
  unfold bitCount at h
  split_ifs at h with ha
  · omega
  · exact (Nat.pow_le_pow_right (by decide) (by omega)).trans (Nat.log2_self_le ha)

/-! ### `RNE64` (R11, R296) -/

/-- The number of bits that `RNE64` drops. -/
def BinValue.dropped (x : BinValue) : Nat := droppedBits x.mant.natAbs x.exp

/-- The magnitude after rounding. -/
def BinValue.rounded (x : BinValue) : Nat := roundEven x.mant.natAbs x.dropped

/-- The exponent of the last bit kept. -/
def BinValue.lastBit (x : BinValue) : Int := x.exp + x.dropped

theorem rne64_eq (x : BinValue) :
    rne64 x =
      if 1024 < bitCount x.rounded + x.lastBit ∧ x.rounded ≠ 0 then .inf (decide (x.mant < 0))
      else .num { mant := if x.mant < 0 then -(x.rounded : Int) else x.rounded, exp := x.lastBit } := rfl

/-- The magnitude as a rational number. -/
theorem abs_toRat (x : BinValue) : |x.toRat| = x.mant.natAbs * (2 : ℚ) ^ x.exp := by
  rw [BinValue.toRat, abs_mul, abs_of_pos (a := (2 : ℚ) ^ x.exp) (by positivity), ← Int.cast_abs, Int.abs_eq_natAbs]
  rfl

theorem zpow_lastBit (x : BinValue) : (2 : ℚ) ^ x.lastBit = 2 ^ x.dropped * 2 ^ x.exp := by
  rw [BinValue.lastBit, zpow_add₀ two_ne_zero, zpow_natCast, mul_comm]

theorem le_lastBit (x : BinValue) : -1074 ≤ x.lastBit := by
  rw [BinValue.lastBit, BinValue.dropped, droppedBits]
  omega

theorem bitCount_le_dropped (x : BinValue) : bitCount x.mant.natAbs ≤ 53 + x.dropped := by
  rw [BinValue.dropped, droppedBits]
  omega

theorem rounded_le (x : BinValue) : x.rounded ≤ 2 ^ 53 := by
  refine roundEven_le ?_
  rw [← pow_add]
  exact (lt_two_pow_bitCount _).trans_le (Nat.pow_le_pow_right (by decide) (bitCount_le_dropped x))

/-- Above the smallest exponent, bits are dropped only from a magnitude of more than 53 bits. -/
theorem dropped_eq_zero_or_large {x : BinValue} (h : -1074 < x.lastBit) :
    x.dropped = 0 ∨ 2 ^ 52 * 2 ^ x.dropped ≤ x.mant.natAbs := by
  refine or_iff_not_imp_left.2 fun hd => ?_
  rw [← pow_add]
  refine two_pow_le_of_bitCount ?_
  rw [BinValue.lastBit] at h
  rw [BinValue.dropped, droppedBits] at h hd ⊢
  omega

/-- A magnitude of which no bit is dropped is exact. -/
theorem rounded_of_dropped_eq_zero {x : BinValue} (h : x.dropped = 0) : x.rounded = x.mant.natAbs := by
  rw [BinValue.rounded, h, roundEven_zero]

/-- The distance of the rounded magnitude, in units of the exponent of the exact one. -/
theorem abs_toRat_sub_mul (x : BinValue) (k : ℚ) :
    |(|x.toRat|) - k * 2 ^ x.lastBit| = |(x.mant.natAbs : ℚ) - k * 2 ^ x.dropped| * 2 ^ x.exp := by
  rw [abs_toRat, zpow_lastBit, ← mul_assoc, ← sub_mul, abs_mul, abs_of_pos (a := (2 : ℚ) ^ x.exp) (by positivity)]

/-! ### Nearest (R11) -/

/-- No multiple of the last bit's value is nearer than the rounded magnitude. -/
theorem abs_sub_rounded_le (x : BinValue) (k : Int) :
    |(|x.toRat|) - x.rounded * 2 ^ x.lastBit| ≤ |(|x.toRat|) - k * 2 ^ x.lastBit| := by
  rw [abs_toRat_sub_mul, abs_toRat_sub_mul]
  exact mul_le_mul_of_nonneg_right (abs_roundEven_le _ _ _) (by positivity)

/-- A large magnitude is at least `2^52` times the value of its last bit. -/
theorem large_le_abs_toRat {x : BinValue} (h : 2 ^ 52 * 2 ^ x.dropped ≤ x.mant.natAbs) :
    (2 : ℚ) ^ 52 * 2 ^ x.lastBit ≤ |x.toRat| := by
  rw [abs_toRat, zpow_lastBit, ← mul_assoc]
  refine mul_le_mul_of_nonneg_right ?_ (by positivity)
  exact_mod_cast h

/-- A binary64 number with an exponent below the last bit's is below every large magnitude. -/
theorem lt_large_of_exp_lt {m e b : Int} (hm : m.natAbs < 2 ^ 53) (he : e < b) :
    (m : ℚ) * 2 ^ e ≤ 2 ^ 52 * 2 ^ b := by
  have hm' : (m : ℚ) ≤ 2 ^ 53 := by
    have hlt : m ≤ 2 ^ 53 := by omega
    exact_mod_cast hlt
  calc (m : ℚ) * 2 ^ e ≤ 2 ^ 53 * 2 ^ e := mul_le_mul_of_nonneg_right hm' (by positivity)
    _ = 2 ^ 52 * 2 ^ (e + 1) := by rw [zpow_add_one₀ two_ne_zero]; ring
    _ ≤ 2 ^ 52 * 2 ^ b := mul_le_mul_of_nonneg_left (zpow_le_zpow_right₀ one_le_two (by omega)) (by positivity)

/-- No binary64 number is nearer to a magnitude than its rounded magnitude. -/
theorem abs_sub_rounded_le_of_isF64 (x : BinValue) {q : ℚ} (hq : IsF64 q) :
    |(|x.toRat|) - x.rounded * 2 ^ x.lastBit| ≤ |(|x.toRat|) - q| := by
  obtain ⟨m, e, rfl, hm, he, -⟩ := hq
  rcases le_or_gt x.lastBit e with hle | hlt
  · have hmul : (m : ℚ) * 2 ^ e = ((m * 2 ^ (e - x.lastBit).toNat : Int) : ℚ) * 2 ^ x.lastBit := by
      push_cast
      rw [mul_assoc, ← zpow_natCast, ← zpow_add₀ two_ne_zero]
      congr 2
      omega
    rw [hmul]
    exact abs_sub_rounded_le x _
  · obtain hzero | hlarge := dropped_eq_zero_or_large (he.trans_lt hlt)
    · rw [abs_toRat_sub_mul, rounded_of_dropped_eq_zero hzero, hzero, pow_zero, mul_one, sub_self, abs_zero, zero_mul]
      exact abs_nonneg _
    · have hbetween := lt_large_of_exp_lt hm hlt
      have hge := large_le_abs_toRat hlarge
      calc |(|x.toRat|) - x.rounded * 2 ^ x.lastBit|
          ≤ |(|x.toRat|) - ((2 ^ 52 : Int) : ℚ) * 2 ^ x.lastBit| := abs_sub_rounded_le x _
        _ = |x.toRat| - 2 ^ 52 * 2 ^ x.lastBit := by push_cast; exact abs_of_nonneg (sub_nonneg.2 hge)
        _ ≤ |x.toRat| - m * 2 ^ e := sub_le_sub_left hbetween _
        _ ≤ |(|x.toRat|) - m * 2 ^ e| := le_abs_self _

theorem IsF64.neg {q : ℚ} (h : IsF64 q) : IsF64 (-q) := by
  obtain ⟨m, e, rfl, hm, he⟩ := h
  exact ⟨-m, e, by push_cast; ring, by rwa [Int.natAbs_neg], he⟩

/-- A number of at most 53 bits, or `2^53`, with its last bit in range is a binary64 number. -/
theorem isF64_of_bitCount {n : Nat} {e : Int} (hn : n ≤ 2 ^ 53) (he : -1074 ≤ e)
    (h : n = 0 ∨ bitCount n + e ≤ 1024) : IsF64 (n * (2 : ℚ) ^ e) := by
  obtain rfl | h := h
  · exact ⟨0, 0, by simp, by decide, by decide, by decide⟩
  obtain rfl | hlt := eq_or_lt_of_le hn
  · have hbits : 53 < bitCount (2 ^ 53) := by
      by_contra hle
      exact absurd (lt_two_pow_bitCount (2 ^ 53)) (not_lt.2 (Nat.pow_le_pow_right (by decide) (not_lt.1 hle)))
    refine ⟨2 ^ 52, e + 1, ?_, by decide, by omega, by omega⟩
    rw [zpow_add_one₀ two_ne_zero]
    push_cast
    ring
  · rcases le_or_gt e 971 with hle | hgt
    · exact ⟨n, e, by push_cast; rfl, by simpa using hlt, he, hle⟩
    · obtain ⟨j, hj⟩ := Int.eq_ofNat_of_zero_le (a := e - 971) (by omega)
      refine ⟨(n * 2 ^ j : Nat), 971, ?_, ?_, by decide, by decide⟩
      · rw [Int.cast_natCast, Nat.cast_mul, Nat.cast_pow, Nat.cast_ofNat, mul_assoc, ← zpow_natCast,
          ← zpow_add₀ two_ne_zero]
        congr 2
        omega
      · rw [Int.natAbs_natCast]
        calc n * 2 ^ j < 2 ^ bitCount n * 2 ^ j := Nat.mul_lt_mul_of_pos_right (lt_two_pow_bitCount n) (by positivity)
          _ = 2 ^ (bitCount n + j) := (pow_add _ _ _).symm
          _ ≤ 2 ^ 53 := Nat.pow_le_pow_right (by decide) (by omega)

/-- The sign of a number, over the rational numbers. -/
def BinValue.sign (x : BinValue) : ℚ := if x.mant < 0 then -1 else 1

theorem sign_eq (x : BinValue) : x.sign = 1 ∨ x.sign = -1 := by
  unfold BinValue.sign
  split_ifs <;> simp

/-- A number is its sign times its magnitude. -/
theorem sign_mul_abs (x : BinValue) : x.sign * |x.toRat| = x.toRat := by
  unfold BinValue.sign
  split_ifs with h
  · rw [abs_of_neg (not_le.1 fun h' => absurd (toRat_nonneg_iff.1 h') (not_le.2 h)), neg_mul_neg, one_mul]
  · rw [abs_of_nonneg (toRat_nonneg_iff.2 (not_lt.1 h)), one_mul]

/-- What `RNE64` answers when it does not overflow. -/
theorem toRat_of_rne64 {x y : BinValue} (h : rne64 x = .num y) :
    y.toRat = x.sign * (x.rounded * 2 ^ x.lastBit) ∧ (x.rounded = 0 ∨ bitCount x.rounded + x.lastBit ≤ 1024) := by
  rw [rne64_eq] at h
  by_cases hover : 1024 < bitCount x.rounded + x.lastBit ∧ x.rounded ≠ 0
  · rw [if_pos hover] at h
    cases h
  rw [if_neg hover] at h
  obtain rfl := F64.num.inj h
  refine ⟨?_, ?_⟩
  · unfold BinValue.sign BinValue.toRat
    split_ifs <;> push_cast <;> ring
  · by_contra hne
    obtain ⟨hzero, hbits⟩ := not_or.1 hne
    exact hover ⟨not_le.1 hbits, hzero⟩

/-- Settles O57: by the sign, on the magnitudes. -/
theorem roundToBinary64IsNearest : Obligations.RoundToBinary64IsNearest := by
  intro x y hy
  obtain ⟨hval, hbits⟩ := toRat_of_rne64 hy
  have hf64 := isF64_of_bitCount (rounded_le x) (le_lastBit x) hbits
  have hx := sign_mul_abs x
  have hnear : ∀ q, IsF64 q → |(|x.toRat|) - x.rounded * 2 ^ x.lastBit| ≤ |(|x.toRat|) - q| :=
    fun q hq => abs_sub_rounded_le_of_isF64 x hq
  rw [hval]
  generalize |x.toRat| = mag at hx hnear
  rw [← hx]
  obtain hs | hs := sign_eq x <;> rw [hs]
  · rw [one_mul, one_mul]
    exact ⟨hf64, hnear⟩
  · refine ⟨by rw [neg_one_mul]; exact hf64.neg, fun q hq => ?_⟩
    have h := hnear (-q) hq.neg
    rw [neg_one_mul, neg_one_mul, ← abs_neg (-mag - _), ← abs_neg (-mag - q)]
    convert h using 2 <;> ring

/-! ### Overflow (R11, R296) -/

theorem two_pow_mul_zpow (n : Nat) (e : Int) : (2 : ℚ) ^ n * 2 ^ e = 2 ^ ((n : Int) + e) := by
  rw [zpow_add₀ two_ne_zero, zpow_natCast]

theorem two_zpow_1024 {n : Nat} {e : Int} (h : n + e = 1024) : (2 : ℚ) ^ (1024 : Int) = 2 ^ n * 2 ^ e := by
  rw [two_pow_mul_zpow, h]

/-- The midpoint above the largest binary64 number. -/
def overflowBound : ℚ := (2 ^ 54 - 1) * 2 ^ (970 : Nat)

/-- `RNE64` answers an infinity when the rounded magnitude is `2^1024` or more. -/
theorem rne64_inf_iff (x : BinValue) : (∃ negative, rne64 x = .inf negative) ↔
    (2 : ℚ) ^ (1024 : Int) ≤ x.rounded * 2 ^ x.lastBit := by
  have hbits : (∃ negative, rne64 x = .inf negative) ↔ 1024 < bitCount x.rounded + x.lastBit ∧ x.rounded ≠ 0 := by
    rw [rne64_eq]
    split_ifs with h <;> simp [h]
  rw [hbits]
  constructor
  · rintro ⟨hlt, hne⟩
    obtain ⟨n, hn⟩ : ∃ n, bitCount x.rounded = n + 1 := by
      exact ⟨Nat.log2 x.rounded, if_neg hne⟩
    have hle : ((2 ^ n : Nat) : ℚ) ≤ x.rounded := by exact_mod_cast two_pow_le_of_bitCount (by omega)
    push_cast at hle
    calc (2 : ℚ) ^ (1024 : Int) ≤ 2 ^ ((n : Int) + x.lastBit) := zpow_le_zpow_right₀ one_le_two (by omega)
      _ = 2 ^ n * 2 ^ x.lastBit := by rw [zpow_add₀ two_ne_zero, zpow_natCast]
      _ ≤ x.rounded * 2 ^ x.lastBit := mul_le_mul_of_nonneg_right hle (by positivity)
  · intro hge
    have hne : x.rounded ≠ 0 := fun h0 => by
      rw [h0, Nat.cast_zero, zero_mul] at hge
      exact absurd hge (not_le.2 (by positivity))
    refine ⟨lt_of_not_ge fun hle => ?_, hne⟩
    have hlt : (x.rounded : ℚ) < ((2 ^ bitCount x.rounded : Nat) : ℚ) := by exact_mod_cast lt_two_pow_bitCount _
    push_cast at hlt
    refine absurd hge (not_le.2 ?_)
    calc (x.rounded : ℚ) * 2 ^ x.lastBit < 2 ^ bitCount x.rounded * 2 ^ x.lastBit :=
          mul_lt_mul_of_pos_right hlt (by positivity)
      _ = 2 ^ ((bitCount x.rounded : Int) + x.lastBit) := by rw [zpow_add₀ two_ne_zero, zpow_natCast]
      _ ≤ 2 ^ (1024 : Int) := zpow_le_zpow_right₀ one_le_two hle

/-- The bound in powers of two: half a unit of the largest numbers below `2^1024`. -/
theorem overflowBound_eq : overflowBound = 2 ^ (1024 : Int) - 2 ^ (970 : Int) := by
  rw [two_zpow_1024 (n := 54) (e := 970) rfl, overflowBound, sub_mul, one_mul]
  rfl

/-- A magnitude that rounds to `2^1024` or more is at the bound. -/
theorem overflowBound_le_of_rounded {x : BinValue} (h : (2 : ℚ) ^ (1024 : Int) ≤ x.rounded * 2 ^ x.lastBit) :
    overflowBound ≤ |x.toRat| := by
  have hle : overflowBound ≤ 2 ^ (1024 : Int) := by
    rw [overflowBound_eq]
    exact sub_le_self _ (by positivity)
  have hnear : 2 * |(|x.toRat|) - x.rounded * 2 ^ x.lastBit| ≤ 2 ^ x.lastBit := by
    rw [abs_toRat_sub_mul, zpow_lastBit, ← mul_assoc]
    exact mul_le_mul_of_nonneg_right (abs_sub_roundEven_le_half _ _) (by positivity)
  rcases le_or_gt x.lastBit 971 with hlast | hlast
  · have hhalf : (2 : ℚ) ^ x.lastBit ≤ 2 * 2 ^ (970 : Int) := by
      rw [← zpow_one_add₀ two_ne_zero]
      exact zpow_le_zpow_right₀ one_le_two hlast
    have hlow := neg_abs_le (|x.toRat| - x.rounded * 2 ^ x.lastBit)
    rw [overflowBound_eq]
    linarith
  · obtain hzero | hlarge := dropped_eq_zero_or_large (x := x) (by omega)
    · rw [abs_toRat_sub_mul, hzero, rounded_of_dropped_eq_zero hzero] at hnear
      have hexact : |x.toRat| = x.rounded * 2 ^ x.lastBit := by
        rw [abs_toRat, zpow_lastBit, hzero, rounded_of_dropped_eq_zero hzero, pow_zero, one_mul]
      rw [hexact]
      exact hle.trans h
    · refine hle.trans (le_trans ?_ (large_le_abs_toRat hlarge))
      rw [two_pow_mul_zpow]
      exact zpow_le_zpow_right₀ one_le_two (by push_cast; omega)

/-- A magnitude at the bound has its last bit at `2^971` or above. -/
theorem le_lastBit_of_overflow {x : BinValue} (h : overflowBound ≤ |x.toRat|) : 971 ≤ x.lastBit := by
  by_contra hlt
  have hmag : (x.mant.natAbs : ℚ) < ((2 ^ (53 + x.dropped) : Nat) : ℚ) := by
    exact_mod_cast (lt_two_pow_bitCount _).trans_le (Nat.pow_le_pow_right (by decide) (bitCount_le_dropped x))
  push_cast at hmag
  have hsmall : |x.toRat| < 2 ^ 53 * 2 ^ (970 : Int) := by
    calc |x.toRat| = x.mant.natAbs * 2 ^ x.exp := abs_toRat x
      _ < 2 ^ (53 + x.dropped) * 2 ^ x.exp := mul_lt_mul_of_pos_right hmag (by positivity)
      _ = 2 ^ 53 * 2 ^ x.lastBit := by rw [pow_add, mul_assoc, zpow_lastBit]
      _ ≤ 2 ^ 53 * 2 ^ (970 : Int) :=
          mul_le_mul_of_nonneg_left (zpow_le_zpow_right₀ one_le_two (by omega)) (by positivity)
  have hbound : (2 : ℚ) ^ 53 * 2 ^ (970 : Int) ≤ overflowBound := by
    have hpos : (0 : ℚ) < 2 ^ (970 : Int) := by positivity
    rw [overflowBound_eq, two_zpow_1024 (n := 54) (e := 970) rfl]
    generalize (2 : ℚ) ^ (970 : Int) = unit at hpos ⊢
    linarith
  exact absurd h (not_le.2 (hsmall.trans_le hbound))

/-- A magnitude at the bound rounds to `2^1024` or more. -/
theorem rounded_of_overflowBound_le {x : BinValue} (h : overflowBound ≤ |x.toRat|) :
    (2 : ℚ) ^ (1024 : Int) ≤ x.rounded * 2 ^ x.lastBit := by
  have hlast := le_lastBit_of_overflow h
  rw [overflowBound_eq] at h
  rcases eq_or_lt_of_le hlast with heq | hlt
  · have hmid : (2 * 2 ^ 53) * 2 ^ x.dropped ≤ 2 * x.mant.natAbs + 2 ^ x.dropped := by
      have hunit : (2 : ℚ) ^ x.dropped * 2 ^ x.exp = 2 * 2 ^ (970 : Int) := by
        rw [← zpow_lastBit, ← heq, ← zpow_one_add₀ two_ne_zero]
        rfl
      have hq : (2 * 2 ^ 53) * (2 : ℚ) ^ x.dropped * 2 ^ x.exp ≤
          (2 * x.mant.natAbs + 2 ^ x.dropped) * 2 ^ x.exp := by
        rw [abs_toRat, two_zpow_1024 (n := 54) (e := 970) rfl] at h
        rw [mul_assoc, hunit, add_mul, hunit]
        linarith
      exact_mod_cast le_of_mul_le_mul_right hq (by positivity)
    have hround : (2 : ℚ) ^ 53 ≤ x.rounded := by exact_mod_cast le_roundEven_of_midpoint (by decide) hmid
    rw [← heq, two_zpow_1024 (n := 53) (e := 971) rfl]
    exact mul_le_mul_of_nonneg_right hround (by positivity)
  · obtain hzero | hlarge := dropped_eq_zero_or_large (x := x) (by omega)
    · obtain ⟨j, hj⟩ := Int.eq_ofNat_of_zero_le (a := x.lastBit - 972) (by omega)
      have hunits : (x.rounded : ℚ) * 2 ^ x.lastBit = ((x.rounded * 2 ^ j : Nat) : ℚ) * 2 ^ (972 : Int) := by
        rw [Nat.cast_mul, Nat.cast_pow, Nat.cast_ofNat, mul_assoc, two_pow_mul_zpow]
        congr 2
        omega
      have hexact : |x.toRat| = x.rounded * 2 ^ x.lastBit := by
        rw [abs_toRat, zpow_lastBit, hzero, rounded_of_dropped_eq_zero hzero, pow_zero, one_mul]
      rw [hexact, hunits, two_zpow_1024 (n := 52) (e := 972) rfl] at h
      rw [hunits, two_zpow_1024 (n := 52) (e := 972) rfl]
      have hsmall : (2 : ℚ) ^ (970 : Int) < 2 ^ (972 : Int) := zpow_lt_zpow_right₀ one_lt_two (by decide)
      have hpos : (0 : ℚ) < 2 ^ (972 : Int) := by positivity
      have hgt : ((2 ^ 52 - 1 : Int) : ℚ) < ((x.rounded * 2 ^ j : Nat) : ℚ) := by
        refine lt_of_mul_lt_mul_right ?_ hpos.le
        generalize (2 : ℚ) ^ (970 : Int) = half at hsmall h
        generalize (2 : ℚ) ^ (972 : Int) = unit at hsmall hpos h ⊢
        push_cast at h ⊢
        linarith
      have hle : (2 ^ 52 : Nat) ≤ x.rounded * 2 ^ j := by
        have hint : (2 ^ 52 - 1 : Int) < (x.rounded * 2 ^ j : Nat) := by exact_mod_cast hgt
        omega
      refine mul_le_mul_of_nonneg_right ?_ hpos.le
      exact_mod_cast hle
    · have hround : (2 : ℚ) ^ 52 ≤ x.rounded := by exact_mod_cast le_roundEven hlarge
      rw [two_zpow_1024 (n := 52) (e := 972) rfl]
      exact mul_le_mul hround (zpow_le_zpow_right₀ one_le_two (by omega)) (by positivity) (by positivity)

/-- Settles O58: the rounded magnitude is at `2^1024` exactly when the magnitude is at the bound. -/
theorem roundOverflow : Obligations.RoundOverflow := by
  intro x
  refine ⟨(rne64_inf_iff x).trans ⟨overflowBound_le_of_rounded, rounded_of_overflowBound_le⟩, fun negative h => ?_⟩
  have hneg : negative = decide (x.mant < 0) := by
    rw [rne64_eq] at h
    split_ifs at h
    exact (F64.inf.inj h).symm
  rw [hneg, decide_eq_true_iff, ← not_le, ← not_le, toRat_nonneg_iff]

end Sys2Proof.Machine

/-! SUPPORT. The hidden state: no step observes the scratch, the working registers of an idle block, or the constants of
the other variant (R27, R49 to R51). -/

namespace Sys2Proof.Machine

/-! ### States that differ in hidden state -/

/-- `s` with other working registers and other scratch. -/
def State.hide (s : State) (work : Work) (scratch : Scratch) : State := { s with work := work, scratch := scratch }

/-- Two states that differ at most in the working registers and the scratch. -/
def SamePlane (s t : State) : Prop := ∃ work scratch, t = s.hide work scratch

/-- Two states of a running command that differ at most in the scratch and, for the low variant, in `nbits` and
`length` (R26). -/
def SameRunning (v : Variant) (s t : State) : Prop :=
  ∃ scratch nbits length, t = s.hide { s.work with nbits := nbits, length := length } scratch ∧
    (v = .high → nbits = s.work.nbits ∧ length = s.work.length)

/-- Two states of a running `PREDICT`, whose column sums agree. -/
def SamePred (s t : State) : Prop :=
  ∃ work low high, t = s.hide work { s.scratch with low := low, high := high }

theorem SameRunning.plane {v : Variant} {s t : State} (h : SameRunning v s t) : SamePlane s t := by
  obtain ⟨_, _, _, rfl, -⟩ := h
  exact ⟨_, _, rfl⟩

theorem SamePred.plane {s t : State} (h : SamePred s t) : SamePlane s t := by
  obtain ⟨_, _, _, rfl⟩ := h
  exact ⟨_, _, rfl⟩

theorem SameVisible.plane {s t : State} (h : SameVisible s t) : SamePlane s t := ⟨_, _, h.1⟩

theorem SameVisible.refl (s : State) : SameVisible s s := ⟨rfl, fun _ => rfl, fun _ => rfl⟩

/-- An idle block hides all its working registers. -/
theorem SamePlane.visible {s t : State} (h : SamePlane s t) (he : s.engine = .idle) : SameVisible s t := by
  obtain ⟨_, _, rfl⟩ := h
  exact ⟨rfl, fun h => by rw [he] at h; simp at h, fun h => by rw [he] at h; simp at h⟩

/-- A running command hides what `SameRunning` leaves free. -/
theorem SameRunning.visible {v : Variant} {s t : State} (h : SameRunning v s t)
    (he : s.engine = .idle ∨ s.engine = .value v ∨ s.engine = .run v) : SameVisible s t := by
  obtain ⟨_, nbits, length, rfl, hhigh⟩ := h
  refine ⟨rfl, fun _ => rfl, fun h => ?_⟩
  have hv : v = .high := by
    obtain he | he | he := he <;> rw [he] at h <;> simp at h <;> exact h
  obtain ⟨rfl, rfl⟩ := hhigh hv
  rfl

theorem SameVisible.running {v : Variant} {s t : State} (h : SameVisible s t)
    (he : s.engine = .value v ∨ s.engine = .run v) : SameRunning v s t := by
  obtain ⟨hplane, hlow, hhigh⟩ := h
  cases v with
  | low => exact ⟨t.scratch, t.work.nbits, t.work.length, by rw [← hlow he]; exact hplane, fun h => (nomatch h)⟩
  | high =>
    have hwork := hhigh he
    exact ⟨t.scratch, s.work.nbits, s.work.length, by rw [hplane, hwork]; rfl, fun _ => ⟨rfl, rfl⟩⟩

/-- An operation of the host that leaves the working registers and the running command alone. -/
theorem SameVisible.keep {s t s' : State} (h : SameVisible s t) (hw : s'.work = s.work) (he : s'.engine = s.engine) :
    SameVisible s' (s'.hide t.work t.scratch) := by
  obtain ⟨-, hlow, hhigh⟩ := h
  refine ⟨rfl, fun hv => ?_, fun hv => ?_⟩ <;> rw [he] at hv
  · rw [hw]
    exact hlow hv
  · rw [hw]
    exact hhigh hv

/-! ### Runs that differ in hidden state -/

/-- Two runs went on to states in `R`, or raised the same fault. -/
def Run.Rel (R : State → State → Prop) : Run → Run → Prop
  | .go s, .go t => R s t
  | .stop code s, .stop code' t => code = code' ∧ SamePlane s t
  | .go _, .stop _ _ | .stop _ _, .go _ => False

theorem rel_bind {R R' : State → State → Prop} {r r' : Run} {f f' : State → Run} (h : Run.Rel R r r')
    (hf : ∀ s t, R s t → Run.Rel R' (f s) (f' t)) : Run.Rel R' (r.bind f) (r'.bind f') := by
  cases r <;> cases r'
  · exact hf _ _ h
  · exact False.elim h
  · exact False.elim h
  · exact h

theorem rel_go {R : State → State → Prop} {s t : State} (h : R s t) : Run.Rel R (.go s) (.go t) := h

theorem rel_forUpTo {R : State → State → Prop} {body : Nat → State → Run} (n : Nat)
    (hb : ∀ k s t, R s t → Run.Rel R (body k s) (body k t)) {s t : State} (h : R s t) :
    Run.Rel R (Run.forUpTo n body s) (Run.forUpTo n body t) := by
  induction n with
  | zero => exact h
  | succ n ih => exact rel_bind ih (hb n)

theorem rel_ite {R : State → State → Prop} {c c' : Prop} [Decidable c] [Decidable c'] (hc : c' ↔ c) {r₁ r₂ r₁' r₂' : Run}
    (h₁ : Run.Rel R r₁ r₁') (h₂ : Run.Rel R r₂ r₂') :
    Run.Rel R (if c then r₁ else r₂) (if c' then r₁' else r₂') := by
  by_cases h : c
  · rw [if_pos h, if_pos (hc.2 h)]; exact h₁
  · rw [if_neg h, if_neg (fun h' => h (hc.1 h'))]; exact h₂

theorem Run.Rel.mono {R R' : State → State → Prop} {r r' : Run} (h : Run.Rel R r r') (hR : ∀ s t, R s t → R' s t) :
    Run.Rel R' r r' := by
  cases r <;> cases r'
  · exact hR _ _ h
  · exact h
  · exact h
  · exact h

theorem Run.Rel.go_right {R : State → State → Prop} {u : State} {r' : Run} (h : Run.Rel R (.go u) r') :
    ∃ u', r' = .go u' ∧ R u u' := by
  cases r' with
  | go u' => exact ⟨u', rfl, h⟩
  | stop => exact absurd h (fun h => h)

theorem Run.Rel.stop_right {R : State → State → Prop} {u : State} {code : ErrCode} {r' : Run}
    (h : Run.Rel R (.stop code u) r') : ∃ u', r' = .stop code u' ∧ SamePlane u u' := by
  cases r' with
  | go => exact absurd h (fun h => h)
  | stop code' u' =>
    obtain ⟨rfl, hu⟩ := h
    exact ⟨u', rfl, hu⟩

/-! ### Accesses to PM -/

theorem rel_sampRead {R : State → State → Prop} {s t : State} (a : Word) {k k' : Sample → State → Run}
    (h : SamePlane s t) (hk : ∀ v, Run.Rel R (k v s) (k' v t)) : Run.Rel R (sampRead a k s) (sampRead a k' t) := by
  obtain ⟨_, _, rfl⟩ := h
  exact rel_ite Iff.rfl (hk _) ⟨rfl, _, _, rfl⟩

theorem rel_sampWrite {R : State → State → Prop} {s t : State} (a : Word) (v : Sample) (h : SamePlane s t)
    (hR : R (s.storeSample a v) (t.storeSample a v)) : Run.Rel R (sampWrite a v s) (sampWrite a v t) := by
  obtain ⟨_, _, rfl⟩ := h
  exact rel_ite Iff.rfl hR ⟨rfl, _, _, rfl⟩

theorem SamePlane.storeSample {s t : State} (a : Word) (v : Sample) (h : SamePlane s t) :
    SamePlane (s.storeSample a v) (t.storeSample a v) := by
  obtain ⟨_, _, rfl⟩ := h
  exact ⟨_, _, rfl⟩

/-! ### The commands on PM (R272, R298, R301) -/

theorem SamePred.storeSample {s t : State} (a : Word) (v : Sample) (h : SamePred s t) :
    SamePred (s.storeSample a v) (t.storeSample a v) := by
  obtain ⟨_, _, _, rfl⟩ := h
  exact ⟨_, _, _, rfl⟩

theorem SamePred.setPred {s t : State} (j : Nat) (v : Sample) (h : SamePred s t) :
    SamePred (s.setPred j v) (t.setPred j v) := by
  obtain ⟨_, _, _, rfl⟩ := h
  exact ⟨_, _, _, rfl⟩

theorem SamePred.predAt {s t : State} (j : Nat) (h : SamePred s t) : t.predAt j = s.predAt j := by
  obtain ⟨_, _, _, rfl⟩ := h
  rfl

theorem rel_predictFirst (a : Word) {s t : State} (h : SamePred s t) :
    Run.Rel SamePred (predictFirst a s) (predictFirst a t) := by
  refine rel_sampRead a h.plane (fun old => ?_)
  rw [h.predAt]
  exact rel_bind (rel_sampWrite _ _ h.plane (h.storeSample _ _)) (fun _ _ hu => hu.setPred _ _)

theorem rel_predictNext (a : Word) (j : Nat) {s t : State} (h : SamePred s t) :
    Run.Rel SamePred (predictNext a j s) (predictNext a j t) := by
  refine rel_sampRead _ h.plane (fun old => ?_)
  rw [h.predAt]
  refine rel_bind (rel_sampWrite _ _ h.plane (h.storeSample _ _)) (fun u w hu => ?_)
  have hset := hu.setPred j (s.predAt j + old)
  exact rel_sampRead _ hset.plane (fun left => rel_sampWrite _ _ hset.plane (hset.storeSample _ _))

theorem rel_predictRow (r : Nat) {s t : State} (h : SamePred s t) :
    Run.Rel SamePred (predictRow r s) (predictRow r t) := by
  have hregs : t.regs = s.regs := by obtain ⟨_, _, _, rfl⟩ := h; rfl
  unfold predictRow
  rw [hregs]
  exact rel_bind (rel_predictFirst _ h) (fun _ _ hu => rel_forUpTo _ (fun k _ _ => rel_predictNext _ (k + 1)) hu)

/-- `PREDICT` sets its column sums before it reads them. -/
theorem rel_predictBody {s t : State} (h : SamePlane s t) : Run.Rel SamePlane (predictBody s) (predictBody t) := by
  obtain ⟨work, scratch, rfl⟩ := h
  refine rel_ite Iff.rfl ⟨rfl, _, _, rfl⟩ (rel_ite Iff.rfl ⟨_, _, rfl⟩ ?_)
  exact (rel_forUpTo _ (fun k _ _ => rel_predictRow k) ⟨work, scratch.low, scratch.high, rfl⟩).mono
    (fun _ _ hu => hu.plane)

theorem readVec_hide (s : State) (work : Work) (scratch : Scratch) (base pitch : Word) (n : Nat) :
    (s.hide work scratch).readVec base pitch n = s.readVec base pitch n := by
  induction n with
  | zero => rfl
  | succ n ih => rw [State.readVec, ih]; rfl

theorem rel_writeVec (base pitch : Word) (out : List Sample) {s t : State} (h : SamePlane s t) :
    Run.Rel SamePlane (writeVec base pitch out s) (writeVec base pitch out t) :=
  rel_forUpTo (R := SamePlane) (body := fun t => sampWrite (elemAddr base pitch t) (out.getD t 0#16)) out.length
    (fun _ _ _ hu => rel_sampWrite _ _ hu (hu.storeSample _ _)) h

theorem rel_filterCells (base : Word) (n : Nat) (pitch : Word) (scale : BitVec 64) {s t : State} (h : SamePlane s t) :
    Run.Rel SamePlane (filterCells base n pitch scale s) (filterCells base n pitch scale t) := by
  obtain ⟨work, scratch, rfl⟩ := h
  unfold filterCells
  rw [readVec_hide]
  cases s.readVec base pitch n with
  | none => exact ⟨rfl, _, _, rfl⟩
  | some xs =>
    have hpad (low high : List Sample) : SamePlane { s with scratch := { s.scratch with low := low, high := high } }
        (s.hide work { scratch with low := low, high := high }) := ⟨_, _, rfl⟩
    exact rel_writeVec _ _ _ (hpad _ _)

theorem rel_filt1dBody {s t : State} (h : SamePlane s t) : Run.Rel SamePlane (filt1dBody s) (filt1dBody t) := by
  obtain ⟨work, scratch, rfl⟩ := h
  exact rel_ite Iff.rfl ⟨rfl, _, _, rfl⟩ (rel_ite Iff.rfl ⟨rfl, _, _, rfl⟩ (rel_ite Iff.rfl ⟨rfl, _, _, rfl⟩
    (rel_filterCells _ _ _ _ ⟨work, scratch, rfl⟩)))

theorem rel_idwtRows (p : Plane) (k : Nat) {s t : State} (h : SamePlane s t) :
    Run.Rel SamePlane (idwtRows p k s) (idwtRows p k t) := by
  have hph : t.ph = s.ph := by obtain ⟨_, _, rfl⟩ := h; rfl
  unfold idwtRows
  rw [hph]
  refine rel_forUpTo _ (fun r u w hu => ?_) h
  obtain ⟨work, scratch, rfl⟩ := hu
  exact rel_filterCells _ _ _ _ ⟨work, scratch, rfl⟩

theorem rel_idwtCols (p : Plane) (k : Nat) {s t : State} (h : SamePlane s t) :
    Run.Rel SamePlane (idwtCols p k s) (idwtCols p k t) := by
  have hpw : t.pw = s.pw := by obtain ⟨_, _, rfl⟩ := h; rfl
  unfold idwtCols
  rw [hpw]
  refine rel_forUpTo _ (fun x u w hu => ?_) h
  obtain ⟨work, scratch, rfl⟩ := hu
  exact rel_filterCells _ _ _ _ ⟨work, scratch, rfl⟩

theorem rel_idwtBody (p : Plane) {s t : State} (h : SamePlane s t) : Run.Rel SamePlane (idwtBody p s) (idwtBody p t) := by
  have hsame : t.status = s.status ∧ t.scale = s.scale := by obtain ⟨_, _, rfl⟩ := h; exact ⟨rfl, rfl⟩
  obtain ⟨hstatus, hscale⟩ := hsame
  have hlevel : ∀ k u w, SamePlane u w →
      Run.Rel SamePlane ((idwtRows p k u).bind (idwtCols p k)) ((idwtRows p k w).bind (idwtCols p k)) :=
    fun k u w hu => rel_bind (rel_idwtRows p k hu) (fun _ _ => rel_idwtCols p k)
  unfold idwtBody
  rw [hstatus, hscale]
  refine rel_ite Iff.rfl ⟨rfl, h⟩ (rel_ite Iff.rfl ⟨rfl, h⟩ ?_)
  exact rel_forUpTo (body := fun k s => (idwtRows p k s).bind (idwtCols p k)) 4 hlevel h

theorem rel_layoutBody {s t : State} (h : SamePlane s t) : Run.Rel SamePlane (layoutBody s) (layoutBody t) := by
  obtain ⟨work, scratch, rfl⟩ := h
  exact rel_ite Iff.rfl ⟨rfl, _, _, rfl⟩ (rel_ite Iff.rfl ⟨rfl, _, _, rfl⟩ ⟨_, _, rfl⟩)

/-! ### Commands and codewords that see no hidden state -/

/-- Where `f` goes on from a state it goes on from every state that differs in hidden state only. -/
def Unobserving (f : State → Host.Outcome State Fault Refusal) : Prop :=
  ∀ s t s', SameVisible s t → f s = .next s' → ∃ t', f t = .next t' ∧ SameVisible s' t'

theorem SamePlane.accept {s t : State} (h : SamePlane s t) : SamePlane s.accept t.accept := by
  obtain ⟨work, scratch, rfl⟩ := h
  exact ⟨work, scratch, rfl⟩

theorem SamePlane.raise {s t : State} (h : SamePlane s t) (code : ErrCode) : SameVisible (s.raise code) (t.raise code) := by
  obtain ⟨work, scratch, rfl⟩ := h
  exact SamePlane.visible ⟨work, scratch, rfl⟩ rfl

theorem SamePlane.complete {s t : State} (h : SamePlane s t) : SameVisible s.complete t.complete := by
  obtain ⟨work, scratch, rfl⟩ := h
  exact SamePlane.visible ⟨work, scratch, rfl⟩ rfl

theorem SamePlane.busy_eq {s t : State} (h : SamePlane s t) : t.status.busy = s.status.busy := by
  obtain ⟨_, _, rfl⟩ := h
  rfl

theorem Run.Rel.settle {r r' : Run} (h : Run.Rel SamePlane r r') : SameVisible r.settle r'.settle := by
  cases r with
  | go u =>
    obtain ⟨u', rfl, hu⟩ := h.go_right
    exact hu.complete
  | stop code u =>
    obtain ⟨u', rfl, hu⟩ := h.stop_right
    exact hu.raise code

theorem unobserving_runCommand {body : State → Run} (hb : ∀ s t, SamePlane s t → Run.Rel SamePlane (body s) (body t)) :
    Unobserving (runCommand body) := by
  intro s t s' h hs
  have hbusy := h.plane.busy_eq
  obtain ⟨hbs, rfl⟩ | ⟨hbs, rfl⟩ := runCommand_next.1 hs <;> rw [← hbusy] at hbs
  · exact ⟨t, runCommand_next.2 (.inl ⟨hbs, rfl⟩), h⟩
  · exact ⟨_, runCommand_next.2 (.inr ⟨hbs, rfl⟩), (hb _ _ h.plane.accept).settle⟩

/-! ### The loop between codewords -/

theorem SameRunning.retire {v : Variant} {s t : State} (h : SameRunning v s t) : SameVisible s.retire t.retire := by
  obtain ⟨scratch, nbits, length, rfl, -⟩ := h
  exact SamePlane.visible ⟨{ s.retire.work with nbits := nbits, length := length }, scratch, rfl⟩ rfl

/-- Two running states stay so in another place of their loop. -/
theorem SameRunning.withEngine {v : Variant} {s t : State} (h : SameRunning v s t) {e : Engine}
    (he : e = .value v ∨ e = .run v) : SameVisible { s with engine := e } { t with engine := e } := by
  obtain ⟨scratch, nbits, length, rfl, hhigh⟩ := h
  exact SameRunning.visible ⟨scratch, nbits, length, rfl, hhigh⟩ (.inr he)

theorem SameRunning.nextValue {v : Variant} {s t : State} (h : SameRunning v s t) :
    SameVisible (s.nextValue v) (t.nextValue v) := by
  have hsame : t.work.i = s.work.i ∧ t.regs.size = s.regs.size := by
    obtain ⟨_, _, _, rfl, -⟩ := h
    exact ⟨rfl, rfl⟩
  obtain ⟨hi, hsize⟩ := hsame
  unfold State.nextValue
  rw [hi, hsize]
  split_ifs
  · exact h.withEngine (.inl rfl)
  · exact h.retire

theorem SameRunning.afterValue {v : Variant} {s t : State} (h : SameRunning v s t) :
    SameVisible (s.afterValue v) (t.afterValue v) := by
  have hgate : t.gate = s.gate := by obtain ⟨_, _, _, rfl, -⟩ := h; rfl
  unfold State.afterValue
  rw [hgate]
  split_ifs
  · exact h.withEngine (.inr rfl)
  · exact h.nextValue

/-! ### The start of a coder command -/

theorem rel_coderChecks {s t : State} (h : SamePlane s t) : Run.Rel SamePlane (coderChecks s) (coderChecks t) := by
  obtain ⟨work, scratch, rfl⟩ := h
  exact rel_ite Iff.rfl ⟨rfl, _, _, rfl⟩ (rel_ite Iff.rfl ⟨rfl, _, _, rfl⟩ ⟨_, _, rfl⟩)

/-- Two states after the constants of `DECHIGH`, which agree on them. -/
def SameConstants (s t : State) : Prop :=
  ∃ work scratch, t = s.hide work scratch ∧ work.nbits = s.work.nbits ∧ work.length = s.work.length

theorem rel_highConstants {s t : State} (h : SamePlane s t) :
    Run.Rel SameConstants (highConstants s) (highConstants t) := by
  obtain ⟨work, scratch, rfl⟩ := h
  have hregs : (s.hide work scratch).regs = s.regs := rfl
  unfold highConstants
  rw [hregs]
  cases highWidth s.regs.hscale.toInt with
  | error code => exact ⟨rfl, _, _, rfl⟩
  | ok nbits => exact ⟨{ work with nbits := nbits, length := Config.highTotal - nbits }, scratch, rfl, rfl, rfl⟩

/-- The initialisation writes every working register but `nbits` and `length`. -/
theorem SamePlane.coderInit_low {s t : State} (h : SamePlane s t) : SameRunning .low s.coderInit t.coderInit := by
  obtain ⟨work, scratch, rfl⟩ := h
  exact ⟨scratch, work.nbits, work.length, rfl, fun h => (nomatch h)⟩

theorem SameConstants.coderInit_high {s t : State} (h : SameConstants s t) :
    SameRunning .high s.coderInit t.coderInit := by
  obtain ⟨work, scratch, rfl, hnbits, hlength⟩ := h
  exact ⟨scratch, work.nbits, work.length, rfl, fun _ => ⟨hnbits, hlength⟩⟩

theorem unobserving_startCoder {v : Variant} {start : State → Run}
    (hb : ∀ s t, SamePlane s t → Run.Rel (SameRunning v) (start s) (start t)) : Unobserving (startCoder v start) := by
  intro s t s' h hs
  have hbusy := h.plane.busy_eq
  have hrel := hb _ _ h.plane.accept
  obtain ⟨hbs, rfl⟩ | ⟨hbs, ⟨u, hu, rfl⟩ | ⟨code, u, hu, rfl⟩⟩ := startCoder_next.1 hs <;> rw [← hbusy] at hbs
  · exact ⟨t, startCoder_next.2 (.inl ⟨hbs, rfl⟩), h⟩
  · rw [hu] at hrel
    obtain ⟨u', hu', hrun⟩ := hrel.go_right
    exact ⟨_, startCoder_next.2 (.inr ⟨hbs, .inl ⟨u', hu', rfl⟩⟩), hrun.nextValue⟩
  · rw [hu] at hrel
    obtain ⟨u', hu', hplane⟩ := hrel.stop_right
    exact ⟨_, startCoder_next.2 (.inr ⟨hbs, .inr ⟨code, u', hu', rfl⟩⟩), hplane.raise code⟩

/-! ### The pseudocode of the codewords -/

theorem advance_constants (wk : Work) (nbits length : Nat) (width stride : Word) :
    Work.advance { wk with nbits := nbits, length := length } width stride =
      { wk.advance width stride with nbits := nbits, length := length } := by
  unfold Work.advance
  dsimp only
  split_ifs <;> rfl

section Codeword

variable {v : Variant} {s t : State} (h : SameRunning v s t)

include h

theorem SameRunning.storeSample (a : Word) (x : Sample) : SameRunning v (s.storeSample a x) (t.storeSample a x) := by
  obtain ⟨_, _, _, rfl, hhigh⟩ := h
  exact ⟨_, _, _, rfl, hhigh⟩

theorem rel_skip (n : Nat) : Run.Rel (SameRunning v) (skip n s) (skip n t) := by
  obtain ⟨scratch, nbits, length, rfl, hhigh⟩ := h
  exact rel_ite Iff.rfl ⟨rfl, _, _, rfl⟩ ⟨scratch, nbits, length, rfl, hhigh⟩

theorem SameRunning.advance : SameRunning v { s with work := s.work.advance s.regs.width s.regs.stride }
    { t with work := t.work.advance t.regs.width t.regs.stride } := by
  obtain ⟨scratch, nbits, length, rfl, hhigh⟩ := h
  have hwork := advance_constants s.work nbits length s.regs.width s.regs.stride
  refine ⟨scratch, nbits, length, congrArg (fun wk => s.hide wk scratch) hwork, fun hv => ?_⟩
  obtain ⟨hnbits, hlength⟩ := hhigh hv
  exact ⟨hnbits.trans (advance_nbits _ _ _).symm, hlength.trans (advance_length _ _ _).symm⟩

theorem rel_emit (x : Int) : Run.Rel (SameRunning v) (emit x s) (emit x t) := by
  have haddr : t.emitAddr = s.emitAddr ∧ t.coefSample x = s.coefSample x := by
    obtain ⟨_, _, _, rfl, -⟩ := h
    exact ⟨rfl, rfl⟩
  unfold emit
  rw [haddr.1, haddr.2]
  exact rel_bind (rel_sampWrite _ _ h.plane (h.storeSample _ _)) (fun _ _ hu => hu.advance)

theorem rel_adapt (gain : Int) (x : Nat) : Run.Rel (SameRunning v) (adapt gain x s) (adapt gain x t) := by
  obtain ⟨scratch, nbits, length, rfl, hhigh⟩ := h
  exact rel_ite Iff.rfl ⟨rfl, _, _, rfl⟩ ⟨scratch, nbits, length, rfl, hhigh⟩

theorem rel_valueBody (v' : Variant) (m : Nat) : Run.Rel (SameRunning v) (valueBody v' m s) (valueBody v' m t) := by
  have hsame : t.work.flag = s.work.flag ∧ t.regs = s.regs := by obtain ⟨_, _, _, rfl, -⟩ := h; exact ⟨rfl, rfl⟩
  have hcoef : t.coefOf (m + t.work.flag.toNat) v' = s.coefOf (m + s.work.flag.toNat) v' := by
    rw [hsame.1]
    cases v' with
    | low => rfl
    | high => rw [State.coefOf, hsame.2]; rfl
  have hgain : t.gain v' = s.gain v' := by
    cases v' with
    | low => rfl
    | high => rw [State.gain, hsame.2]; rfl
  rw [valueBody_eq, valueBody_eq, hcoef, hgain, hsame.1]
  exact rel_bind (rel_emit h _) (fun _ _ hu => rel_adapt hu _ _)

theorem SameRunning.afterZeros (rlen : Nat) :
    SameRunning v (Machine.afterZeros rlen s) (Machine.afterZeros rlen t) := by
  obtain ⟨scratch, nbits, length, rfl, hhigh⟩ := h
  exact ⟨scratch, nbits, length, rfl, hhigh⟩

theorem rel_zeroRun (rlen : Nat) : Run.Rel (SameRunning v) (zeroRun rlen s) (zeroRun rlen t) := by
  refine rel_ite ?_ ⟨rfl, h.plane⟩
    (rel_bind (rel_forUpTo rlen (fun _ _ _ hu => rel_emit hu 0) h) (fun _ _ hu => hu.afterZeros rlen))
  obtain ⟨_, _, _, rfl, -⟩ := h
  rfl

theorem rel_runBody (v' : Variant) (rlen : Nat) : Run.Rel (SameRunning v) (runBody v' rlen s) (runBody v' rlen t) := by
  cases v' with
  | low => exact rel_zeroRun h rlen
  | high => exact rel_ite Iff.rfl ⟨rfl, h.plane⟩ (rel_zeroRun h rlen)

end Codeword

/-- A codeword of `len` bits, the same in both states. -/
theorem execCodeword_sameVisible {at_ : Engine} {v : Variant} {len : Nat} {body : State → Run} {after : State → State}
    (hbody : ∀ s t, SameRunning v s t → Run.Rel (SameRunning v) (body s) (body t))
    (hafter : ∀ s t, SameRunning v s t → SameVisible (after s) (after t)) (hv : at_ = .value v ∨ at_ = .run v)
    {s t s' : State} (h : SameVisible s t) (hs : execCodeword at_ len body after s = .next s') :
    ∃ t', execCodeword at_ len body after t = .next t' ∧ SameVisible s' t' := by
  obtain ⟨he, hend⟩ := execCodeword_next.1 hs
  have het : t.engine = at_ := by obtain ⟨_, _, rfl⟩ := h.plane; exact he
  have hrel := rel_bind (rel_skip (h.running (by rw [he]; exact hv)) len) hbody
  obtain ⟨u, hu, rfl⟩ | ⟨code, u, hu, rfl⟩ := hend <;> rw [hu] at hrel
  · obtain ⟨u', hu', hrun⟩ := hrel.go_right
    exact ⟨_, execCodeword_next.2 ⟨het, .inl ⟨u', hu', rfl⟩⟩, hafter _ _ hrun⟩
  · obtain ⟨u', hu', hplane⟩ := hrel.stop_right
    exact ⟨_, execCodeword_next.2 ⟨het, .inr ⟨code, u', hu', rfl⟩⟩, hplane.raise code⟩

/-- Value and run codewords whose length both states agree on. -/
theorem value_sameVisible {v : Variant} {len m : Nat} {s t s' : State} (h : SameVisible s t)
    (hs : execCodeword (.value v) len (valueBody v m) (State.afterValue v) s = .next s') :
    ∃ t', execCodeword (.value v) len (valueBody v m) (State.afterValue v) t = .next t' ∧ SameVisible s' t' :=
  execCodeword_sameVisible (fun _ _ hu => rel_valueBody hu v m) (fun _ _ hu => hu.afterValue) (.inl rfl) h hs

theorem run_sameVisible {v : Variant} {len rlen : Nat} {s t s' : State} (h : SameVisible s t)
    (hs : execCodeword (.run v) len (runBody v rlen) (State.nextValue v) s = .next s') :
    ∃ t', execCodeword (.run v) len (runBody v rlen) (State.nextValue v) t = .next t' ∧ SameVisible s' t' :=
  execCodeword_sameVisible (fun _ _ hu => rel_runBody hu v rlen) (fun _ _ hu => hu.nextValue) (.inr rfl) h hs

theorem unobserving_codeword {i : Instr} (hi : i.isCodeword = true) : Unobserving (exec i) := by
  intro s t s' h hs
  have he := exec_codeword_engine hi hs
  have hsame : ∀ v, engineOf i = .value v ∨ engineOf i = .run v → SameRunning v s t := fun v hv => h.running (he ▸ hv)
  cases i with
  | layout | declow | dechigh | predict | filt1d | idwt => cases hi
  | lvS | lvL | lvX =>
    obtain ⟨_, _, _, rfl, -⟩ := hsame .low (.inl rfl)
    exact value_sameVisible (v := .low) h hs
  | lrS | lrL | lrX =>
    obtain ⟨_, _, _, rfl, -⟩ := hsame .low (.inr rfl)
    exact run_sameVisible (v := .low) h hs
  | hvS | hvL | hvX =>
    obtain ⟨_, _, _, rfl, hhigh⟩ := hsame .high (.inl rfl)
    obtain ⟨rfl, rfl⟩ := hhigh rfl
    exact value_sameVisible (v := .high) h hs
  | hrS | hrL | hrX8 | hrX16 =>
    obtain ⟨_, _, _, rfl, -⟩ := hsame .high (.inr rfl)
    exact run_sameVisible (v := .high) h hs

/-- No instruction observes the hidden state. -/
theorem unobserving_exec (i : Instr) : Unobserving (exec i) := by
  cases i with
  | layout => exact unobserving_runCommand (fun _ _ => rel_layoutBody)
  | predict => exact unobserving_runCommand (fun _ _ => rel_predictBody)
  | filt1d => exact unobserving_runCommand (fun _ _ => rel_filt1dBody)
  | idwt p => exact unobserving_runCommand (fun _ _ => rel_idwtBody p)
  | declow =>
    exact unobserving_startCoder (fun _ _ h => rel_bind (rel_coderChecks h) (fun _ _ hu => rel_go hu.coderInit_low))
  | dechigh =>
    exact unobserving_startCoder (fun _ _ h =>
      rel_bind (rel_bind (rel_coderChecks h) (fun _ _ => rel_highConstants)) (fun _ _ hu => rel_go hu.coderInit_high))
  | _ => exact unobserving_codeword rfl

/-! ### Steps -/

/-- The codeword at the cursor is the same. -/
theorem SameVisible.fetch_eq {s t : State} (h : SameVisible s t) : t.fetch = s.fetch := by
  cases he : s.engine with
  | idle =>
    have het : t.engine = .idle := by obtain ⟨_, _, rfl⟩ := h.plane; exact he
    rw [State.fetch, State.fetch, State.ctx, State.ctx, he, het]
    rfl
  | value v =>
    obtain ⟨scratch, nbits, length, ht, hhigh⟩ := h.running (.inl he)
    have hctx : t.ctx = s.ctx := by
      rw [ctx_of_value he, ctx_of_value (s := t) (by rw [ht]; exact he), ht]
      cases v with
      | low => rfl
      | high =>
        obtain ⟨rfl, rfl⟩ := hhigh rfl
        rfl
    rw [State.fetch, hctx, ht]
    rfl
  | run v =>
    obtain ⟨scratch, nbits, length, ht, -⟩ := h.running (.inr he)
    have hctx : t.ctx = s.ctx := by
      rw [ctx_of_run he, ctx_of_run (s := t) (by rw [ht]; exact he), ht]
      cases v <;> rfl
    rw [State.fetch, hctx, ht]
    rfl

theorem unobserving_blockStep : Unobserving blockStep := by
  intro s t s' h hs
  unfold blockStep at hs ⊢
  rw [h.fetch_eq]
  cases hf : s.fetch with
  | none =>
    rw [hf] at hs
    cases hs
    exact ⟨t, rfl, h⟩
  | some i =>
    rw [hf] at hs
    exact unobserving_exec i s t s' h hs

theorem unobserving_execCommandWord (w : Word) : Unobserving (execCommandWord w) := by
  intro s t s' h hs
  unfold execCommandWord at hs ⊢
  cases hd : decodeCommand w with
  | ok i =>
    rw [hd] at hs
    exact unobserving_exec i s t s' h hs
  | error e =>
    rw [hd] at hs
    simp only at hs ⊢
    rw [h.plane.busy_eq]
    split_ifs at hs ⊢ with hb
    · cases hs
      exact ⟨t, rfl, h⟩
    · cases hs
      exact ⟨_, rfl, h.plane.accept.raise _⟩

/-- A reset inside a unit of work leaves nothing hidden. -/
theorem unobserving_resetDuring (n : Nat) {work : State → Host.Outcome State Fault Refusal} (hw : Unobserving work) :
    Unobserving (resetDuring n work) := by
  intro s t s' h hs
  have hlog : SameVisible { s with pmLog := some [] } { t with pmLog := some [] } := by
    have hkeep := h.keep (s' := { s with pmLog := some [] }) rfl rfl
    rw [h.1]
    exact hkeep
  unfold resetDuring at hs ⊢
  cases hu : work { s with pmLog := some [] } with
  | next u =>
    obtain ⟨u', hu', hvis⟩ := hw _ _ _ hlog hu
    rw [hu] at hs
    cases hs
    have hpmLog : u'.pmLog = u.pmLog := by rw [hvis.1]
    have hreset : t.resetBlock = s.resetBlock := by rw [h.1]; rfl
    have hpm : t.pm = s.pm := by rw [h.1]
    rw [hu']
    simp only
    rw [hpmLog, hreset, hpm]
    exact ⟨_, rfl, .refl _⟩
  | fault | refused =>
    rw [hu] at hs
    cases hs

/-- An operation that reads and writes neither working registers nor scratch, nor the running command. -/
def LeavesHidden (f : State → Host.Outcome State Fault Refusal) : Prop :=
  ∀ s s' work scratch, f s = .next s' →
    f (s.hide work scratch) = .next (s'.hide work scratch) ∧ s'.work = s.work ∧ s'.engine = s.engine

theorem LeavesHidden.unobserving {f : State → Host.Outcome State Fault Refusal} (hf : LeavesHidden f) :
    Unobserving f := by
  intro s t s' h hs
  obtain ⟨ht, hw, he⟩ := hf s s' t.work t.scratch hs
  refine ⟨_, ?_, h.keep hw he⟩
  rw [← ht]
  exact congrArg f h.1

theorem ite_hide {c : Prop} [Decidable c] {work : Work} {scratch : Scratch} {a b a' b' : State}
    (ha : a' = a.hide work scratch) (hb : b' = b.hide work scratch) :
    (if c then a' else b') = (if c then a else b).hide work scratch := by
  rw [ha, hb, apply_ite (fun u => State.hide u work scratch)]

theorem regWrite_hide (s : State) (work : Work) (scratch : Scratch) (off : Nat) (v : Word) :
    (s.hide work scratch).regWrite off v = (s.regWrite off v).hide work scratch := by
  unfold State.regWrite
  iterate 21 refine ite_hide rfl ?_
  rfl

theorem unobserving_hostRegWrite (addr v : Word) : Unobserving (hostRegWrite addr v) := by
  intro s t s' h hs
  have hoff : t.offset addr = s.offset addr := by obtain ⟨_, _, rfl⟩ := h.plane; rfl
  unfold hostRegWrite at hs ⊢
  rw [hoff, h.plane.busy_eq]
  split_ifs at hs ⊢ with ha hc hb
  · exact unobserving_execCommandWord v s t s' h hs
  · cases hs
    exact ⟨t, rfl, h⟩
  · cases hs
    have hkept := (regWritten_regWrite s (s.offset addr) v).kept
    have hkeep := h.keep (s' := s.regWrite (s.offset addr) v) (by rw [hkept]) (by rw [hkept])
    refine ⟨_, rfl, ?_⟩
    rw [← regWrite_hide] at hkeep
    have ht : t = s.hide t.work t.scratch := h.1
    rw [ht]
    exact hkeep

theorem leavesHidden_hostRegRead (addr : Word) : LeavesHidden (hostRegRead addr) := by
  intro s s' work scratch hs
  unfold hostRegRead at hs
  split_ifs at hs with ha
  cases hs
  exact ⟨if_neg ha, rfl, rfl⟩

theorem leavesHidden_hostBsRead (addr : Word) : LeavesHidden (hostBsRead addr) := by
  intro s s' work scratch hs
  unfold hostBsRead at hs
  split_ifs at hs with ha
  cases hs
  exact ⟨if_neg ha, rfl, rfl⟩

theorem leavesHidden_hostBsWrite (addr : Word) (v : Byte) : LeavesHidden (hostBsWrite addr v) := by
  intro s s' work scratch hs
  have hlt : addr.toNat < s.cfg.bsSize := by
    by_contra hge
    rw [hostBsWrite, if_pos (not_lt.1 hge)] at hs
    cases hs
  cases hu : s.usesByte addr.toNat with
  | false =>
    rw [hostBsWrite_of_free v hlt hu] at hs
    cases hs
    exact ⟨hostBsWrite_of_free (s := s.hide work scratch) v hlt hu, rfl, rfl⟩
  | true =>
    rw [hostBsWrite_of_used v hlt hu] at hs
    cases hs
    exact ⟨hostBsWrite_of_used (s := s.hide work scratch) v hlt hu, rfl, rfl⟩

theorem leavesHidden_hostPmWrite (addr : Word) (v : Sample) : LeavesHidden (hostPmWrite addr v) := by
  intro s s' work scratch hs
  have hlt : addr.toNat < s.cfg.pmSize := by
    by_contra hge
    rw [hostPmWrite, if_pos (not_lt.1 hge)] at hs
    cases hs
  cases hu : s.usesCell addr.toNat with
  | false =>
    rw [hostPmWrite_of_free v hlt hu] at hs
    cases hs
    exact ⟨hostPmWrite_of_free (s := s.hide work scratch) v hlt hu, rfl, rfl⟩
  | true =>
    rw [hostPmWrite_of_used v hlt hu] at hs
    cases hs
    exact ⟨hostPmWrite_of_used (s := s.hide work scratch) v hlt hu, rfl, rfl⟩

theorem leavesHidden_hostPmRead (addr : Word) : LeavesHidden (hostPmRead addr) := by
  intro s s' work scratch hs
  have hlt : addr.toNat < s.cfg.pmSize := by
    by_contra hge
    rw [hostPmRead, if_pos (not_lt.1 hge)] at hs
    cases hs
  cases hu : s.usesCell addr.toNat with
  | false =>
    rw [hostPmRead_of_free hlt hu] at hs
    cases hs
    exact ⟨hostPmRead_of_free (s := s.hide work scratch) hlt hu, rfl, rfl⟩
  | true =>
    rw [hostPmRead_of_used hlt hu] at hs
    cases hs
    exact ⟨hostPmRead_of_used (s := s.hide work scratch) hlt hu, rfl, rfl⟩

theorem SameVisible.withHost {s t : State} (h : SameVisible s t) (host : List HostOp) :
    SameVisible { s with host := host } { t with host := host } := by
  have hkeep := h.keep (s' := { s with host := host }) rfl rfl
  rw [h.1]
  exact hkeep

theorem unobserving_hostStep (op : HostOp) : Unobserving (hostStep op) := by
  cases op with
  | wr addr v => exact unobserving_hostRegWrite addr v
  | rd addr => exact (leavesHidden_hostRegRead addr).unobserving
  | bsWrite addr v => exact (leavesHidden_hostBsWrite addr v).unobserving
  | bsRead addr => exact (leavesHidden_hostBsRead addr).unobserving
  | pmWrite addr v => exact (leavesHidden_hostPmWrite addr v).unobserving
  | pmRead addr => exact (leavesHidden_hostPmRead addr).unobserving
  | reset =>
    intro s t s' h hs
    cases hs
    have hreset : t.resetBlock = s.resetBlock := by rw [h.1]; rfl
    exact ⟨_, rfl, by rw [hreset]; exact .refl _⟩
  | cmdThenReset w n => exact unobserving_resetDuring n (unobserving_execCommandWord w)
  | tickThenReset n => exact unobserving_resetDuring n unobserving_blockStep
  | wait =>
    intro s t s' h hs
    simp only [hostStep] at hs ⊢
    have hhost : t.host = s.host := by rw [h.1]
    rw [h.plane.busy_eq, hhost]
    split_ifs at hs ⊢
    · exact unobserving_blockStep _ _ _ (h.withHost _) hs
    · cases hs
      exact ⟨t, rfl, h⟩
  | tick => exact unobserving_blockStep

/-- Settles O60: whichever part of the machine the step runs, it does not observe the hidden state. -/
theorem hiddenStateUnobservable : Obligations.HiddenStateUnobservable := by
  intro s t s' h hs
  have hhost : t.host = s.host := by rw [h.1]
  cases he : s.host with
  | nil =>
    rw [step_nil he] at hs
    rw [step_nil (hhost.trans he)]
    exact unobserving_blockStep s t s' h hs
  | cons op rest =>
    rw [step_cons he] at hs
    rw [step_cons (hhost.trans he)]
    exact unobserving_hostStep op _ _ s' (h.withHost rest) hs

end Sys2Proof.Machine
